-- ==== Sys2Proof/Word.lean ====
section
/-! DEFINITION. The words and the plain operand types of the Modbus protocol engine block (spec/00_scope.md R10, R14). -/

namespace Sys2Proof

/-- A byte: unit id, function code, exception code and every byte of a frame (R10, R14). -/
abbrev Byte := BitVec 8

/-- A u16: address, register value, transaction id, MBAP length, CRC (R10). -/
abbrev U16 := BitVec 16

/-- A u32: the width of `retriesRemaining` (R10, R41). -/
abbrev U32 := BitVec 32

/-- A counter: `CTR_W` = 64 bits (R12, R48). -/
abbrev Counter := BitVec 64

/-- A byte sequence, index 0 first on the wire (R15). -/
abbrev Bytes := List Byte

/-- A caller-chosen tag, never interpreted by the block (R46). DESIGN CHOICE (log 3): tags are drawn from the naturals. -/
abbrev Tag := Nat

/-- The opaque endpoint value handed to the transport (R32). DESIGN CHOICE (log 3): endpoints are drawn from the naturals. -/
abbrev Endpoint := Nat

/-- The transport framing: `TCP` = 0, `RTU` = 1 (R31, R39). -/
inductive Mode where
  | tcp
  | rtu
  deriving DecidableEq, Repr

/-- One configuration register together with a value of its type: the operands of `CfgWrite` (R342, R31 to R36). -/
inductive CfgSetting where
  | mode (m : Mode)
  | endpoint (e : Endpoint)
  | unitId (n : Nat)
  | timeoutS (n : Nat)
  | retries (n : Nat)
  | inactS (n : Nat)
  deriving DecidableEq, Repr

/-- The eight operations a `Request` carries, with their arguments as unbounded naturals (R46, R116, R151). -/
inductive Op where
  | readCoils (startAddress quantity : Nat)
  | readDiscreteInputs (startAddress quantity : Nat)
  | readHoldingRegisters (startAddress quantity : Nat)
  | readInputRegisters (startAddress quantity : Nat)
  | writeSingleCoil (address : Nat) (value : Bool)
  | writeSingleRegister (address value : Nat)
  | writeMultipleCoils (startAddress : Nat) (values : List Bool)
  | writeMultipleRegisters (startAddress : Nat) (values : List Nat)
  deriving DecidableEq, Repr

end Sys2Proof
end

