-- ==== Sys2Proof/Config.lean ====
section
/-! DEFINITION. The parameters of spec/00_scope.md R12: those the spec fixes, and the open ones as constants with no value. -/

namespace Sys2Proof.Config

/-- `TCP_MAX_LEN`: the largest MBAP length field accepted on receive (R12, R285). -/
def tcpMaxLen : Nat := 254

/-- `RTU_MIN_GROUP`: the smallest RTU byte group that can be a frame (R12, R292). -/
def rtuMinGroup : Nat := 4

/-- `TICK_HZ` less one. OPEN in the spec (R12): a constant with no value, so that `TICK_HZ` is any positive natural. -/
opaque tickHzPred : Nat

/-- `RXBUF_CAP` less 260. OPEN in the spec (R12, R311): a constant with no value. -/
opaque rxBufCapAbove260 : Nat

/-- `MAX_PENDING` less one. OPEN in the spec (R12): a constant with no value, so that `MAX_PENDING` is in [1, 65535]. -/
opaque maxPendingPred : Fin 65535

/-- The value `CFG.ENDPOINT` holds after reset: the spec allows any value (R32, R55 and I1 of 93_implementation_defined.md).
A free value: a constant with no value (log 4). -/
opaque resetEndpoint : Endpoint

end Sys2Proof.Config
end

