-- ==== Sys2Proof/Machine/Operands.lean ====
section
/-! DEFINITION. Byte order, bit order and the byte layouts of spec/00_scope.md R15, R16, spec/20_memory.md R72 to R74 and
spec/30_encoding.md R101 to R104, R110: every operand form of the block. -/

namespace Sys2Proof.Machine

/-- `be16(v)`: high byte first (R16, R72). -/
def be16 (v : U16) : Bytes := [BitVec.ofNat 8 (v.toNat / 256), BitVec.ofNat 8 (v.toNat % 256)]

/-- `le16(v)`: low byte first, the order of the RTU CRC alone (R16, R73). -/
def le16 (v : U16) : Bytes := [BitVec.ofNat 8 (v.toNat % 256), BitVec.ofNat 8 (v.toNat / 256)]

/-- `s[i]`. Every rule reads only inside the sequence (R15). -/
def byteAt (s : Bytes) (i : Nat) : Byte := s.getD i 0

/-- `rdbe16(s, i) = s[i]*256 + s[i+1]` (R16). -/
def rdbe16 (s : Bytes) (i : Nat) : U16 :=
  BitVec.ofNat 16 ((byteAt s i).toNat * 256 + (byteAt s (i + 1)).toNat)

/-- `rdle16(s, i) = s[i] + s[i+1]*256` (R16). -/
def rdle16 (s : Bytes) (i : Nat) : U16 :=
  BitVec.ofNat 16 ((byteAt s i).toNat + (byteAt s (i + 1)).toNat * 256)

/-- `s[i..j)` (R15). -/
def slice (s : Bytes) (i j : Nat) : Bytes := (s.drop i).take (j - i)

/-- `ceil(n / 8)`: the byte count of `n` packed bits (R17, R110). -/
def ceilDiv8 (n : Nat) : Nat := (n + 7) / 8

/-- One packed byte: the sum over the bit positions of `(bit ? 1 : 0) << position` (R171). -/
def packByte (bit : Nat → Bool) : Byte :=
  BitVec.ofNat 8 ((bit 0).toNat + (bit 1).toNat * 2 + (bit 2).toNat * 4 + (bit 3).toNat * 8
    + (bit 4).toNat * 16 + (bit 5).toNat * 32 + (bit 6).toNat * 64 + (bit 7).toNat * 128)

/-- `packBits(values)`: value `k` goes to bit `k mod 8` of byte `k div 8`, padding 0 (R74, R171). -/
def packBits (values : List Bool) : Bytes :=
  (List.range (ceilDiv8 values.length)).map fun j => packByte fun i => values.getD (8 * j + i) false

/-- `unpackBits(bytes, m)`: element `k` is bit `k mod 8` of `bytes[k div 8]` (R212). -/
def unpackBits (bytes : Bytes) (m : Nat) : List Bool :=
  (List.range m).map fun k => (byteAt bytes (k / 8)).getLsbD (k % 8)

/-- Register values in sequence order, each u16 BE (R104). -/
def packRegs (values : List U16) : Bytes := values.flatMap be16

/-- `n` register values read from the bytes, each u16 BE (R105, R215). -/
def unpackRegs (bytes : Bytes) (n : Nat) : List U16 :=
  (List.range n).map fun i => rdbe16 bytes (2 * i)

/-- The value word of 0x05: `true -> 0xFF00`, `false -> 0x0000` (R102, R110). -/
def coilWord (b : Bool) : U16 := if b then 0xFF00 else 0x0000

/-- Payload of `RQ_READ` and of `RQ_WSINGLE`: two u16 BE fields after the function code (R101, R102). -/
def payloadTwoWords (address word : U16) : Bytes := be16 address ++ be16 word

/-- Payload of `RQ_WCOILS`: address, quantity, byte count, packed values (R103). -/
def payloadWriteCoils (address : U16) (values : List Bool) : Bytes :=
  be16 address ++ be16 (BitVec.ofNat 16 values.length) ++ [BitVec.ofNat 8 (ceilDiv8 values.length)] ++ packBits values

/-- Payload of `RQ_WREGS`: address, quantity, byte count, register values (R104). -/
def payloadWriteRegs (address : U16) (values : List U16) : Bytes :=
  be16 address ++ be16 (BitVec.ofNat 16 values.length) ++ [BitVec.ofNat 8 (2 * values.length)] ++ packRegs values

end Sys2Proof.Machine
end

