-- ==== Sys2Proof/Machine/Crc16.lean ====
section
/-! DEFINITION. The CRC16 generator of spec/42_crc16.md: CRC16/MODBUS, in its loop form and in its table form. -/

namespace Sys2Proof.Machine

/-- One of the eight inner steps: shift right, and XOR 0xA001 when the bit shifted out is 1 (R252). -/
def crcBit (c : U16) : U16 := if c &&& 1 = 1 then (c >>> 1) ^^^ 0xA001 else c >>> 1

/-- The inner loop: eight steps (R252). -/
def crcEight (c : U16) : U16 :=
  crcBit (crcBit (crcBit (crcBit (crcBit (crcBit (crcBit (crcBit c)))))))

/-- `Init`: the register's starting value (R250, R253). -/
def crcInit : U16 := 0xFFFF

/-- `Feed(b)`: the byte enters the low 8 bits, then the inner loop (R252, R253). -/
def crcFeed (c : U16) (b : Byte) : U16 := crcEight (c ^^^ b.setWidth 16)

/-- `crc16(s)`: `Init`, then `Feed` of each byte in order; no final XOR (R251, R252, R253). -/
def crcOf (s : Bytes) : U16 := s.foldl crcFeed crcInit

/-- `T[i]`: the inner loop run on the 16-bit value `i` (R254). -/
def crcTable (i : Byte) : U16 := crcEight (i.setWidth 16)

/-- `Feed(b)` in closed form: `T[(C XOR b) & 0xFF] XOR (C >> 8)` (R254). -/
def crcFeedByTable (c : U16) (b : Byte) : U16 :=
  crcTable ((c ^^^ b.setWidth 16).setWidth 8) ^^^ (c >>> 8)

end Sys2Proof.Machine
end

