-- ==== Sys2Proof/Machine/Adu.lean ====
section
/-! DEFINITION. The ADU framer's pure functions (spec/43_adu_framer.md R280 to R292). -/

namespace Sys2Proof.Machine

/-- `Frame(unitId, transactionId?, pdu, consumed)`: the transaction id is present for TCP and absent for RTU (R280). -/
structure Frame where
  unitId : Byte
  transactionId : Option U16
  pdu : Bytes
  consumed : Nat
  deriving DecidableEq, Repr

/-- The three results of `tryUnwrap`; `Corrupt` carries the count of bytes to discard (R18, R280). -/
inductive Unwrapped where
  | incomplete
  | frame (f : Frame)
  | corrupt (consumed : Nat)
  deriving DecidableEq, Repr

/-- `tcpWrap(transactionId, unitId, pdu)`: the MBAP header, then the PDU (R281, R108). -/
def tcpWrap (transactionId : U16) (unitId : Byte) (pdu : Bytes) : Bytes :=
  be16 transactionId ++ be16 0 ++ be16 (BitVec.ofNat 16 (1 + pdu.length)) ++ [unitId] ++ pdu

/-- The header fails: protocol id not 0, or length below 2 or above `TCP_MAX_LEN` (R285). -/
def tcpHeaderCorrupt (buf : Bytes) : Bool :=
  decide (rdbe16 buf 2 ≠ 0) || decide ((rdbe16 buf 4).toNat < 2) || decide (Config.tcpMaxLen < (rdbe16 buf 4).toNat)

/-- `tcpTryUnwrap(buf)` (R282). A corrupt header consumes the whole buffer (R285). -/
def tcpTryUnwrap (buf : Bytes) : Unwrapped :=
  if buf.length < 7 then .incomplete
  else if tcpHeaderCorrupt buf then .corrupt buf.length
  else if buf.length < 6 + (rdbe16 buf 4).toNat then .incomplete
  else .frame
    { unitId := byteAt buf 6
      transactionId := some (rdbe16 buf 0)
      pdu := slice buf 7 (6 + (rdbe16 buf 4).toNat)
      consumed := 6 + (rdbe16 buf 4).toNat }

/-- `rtuWrap(unitId, pdu)`: unit id, PDU, CRC low byte first (R290, R109, R255). -/
def rtuWrap (unitId : Byte) (pdu : Bytes) : Bytes :=
  (unitId :: pdu) ++ le16 (crcOf (unitId :: pdu))

/-- The trailing two bytes are the CRC of the bytes before them (R256). -/
def rtuCrcPasses (g : Bytes) : Bool :=
  decide (crcOf (slice g 0 (g.length - 2)) = rdle16 g (g.length - 2))

/-- `rtuTryUnwrap(g)` of one closed byte group (R292). -/
def rtuTryUnwrap (g : Bytes) : Unwrapped :=
  if g.length < Config.rtuMinGroup then .corrupt g.length
  else if rtuCrcPasses g then
    .frame { unitId := byteAt g 0, transactionId := none, pdu := slice g 1 (g.length - 2), consumed := g.length }
  else .corrupt g.length

end Sys2Proof.Machine
end

