-- ==== Sys2Proof/Syntax.lean ====
section
/-! DEFINITION. The instructions of the block: one constructor per row of spec/opcode_table.json. -/

namespace Sys2Proof

/-- Rows of the table: eight encode operations, ten decode operations, four framer operations, the CRC and nine input
events. Naturals where the spec lets an argument be any natural (R151); a decode row carries the PDU without the byte that
selects the row. -/
inductive Instr where
  /-- `encodeReadCoils(startAddress, quantity)` (R152) -/
  | encodeReadCoils (startAddress quantity : Nat)
  /-- `encodeReadDiscreteInputs(startAddress, quantity)` (R153) -/
  | encodeReadDiscreteInputs (startAddress quantity : Nat)
  /-- `encodeReadHoldingRegisters(startAddress, quantity)` (R154) -/
  | encodeReadHoldingRegisters (startAddress quantity : Nat)
  /-- `encodeReadInputRegisters(startAddress, quantity)` (R155) -/
  | encodeReadInputRegisters (startAddress quantity : Nat)
  /-- `encodeWriteSingleCoil(address, value)` (R160) -/
  | encodeWriteSingleCoil (address : Nat) (value : Bool)
  /-- `encodeWriteSingleRegister(address, value)` (R161) -/
  | encodeWriteSingleRegister (address value : Nat)
  /-- `encodeWriteMultipleCoils(startAddress, values)` (R170) -/
  | encodeWriteMultipleCoils (startAddress : Nat) (values : List Bool)
  /-- `encodeWriteMultipleRegisters(startAddress, values)` (R175) -/
  | encodeWriteMultipleRegisters (startAddress : Nat) (values : List Nat)
  /-- `decodeBits` of the PDU `0x01 :: rest` (R210) -/
  | decodeBitsReadCoils (rest : Bytes)
  /-- `decodeBits` of the PDU `0x02 :: rest` (R211) -/
  | decodeBitsReadDiscreteInputs (rest : Bytes)
  /-- `decodeRegs` of the PDU `0x03 :: rest` (R215) -/
  | decodeRegsReadHoldingRegisters (rest : Bytes)
  /-- `decodeRegs` of the PDU `0x04 :: rest` (R216) -/
  | decodeRegsReadInputRegisters (rest : Bytes)
  /-- `decodeWriteCoilEcho` of the PDU `0x05 :: rest` (R220) -/
  | decodeWriteCoilEcho (rest : Bytes)
  /-- `decodeWriteRegEcho` of the PDU `0x06 :: rest` (R221) -/
  | decodeWriteRegEcho (rest : Bytes)
  /-- `decodeWriteMultiEcho` of the PDU `0x0F :: rest` (R222) -/
  | decodeWriteMultiEchoCoils (rest : Bytes)
  /-- `decodeWriteMultiEcho` of the PDU `0x10 :: rest` (R223) -/
  | decodeWriteMultiEchoRegisters (rest : Bytes)
  /-- `decodeException` of the PDU whose byte 0 is `0x80 | requestFunctionCode` (R203) -/
  | decodeException (requestFunctionCode : BitVec 7) (rest : Bytes)
  /-- decode of a PDU that is empty, or whose byte 0 has bit 7 clear and is none of the eight codes (R114, R202) -/
  | decodeUnimplemented (pdu : Bytes)
  /-- `tcpWrap(transactionId, unitId, pdu)` (R281) -/
  | tcpWrap (transactionId : U16) (unitId : Byte) (pdu : Bytes)
  /-- `tcpTryUnwrap(buf)` (R282) -/
  | tcpTryUnwrap (buf : Bytes)
  /-- `rtuWrap(unitId, pdu)` (R290) -/
  | rtuWrap (unitId : Byte) (pdu : Bytes)
  /-- `rtuTryUnwrap(g)` (R292) -/
  | rtuTryUnwrap (g : Bytes)
  /-- `crc16(s)` (R252) -/
  | crc16 (s : Bytes)
  /-- event `CfgWrite(field, value)` (R342) -/
  | cfgWrite (setting : CfgSetting)
  /-- event `Connect(tag)` (R345) -/
  | connect (tag : Tag)
  /-- event `TransportOpened` (R347) -/
  | transportOpened
  /-- event `TransportFailed` (R349) -/
  | transportFailed
  /-- event `Disconnect(tag)` (R350) -/
  | disconnect (tag : Tag)
  /-- event `Request(tag, op)` (R352 to R358) -/
  | request (tag : Tag) (op : Op)
  /-- event `RxChunk(bytes)` (R360) -/
  | rxChunk (bytes : Bytes)
  /-- event `RxGap` (R300) -/
  | rxGap
  /-- event `Tick(t)` (R380) -/
  | tick (t : Nat)
  deriving DecidableEq, Repr

end Sys2Proof
end

