-- ==== Sys2Proof/WellFormed.lean ====
section
/-! DEFINITION. Which terms of Instr the encodings of spec/30_encoding.md can carry and the interfaces of
spec/10_state.md R46 can deliver. A legal RANGE (a quantity in [1,2000]) is not well-formedness: the encode operation
itself checks it (R150). -/

namespace Sys2Proof

/-- The value fits a u16 field (R10, R151). -/
def isU16 (n : Nat) : Bool := decide (n < 65536)

/-- The eight function codes of R4. -/
def coreFunctionCodes : List Byte := [0x01, 0x02, 0x03, 0x04, 0x05, 0x06, 0x0F, 0x10]

/-- A PDU the response-side decoder sends to no other row: empty, or byte 0 with bit 7 clear and outside R4 (R114, R202). -/
def isUnimplementedPdu (pdu : Bytes) : Bool :=
  match pdu with
  | [] => true
  | fc :: _ => !fc.getLsbD 7 && !coreFunctionCodes.contains fc

/-- Every operand fits the field its encoding gives it, and every input is one the interfaces admit.
For 0x0F and 0x10 the `byteCount` byte must hold `ceil(n/8)` and `2n` (R103, R104); the MBAP length must hold
`1 + len(pdu)` (R108); an RTU group has `n ≥ 1` bytes (R292); an `RxChunk` is non-empty (R46). -/
def Instr.wf : Instr → Bool
  | .encodeReadCoils a q | .encodeReadDiscreteInputs a q
  | .encodeReadHoldingRegisters a q | .encodeReadInputRegisters a q => isU16 a && isU16 q
  | .encodeWriteSingleCoil a _ => isU16 a
  | .encodeWriteSingleRegister a v => isU16 a && isU16 v
  | .encodeWriteMultipleCoils a vs => isU16 a && decide (vs.length ≤ 2040)
  | .encodeWriteMultipleRegisters a vs => isU16 a && decide (vs.length ≤ 127) && vs.all isU16
  | .decodeBitsReadCoils _ | .decodeBitsReadDiscreteInputs _
  | .decodeRegsReadHoldingRegisters _ | .decodeRegsReadInputRegisters _
  | .decodeWriteCoilEcho _ | .decodeWriteRegEcho _
  | .decodeWriteMultiEchoCoils _ | .decodeWriteMultiEchoRegisters _
  | .decodeException _ _ => true
  | .decodeUnimplemented pdu => isUnimplementedPdu pdu
  | .tcpWrap _ _ pdu => decide (pdu.length ≤ 65534)
  | .tcpTryUnwrap _ => true
  | .rtuWrap _ _ => true
  | .rtuTryUnwrap g => !g.isEmpty
  | .crc16 _ => true
  | .cfgWrite _ | .connect _ | .transportOpened | .transportFailed | .disconnect _ | .request _ _ => true
  | .rxChunk bytes => !bytes.isEmpty
  | .rxGap | .tick _ => true

end Sys2Proof
end

