-- ==== Sys2Proof/Machine/Pdu.lean ====
section
/-! DEFINITION. The PDU codec's pure functions: encode (spec/40_pdu_encode.md) and decode (spec/41_pdu_decode.md). -/

namespace Sys2Proof.Machine

/-- A Request `(functionCode, payload)` (R150, R19). -/
structure RequestPdu where
  functionCode : Byte
  payload : Bytes
  deriving DecidableEq, Repr

/-- The request PDU is `[functionCode] ++ payload` (R100). -/
def RequestPdu.bytes (r : RequestPdu) : Bytes := r.functionCode :: r.payload

/-- The result of an encode operation: a Request, or `InvalidArgument` and no bytes (R150). The rules name the value the
failure carries when a quantity or a length is out of range (`some`); they name none for a type failure (`none`, log 8). -/
inductive Encoded where
  | ok (r : RequestPdu)
  | invalidArgument (info : Option Nat)
  deriving DecidableEq, Repr

/-- The typed `data` of a Response (R230). -/
inductive ResponseData where
  | bits (values : List Bool)
  | regs (values : List U16)
  | coilEcho (address : U16) (value : Bool)
  | regEcho (address value : U16)
  | multiEcho (startAddress quantity : U16)
  deriving DecidableEq, Repr

/-- The result of decode: exactly one of Response, ProtocolException and the failure `MalformedPdu` (R200). -/
inductive Decoded where
  | response (functionCode : Byte) (data : ResponseData)
  | protocolException (requestFunctionCode exceptionFunctionCode exceptionCode : Byte)
  | malformedPdu
  deriving DecidableEq, Repr

/-- The shared shape of the four read operations: the type check, the range check, then `RQ_READ` (R151, R152 to R155). -/
def encodeRead (functionCode : Byte) (maxQuantity startAddress quantity : Nat) : Encoded :=
  if isU16 startAddress = false then .invalidArgument none
  else if quantity < 1 ∨ maxQuantity < quantity then .invalidArgument (some quantity)
  else .ok ⟨functionCode, payloadTwoWords (BitVec.ofNat 16 startAddress) (BitVec.ofNat 16 quantity)⟩

/-- `encodeReadCoils` (R152). -/
def encodeReadCoils (startAddress quantity : Nat) : Encoded := encodeRead 0x01 2000 startAddress quantity

/-- `encodeReadDiscreteInputs` (R153). -/
def encodeReadDiscreteInputs (startAddress quantity : Nat) : Encoded := encodeRead 0x02 2000 startAddress quantity

/-- `encodeReadHoldingRegisters` (R154). -/
def encodeReadHoldingRegisters (startAddress quantity : Nat) : Encoded := encodeRead 0x03 125 startAddress quantity

/-- `encodeReadInputRegisters` (R155). -/
def encodeReadInputRegisters (startAddress quantity : Nat) : Encoded := encodeRead 0x04 125 startAddress quantity

/-- `encodeWriteSingleCoil` (R160). -/
def encodeWriteSingleCoil (address : Nat) (value : Bool) : Encoded :=
  if isU16 address = false then .invalidArgument none
  else .ok ⟨0x05, payloadTwoWords (BitVec.ofNat 16 address) (coilWord value)⟩

/-- `encodeWriteSingleRegister` (R161). -/
def encodeWriteSingleRegister (address value : Nat) : Encoded :=
  if (isU16 address && isU16 value) = false then .invalidArgument none
  else .ok ⟨0x06, payloadTwoWords (BitVec.ofNat 16 address) (BitVec.ofNat 16 value)⟩

/-- `encodeWriteMultipleCoils` (R170). -/
def encodeWriteMultipleCoils (startAddress : Nat) (values : List Bool) : Encoded :=
  if isU16 startAddress = false then .invalidArgument none
  else if values.length < 1 ∨ 1968 < values.length then .invalidArgument (some values.length)
  else .ok ⟨0x0F, payloadWriteCoils (BitVec.ofNat 16 startAddress) values⟩

/-- `encodeWriteMultipleRegisters` (R175). -/
def encodeWriteMultipleRegisters (startAddress : Nat) (values : List Nat) : Encoded :=
  if (isU16 startAddress && values.all isU16) = false then .invalidArgument none
  else if values.length < 1 ∨ 123 < values.length then .invalidArgument (some values.length)
  else .ok ⟨0x10, payloadWriteRegs (BitVec.ofNat 16 startAddress) (values.map (BitVec.ofNat 16))⟩

/-- `encode(op)`: the encode operation the request names (R353). -/
def encodeOp : Op → Encoded
  | .readCoils a q => encodeReadCoils a q
  | .readDiscreteInputs a q => encodeReadDiscreteInputs a q
  | .readHoldingRegisters a q => encodeReadHoldingRegisters a q
  | .readInputRegisters a q => encodeReadInputRegisters a q
  | .writeSingleCoil a v => encodeWriteSingleCoil a v
  | .writeSingleRegister a v => encodeWriteSingleRegister a v
  | .writeMultipleCoils a vs => encodeWriteMultipleCoils a vs
  | .writeMultipleRegisters a vs => encodeWriteMultipleRegisters a vs

/-- `decodeBits` for function code 0x01 or 0x02: `8 * bc` bits, padding included (R210, R211). -/
def decodeBits (functionCode : Byte) (pdu : Bytes) : Decoded :=
  if pdu.length < 2 then .malformedPdu
  else if pdu.length ≠ 2 + (byteAt pdu 1).toNat then .malformedPdu
  else .response functionCode
    (.bits (unpackBits (slice pdu 2 (2 + (byteAt pdu 1).toNat)) (8 * (byteAt pdu 1).toNat)))

/-- `decodeRegs` for function code 0x03 or 0x04 (R215, R216). -/
def decodeRegs (functionCode : Byte) (pdu : Bytes) : Decoded :=
  if pdu.length < 2 then .malformedPdu
  else if pdu.length ≠ 2 + (byteAt pdu 1).toNat then .malformedPdu
  else if (byteAt pdu 1).toNat % 2 ≠ 0 then .malformedPdu
  else .response functionCode (.regs (unpackRegs (pdu.drop 2) ((byteAt pdu 1).toNat / 2)))

/-- `decodeWriteCoilEcho` for function code 0x05 (R220). -/
def decodeWriteCoilEcho (pdu : Bytes) : Decoded :=
  if pdu.length ≠ 5 then .malformedPdu
  else if rdbe16 pdu 3 = 0xFF00 then .response 0x05 (.coilEcho (rdbe16 pdu 1) true)
  else if rdbe16 pdu 3 = 0x0000 then .response 0x05 (.coilEcho (rdbe16 pdu 1) false)
  else .malformedPdu

/-- `decodeWriteRegEcho` for function code 0x06 (R221). -/
def decodeWriteRegEcho (pdu : Bytes) : Decoded :=
  if pdu.length ≠ 5 then .malformedPdu
  else .response 0x06 (.regEcho (rdbe16 pdu 1) (rdbe16 pdu 3))

/-- `decodeWriteMultiEcho` for function code 0x0F or 0x10 (R222, R223). -/
def decodeWriteMultiEcho (functionCode : Byte) (pdu : Bytes) : Decoded :=
  if pdu.length ≠ 5 then .malformedPdu
  else .response functionCode (.multiEcho (rdbe16 pdu 1) (rdbe16 pdu 3))

/-- `decodeException` of a PDU whose byte 0 has bit 7 set (R203, R107). -/
def decodeException (pdu : Bytes) : Decoded :=
  if pdu.length ≠ 2 then .malformedPdu
  else .protocolException (byteAt pdu 0 &&& 0x7F) (byteAt pdu 0) (byteAt pdu 1)

/-- A PDU no other rule decodes: `MalformedPdu` (R114, R202). -/
def decodeUnimplemented (_pdu : Bytes) : Decoded := .malformedPdu

/-- `decode(pdu)`: the top-level choice on byte 0 (R202). -/
def decodePdu (pdu : Bytes) : Decoded :=
  if pdu.length = 0 then decodeUnimplemented pdu
  else if byteAt pdu 0 &&& 0x80 ≠ 0 then decodeException pdu
  else if byteAt pdu 0 = 0x01 then decodeBits 0x01 pdu
  else if byteAt pdu 0 = 0x02 then decodeBits 0x02 pdu
  else if byteAt pdu 0 = 0x03 then decodeRegs 0x03 pdu
  else if byteAt pdu 0 = 0x04 then decodeRegs 0x04 pdu
  else if byteAt pdu 0 = 0x05 then decodeWriteCoilEcho pdu
  else if byteAt pdu 0 = 0x06 then decodeWriteRegEcho pdu
  else if byteAt pdu 0 = 0x0F then decodeWriteMultiEcho 0x0F pdu
  else if byteAt pdu 0 = 0x10 then decodeWriteMultiEcho 0x10 pdu
  else decodeUnimplemented pdu

end Sys2Proof.Machine
end

