-- ==== Sys2Proof/Decode.lean ====
section
/-! DEFINITION. The encoded form of every row of spec/opcode_table.json, its decoder (total, rejecting by name) and its
encoder. A bit-encoded row is bytes at the unit its `format` column names; an event arrives typed
(spec/30_encoding.md, introduction). -/

namespace Sys2Proof

open Machine (be16 rdbe16 byteAt ceilDiv8 packBits unpackBits packRegs unpackRegs coilWord payloadTwoWords payloadWriteCoils
  payloadWriteRegs)

/-- The nine input events as they are delivered: typed, with their fields (R46). -/
inductive Event where
  | cfgWrite (setting : CfgSetting)
  | connect (tag : Tag)
  | disconnect (tag : Tag)
  | request (tag : Tag) (op : Op)
  | transportOpened
  | transportFailed
  | rxChunk (bytes : Bytes)
  | rxGap
  | tick (t : Nat)
  deriving DecidableEq, Repr

/-- One item the environment delivers: bytes at a unit, or a typed event. The same bytes are a request PDU on the encode
side and a response PDU on the decode side (the table's `format` column), so the unit is part of the encoded form
(DESIGN CHOICE, log 6). -/
inductive Input where
  /-- a request PDU: formats RQ_READ, RQ_WSINGLE, RQ_WCOILS, RQ_WREGS (R101 to R104) -/
  | requestPdu (pdu : Bytes)
  /-- a response PDU: formats RS_BITS, RS_REGS, RS_ECHO, RS_EXC and the unimplemented codes (R105 to R107, R114) -/
  | responsePdu (pdu : Bytes)
  /-- a TCP ADU to build (R108, R281) -/
  | tcpTransmit (adu : Bytes)
  /-- the contents of a TCP reassembly buffer (R282) -/
  | tcpReceive (buf : Bytes)
  /-- an RTU ADU to build (R109, R290) -/
  | rtuTransmit (adu : Bytes)
  /-- one closed RTU byte group (R292) -/
  | rtuReceive (group : Bytes)
  /-- the bytes a CRC is computed of (R252) -/
  | crcInput (bytes : Bytes)
  /-- an input event (R46) -/
  | event (e : Event)
  deriving DecidableEq, Repr

/-- Why an item is no instruction of the table. -/
inductive DecodeError where
  /-- the length is not the one the format fixes (R101 to R104, R108, R109) -/
  | badLength
  /-- byte 0 of a request PDU is none of the eight codes (R100, R111) -/
  | badFunctionCode
  /-- the value word of a 0x05 request is neither 0xFF00 nor 0x0000 (R102, R160) -/
  | badCoilValue
  /-- the byte count disagrees with the quantity (R103, R104) -/
  | badByteCount
  /-- a padding bit of the last coil byte is 1 (R110, R171) -/
  | badPadding
  /-- the protocol id of an ADU to build is not 0 (R108) -/
  | badProtocolId
  /-- the trailer of an RTU ADU to build is not its CRC (R109) -/
  | badCrc
  /-- an RTU group of no bytes (R292: `n ≥ 1`) -/
  | emptyGroup
  /-- an RxChunk of no bytes (R46: "a non-empty byte sequence") -/
  | emptyChunk
  deriving DecidableEq, Repr

/-- A request PDU of one of the two five-byte formats and its fields `fc, x, y` (R101, R102). -/
def decodeFixedRequest (fc : Byte) (x y : Nat) : Except DecodeError Instr :=
  if fc = 0x01 then .ok (.encodeReadCoils x y)
  else if fc = 0x02 then .ok (.encodeReadDiscreteInputs x y)
  else if fc = 0x03 then .ok (.encodeReadHoldingRegisters x y)
  else if fc = 0x04 then .ok (.encodeReadInputRegisters x y)
  else if fc = 0x05 then
    if y = 0xFF00 then .ok (.encodeWriteSingleCoil x true)
    else if y = 0 then .ok (.encodeWriteSingleCoil x false)
    else .error .badCoilValue
  else if fc = 0x06 then .ok (.encodeWriteSingleRegister x y)
  else .error .badFunctionCode

/-- The 0x0F request with quantity `n` and the bytes after the quantity (R103). -/
def decodeCoilsRequest (address n : Nat) (tail : Bytes) : Except DecodeError Instr :=
  match tail with
  | [] => .error .badLength
  | bc :: data =>
    if bc.toNat ≠ ceilDiv8 n then .error .badByteCount
    else if data.length ≠ bc.toNat then .error .badLength
    else if packBits (unpackBits data n) ≠ data then .error .badPadding
    else .ok (.encodeWriteMultipleCoils address (unpackBits data n))

/-- The 0x10 request with quantity `n` and the bytes after the quantity (R104). -/
def decodeRegsRequest (address n : Nat) (tail : Bytes) : Except DecodeError Instr :=
  match tail with
  | [] => .error .badLength
  | bc :: data =>
    if bc.toNat ≠ 2 * n then .error .badByteCount
    else if data.length ≠ bc.toNat then .error .badLength
    else .ok (.encodeWriteMultipleRegisters address ((unpackRegs data n).map BitVec.toNat))

/-- The encode operation whose request PDU the bytes are (R100 to R104, R111). -/
def decodeRequestPdu (pdu : Bytes) : Except DecodeError Instr :=
  if pdu.length < 5 then .error .badLength
  else if byteAt pdu 0 = 0x0F then
    decodeCoilsRequest (rdbe16 pdu 1).toNat (rdbe16 pdu 3).toNat (pdu.drop 5)
  else if byteAt pdu 0 = 0x10 then
    decodeRegsRequest (rdbe16 pdu 1).toNat (rdbe16 pdu 3).toNat (pdu.drop 5)
  else if pdu.length ≠ 5 then .error .badLength
  else decodeFixedRequest (byteAt pdu 0) (rdbe16 pdu 1).toNat (rdbe16 pdu 3).toNat

/-- The decode row that byte 0 of a response PDU selects; total (R111, R202). -/
def decodeResponsePdu (pdu : Bytes) : Instr :=
  match pdu with
  | [] => .decodeUnimplemented []
  | fc :: rest =>
    if fc.getLsbD 7 then .decodeException (fc.setWidth 7) rest
    else if fc = 0x01 then .decodeBitsReadCoils rest
    else if fc = 0x02 then .decodeBitsReadDiscreteInputs rest
    else if fc = 0x03 then .decodeRegsReadHoldingRegisters rest
    else if fc = 0x04 then .decodeRegsReadInputRegisters rest
    else if fc = 0x05 then .decodeWriteCoilEcho rest
    else if fc = 0x06 then .decodeWriteRegEcho rest
    else if fc = 0x0F then .decodeWriteMultiEchoCoils rest
    else if fc = 0x10 then .decodeWriteMultiEchoRegisters rest
    else .decodeUnimplemented (fc :: rest)

/-- The `tcpWrap` whose result the bytes are (R108, R281). -/
def decodeTcpTransmit (adu : Bytes) : Except DecodeError Instr :=
  if adu.length < 7 then .error .badLength
  else if rdbe16 adu 2 ≠ 0 then .error .badProtocolId
  else if (rdbe16 adu 4).toNat ≠ adu.length - 6 then .error .badLength
  else .ok (.tcpWrap (rdbe16 adu 0) (byteAt adu 6) (adu.drop 7))

/-- The `rtuWrap` whose result the bytes are (R109, R290). -/
def decodeRtuTransmit (adu : Bytes) : Except DecodeError Instr :=
  if adu.length < 3 then .error .badLength
  else if Machine.rtuWrap (byteAt adu 0) (Machine.slice adu 1 (adu.length - 2)) ≠ adu then .error .badCrc
  else .ok (.rtuWrap (byteAt adu 0) (Machine.slice adu 1 (adu.length - 2)))

/-- The row an event is (R46). -/
def decodeEvent (e : Event) : Except DecodeError Instr :=
  match e with
  | .cfgWrite setting => .ok (.cfgWrite setting)
  | .connect tag => .ok (.connect tag)
  | .disconnect tag => .ok (.disconnect tag)
  | .request tag op => .ok (.request tag op)
  | .transportOpened => .ok .transportOpened
  | .transportFailed => .ok .transportFailed
  | .rxChunk bytes => if bytes = [] then .error .emptyChunk else .ok (.rxChunk bytes)
  | .rxGap => .ok .rxGap
  | .tick t => .ok (.tick t)

/-- The decoder: total on every item, rejecting by name. -/
def decode (inp : Input) : Except DecodeError Instr :=
  match inp with
  | .requestPdu pdu => decodeRequestPdu pdu
  | .responsePdu pdu => .ok (decodeResponsePdu pdu)
  | .tcpTransmit adu => decodeTcpTransmit adu
  | .tcpReceive buf => .ok (.tcpTryUnwrap buf)
  | .rtuTransmit adu => decodeRtuTransmit adu
  | .rtuReceive group => if group = [] then .error .emptyGroup else .ok (.rtuTryUnwrap group)
  | .crcInput bytes => .ok (.crc16 bytes)
  | .event e => decodeEvent e

/-- The request PDU of an encode row (R100 to R104). -/
def requestWord (fc : Byte) (payload : Bytes) : Input := .requestPdu (fc :: payload)

/-- The encoder: the bytes or the event of an instruction, from the same tables (R100 to R109, R46). -/
def encode (i : Instr) : Input :=
  match i with
  | .encodeReadCoils a q => requestWord 0x01 (payloadTwoWords (BitVec.ofNat 16 a) (BitVec.ofNat 16 q))
  | .encodeReadDiscreteInputs a q => requestWord 0x02 (payloadTwoWords (BitVec.ofNat 16 a) (BitVec.ofNat 16 q))
  | .encodeReadHoldingRegisters a q => requestWord 0x03 (payloadTwoWords (BitVec.ofNat 16 a) (BitVec.ofNat 16 q))
  | .encodeReadInputRegisters a q => requestWord 0x04 (payloadTwoWords (BitVec.ofNat 16 a) (BitVec.ofNat 16 q))
  | .encodeWriteSingleCoil a v => requestWord 0x05 (payloadTwoWords (BitVec.ofNat 16 a) (coilWord v))
  | .encodeWriteSingleRegister a v => requestWord 0x06 (payloadTwoWords (BitVec.ofNat 16 a) (BitVec.ofNat 16 v))
  | .encodeWriteMultipleCoils a vs => requestWord 0x0F (payloadWriteCoils (BitVec.ofNat 16 a) vs)
  | .encodeWriteMultipleRegisters a vs =>
    requestWord 0x10 (payloadWriteRegs (BitVec.ofNat 16 a) (vs.map (BitVec.ofNat 16)))
  | .decodeBitsReadCoils rest => .responsePdu (0x01 :: rest)
  | .decodeBitsReadDiscreteInputs rest => .responsePdu (0x02 :: rest)
  | .decodeRegsReadHoldingRegisters rest => .responsePdu (0x03 :: rest)
  | .decodeRegsReadInputRegisters rest => .responsePdu (0x04 :: rest)
  | .decodeWriteCoilEcho rest => .responsePdu (0x05 :: rest)
  | .decodeWriteRegEcho rest => .responsePdu (0x06 :: rest)
  | .decodeWriteMultiEchoCoils rest => .responsePdu (0x0F :: rest)
  | .decodeWriteMultiEchoRegisters rest => .responsePdu (0x10 :: rest)
  | .decodeException rfc rest => .responsePdu ((0x80 ||| rfc.setWidth 8) :: rest)
  | .decodeUnimplemented pdu => .responsePdu pdu
  | .tcpWrap tid unitId pdu => .tcpTransmit (Machine.tcpWrap tid unitId pdu)
  | .tcpTryUnwrap buf => .tcpReceive buf
  | .rtuWrap unitId pdu => .rtuTransmit (Machine.rtuWrap unitId pdu)
  | .rtuTryUnwrap g => .rtuReceive g
  | .crc16 s => .crcInput s
  | .cfgWrite setting => .event (.cfgWrite setting)
  | .connect tag => .event (.connect tag)
  | .transportOpened => .event .transportOpened
  | .transportFailed => .event .transportFailed
  | .disconnect tag => .event (.disconnect tag)
  | .request tag op => .event (.request tag op)
  | .rxChunk bytes => .event (.rxChunk bytes)
  | .rxGap => .event .rxGap
  | .tick t => .event (.tick t)

/-- The whole bytes of the first `nbits` bits of `w`, byte 0 in bits 7..0 (the table's numbering). -/
def tableBytes (nbits w : Nat) : Bytes := (List.range (nbits / 8)).map fun j => BitVec.ofNat 8 (w >>> (8 * j))

/-- How many bytes the PDU has that the bytes begin, its missing operand bytes being 0 (R101 to R107). -/
def tablePduLength (bytes : Bytes) : Nat :=
  if byteAt bytes 0 = 0x0F ∨ byteAt bytes 0 = 0x10 then 6 + (byteAt bytes 5).toNat
  else if coreFunctionCodes.contains (byteAt bytes 0) then 5
  else 2

/-- The item a word of the opcode table stands for: a request PDU for the eight codes, a response PDU for the others
(exception and unimplemented). DESIGN CHOICE (log 6): a decode row shares its word with the encode row of its code. -/
def tableInput (nbits w : Nat) : Input :=
  let bytes := tableBytes nbits w
  let pdu := bytes ++ List.replicate (tablePduLength bytes - bytes.length) 0
  if coreFunctionCodes.contains (byteAt bytes 0) then .requestPdu pdu else .responsePdu pdu

/-- The instruction the decoder reads from a word of the opcode table. -/
def decodeTableWord (nbits w : Nat) : Option Instr :=
  match decode (tableInput nbits w) with
  | .ok i => some i
  | .error _ => none

end Sys2Proof
end

