-- ==== Sys2Proof/Machine/State.lean ====
section
/-! DEFINITION. The state of the block (spec/10_state.md), its reset value, and the two kinds of stop. -/

namespace Sys2Proof.Machine

/-- `S.conn`: `Disconnected` = 0, `Connecting` = 1, `Connected` = 2, `Closing` = 3 (R38). -/
inductive ConnState where
  | disconnected
  | connecting
  | connected
  | closing
  deriving DecidableEq, Repr

/-- The configuration registers (R31 to R36). `none` is the spec's own "unset" (R33 to R35). -/
structure Cfg where
  mode : Mode
  endpoint : Endpoint
  unitId : Option Nat
  timeoutS : Option Nat
  retries : Option Nat
  inactS : Nat
  deriving DecidableEq, Repr

/-- A pending entry `P` (R41). -/
structure Pending where
  tag : Tag
  id : U16
  unitId : Byte
  functionCode : Byte
  timeout : Nat
  deadline : Nat
  retriesRemaining : U32
  originalFrame : Bytes
  deriving DecidableEq, Repr

/-- `S.ctr`: unsigned integers of `CTR_W` bits that wrap (R48). -/
structure Counters where
  bytesSent : Counter
  bytesReceived : Counter
  framesSent : Counter
  framesReceived : Counter
  retries : Counter
  deriving DecidableEq, Repr

/-- The outcomes of calls and frames, with what they carry (R420, R421). -/
inductive CallOutcome where
  | ok (data : Option ResponseData)
  | invalidArgument
  | malformedPdu
  | corrupt
  | protocolException (exceptionCode : Byte)
  | timeout
  | busy
  | connectionError
  | aborted
  | invalidState
  deriving DecidableEq, Repr

/-- The output actions (R47). -/
inductive Action where
  | transportOpen (endpoint : Endpoint) (mode : Mode)
  | transportClose
  | transportWrite (bytes : Bytes)
  | connectResult (tag : Tag) (outcome : CallOutcome)
  | disconnectResult (tag : Tag) (outcome : CallOutcome)
  | requestResult (tag : Tag) (outcome : CallOutcome)
  | linkDown (reason : CallOutcome)
  deriving DecidableEq, Repr

/-- What a codec, framer or CRC row presents as its result (R9: pure functions). -/
inductive UnitOut where
  | encoded (r : Encoded)
  | decoded (r : Decoded)
  | frameBytes (bytes : Bytes)
  | unwrapped (r : Unwrapped)
  | crc (c : U16)
  deriving DecidableEq, Repr

/-- The open parameters of R12: fixed for a machine, changed by no event. -/
structure Params where
  tickHz : Nat
  rxBufCap : Nat
  maxPending : Nat
  deriving DecidableEq, Repr

/-- The state of the block: the fields of spec/10_state.md, the open parameters, and the model's own three fields. -/
structure State where
  /-- `TICK_HZ`, `RXBUF_CAP`, `MAX_PENDING` (R12, log 7) -/
  par : Params
  /-- `CFG.*` (R31 to R36) -/
  cfg : Cfg
  /-- `S.conn` (R38) -/
  conn : ConnState
  /-- `S.mode` (R39) -/
  mode : Mode
  /-- `S.pending`, in issue order (R42) -/
  pending : List Pending
  /-- `S.lastTid` (R43) -/
  lastTid : U16
  /-- `S.rxBuf` (R44) -/
  rxBuf : Bytes
  /-- `S.rxOverrun` (R44) -/
  rxOverrun : Bool
  /-- `S.now`, in units of `1/TICK_HZ` second: an unbounded natural (R45, R429) -/
  now : Nat
  /-- `S.lastActivity` (R45) -/
  lastActivity : Nat
  /-- `S.connectTag` (R45) -/
  connectTag : Option Tag
  /-- `S.ctr` (R48) -/
  ctr : Counters
  /-- the model's own: what the environment will deliver, oldest first (log 1) -/
  input : List Input
  /-- the model's own: the actions emitted so far, oldest first (R47, log 2) -/
  out : List Action
  /-- the model's own: the result the last codec, framer or CRC row presented (log 5) -/
  unitOut : Option UnitOut
  deriving DecidableEq, Repr

/-- Why a step stops with a fault. The block itself has no traps (R426): no instruction of the table raises a fault. -/
inductive Fault where
  /-- Raised by `step` alone, when the item at the head of `input` is no instruction: bytes that no encode or wrap rule
  produces (R114), an empty RxChunk (R46) or an empty RTU group (R292). Safe: the interfaces deliver no such item (log 11). -/
  | notAnInstruction (e : DecodeError)
  deriving DecidableEq, Repr

/-- Why an instruction has no meaning. -/
inductive Refusal where
  /-- Raised by a dispatch arm that has no meaning yet; no arm of this model raises it. Safe. -/
  | notModelled (mnemonic : String)
  deriving DecidableEq, Repr

/-- Every counter at 0 (R48, R55). -/
def Counters.zero : Counters :=
  { bytesSent := 0, bytesReceived := 0, framesSent := 0, framesReceived := 0, retries := 0 }

/-- The configuration registers after reset (R55): TCP, unset, watchdog disabled; the endpoint is a free value (log 4). -/
def Cfg.reset : Cfg :=
  { mode := .tcp, endpoint := Config.resetEndpoint, unitId := none, timeoutS := none, retries := none, inactS := 0 }

/-- The open parameters of the machine: constants with no value, inside the ranges of R12 (log 7). -/
def Params.reset : Params :=
  { tickHz := Config.tickHzPred + 1
    rxBufCap := 260 + Config.rxBufCapAbove260
    maxPending := Config.maxPendingPred.val + 1 }

/-- The machine right after reset (R55, R470): reset is the creation of an engine instance and emits no action. -/
def State.reset : State :=
  { par := Params.reset
    cfg := Cfg.reset
    conn := .disconnected
    mode := .tcp
    pending := []
    lastTid := 0
    rxBuf := []
    rxOverrun := false
    now := 0
    lastActivity := 0
    connectTag := none
    ctr := Counters.zero
    input := []
    out := []
    unitOut := none }

end Sys2Proof.Machine
end

