-- ==== Sys2Proof/Machine/Flags.lean ====
section
/-! DEFINITION. The block has no condition codes (spec/10_state.md R50). What stands in their place: the counters and the
activity time (R48, R390), the codes of states and outcomes (R38, R420, R422), and the status port (R49). -/

namespace Sys2Proof.Machine

/-- *count the transmit*: `bytesSent`, `framesSent`, and the activity time (R390). -/
def countTransmit (frame : Bytes) (s : State) : State :=
  { s with
    ctr := { s.ctr with bytesSent := s.ctr.bytesSent + BitVec.ofNat 64 frame.length
                        framesSent := s.ctr.framesSent + 1 }
    lastActivity := s.now }

/-- `retries += 1` on each retransmission (R390, R381). -/
def countRetry (s : State) : State := { s with ctr := { s.ctr with retries := s.ctr.retries + 1 } }

/-- *count the receive*: `bytesReceived` and the activity time (R390). -/
def countReceive (bytes : Bytes) (s : State) : State :=
  { s with
    ctr := { s.ctr with bytesReceived := s.ctr.bytesReceived + BitVec.ofNat 64 bytes.length }
    lastActivity := s.now }

/-- *count the frame*: `framesReceived` (R390). -/
def countFrame (s : State) : State := { s with ctr := { s.ctr with framesReceived := s.ctr.framesReceived + 1 } }

/-- The encoding of `CFG.MODE` and `S.mode` (R31). -/
def modeCode : Mode → Nat
  | .tcp => 0
  | .rtu => 1

/-- The encoding of `S.conn` (R38). -/
def connCode : ConnState → Nat
  | .disconnected => 0
  | .connecting => 1
  | .connected => 2
  | .closing => 3

/-- The outcome codes (R420). -/
def outcomeCode : CallOutcome → Nat
  | .ok _ => 0
  | .invalidArgument => 1
  | .malformedPdu => 2
  | .corrupt => 3
  | .protocolException _ => 4
  | .timeout => 5
  | .busy => 6
  | .connectionError => 7
  | .aborted => 8
  | .invalidState => 9

/-- The exception codes that have a name (R422, R114). -/
inductive ExceptionName where
  | illegalFunction
  | illegalDataAddress
  | illegalDataValue
  | slaveDeviceFailure
  | acknowledge
  | slaveDeviceBusy
  | memoryParityError
  deriving DecidableEq, Repr

/-- The name of an exception code; every other value is carried unchanged and unnamed (R422). -/
def exceptionName (code : Byte) : Option ExceptionName :=
  if code = 0x01 then some .illegalFunction
  else if code = 0x02 then some .illegalDataAddress
  else if code = 0x03 then some .illegalDataValue
  else if code = 0x04 then some .slaveDeviceFailure
  else if code = 0x05 then some .acknowledge
  else if code = 0x06 then some .slaveDeviceBusy
  else if code = 0x08 then some .memoryParityError
  else none

/-- What the host reads at the status port, between events (R49). -/
structure StatusPort where
  conn : ConnState
  mode : Mode
  cfg : Cfg
  ctr : Counters
  pendingCount : Nat
  now : Nat
  deriving DecidableEq, Repr

/-- The status port: a function of the state, so a read has no side effect (R49, R79). -/
def statusPort (s : State) : StatusPort :=
  { conn := s.conn, mode := s.mode, cfg := s.cfg, ctr := s.ctr, pendingCount := s.pending.length, now := s.now }

end Sys2Proof.Machine
end

