-- ==== Sys2Proof/Machine/Ops.lean ====
section
/-! DEFINITION. The named operations over the state: actions (spec/10_state.md R47), the reassembly buffer (spec/20_memory.md
R71), the pending table (R42, R70), the link (spec/44_transaction_engine.md R341), and taking the next input (R40). The block
has no memory and no exception entry (R70, R426): reporting a failure is emitting a result. -/

namespace Sys2Proof.Machine

/-- `emit A` (R17, R47). -/
def emit (a : Action) (s : State) : State := { s with out := s.out ++ [a] }

/-- A unit presents its result (R9; DESIGN CHOICE, log 5). -/
def present (r : UnitOut) (s : State) : State := { s with unitOut := some r }

/-- The one way a failure is reported: the result of the call it concerns, and nothing else (R426). -/
def refuseRequest (tag : Tag) (o : CallOutcome) (s : State) : State := emit (.requestResult tag o) s

/-- `BufAppend(b)` (R71). -/
def bufAppend (b : Byte) (s : State) : State := { s with rxBuf := s.rxBuf ++ [b] }

/-- `BufDrop(n)` (R71). -/
def bufDrop (n : Nat) (s : State) : State := { s with rxBuf := s.rxBuf.drop n }

/-- `BufClear` (R71). -/
def bufClear (s : State) : State := { s with rxBuf := [] }

/-- `S.rxOverrun <- v` (R44). -/
def setOverrun (v : Bool) (s : State) : State := { s with rxOverrun := v }

/-- `dropLink()`: `BufClear; S.rxOverrun <- 0` (R341). -/
def dropLink (s : State) : State := setOverrun false (bufClear s)

/-- `S.conn <- c` (R38). -/
def setConn (c : ConnState) (s : State) : State := { s with conn := c }

/-- `failAll(o)`: one result for each entry in issue order, then the table is empty (R341). -/
def failAll (o : CallOutcome) (s : State) : State :=
  { s with out := s.out ++ s.pending.map (fun p => .requestResult p.tag o), pending := [] }

/-- `emit ConnectResult(S.connectTag, o); S.connectTag <- none` (R347, R349, R350). With no tag waiting, which no event
leaves while Connecting (R351), there is no call to report to (DESIGN CHOICE, log 10). -/
def answerConnect (o : CallOutcome) (s : State) : State :=
  match s.connectTag with
  | some tag => { s with out := s.out ++ [.connectResult tag o], connectTag := none }
  | none => s

/-- Insertion at the end of the table (R357). -/
def pendingAdd (p : Pending) (s : State) : State := { s with pending := s.pending ++ [p] }

/-- Removal of the first entry that meets `test` (R364). -/
def pendingRemove (test : Pending → Bool) (s : State) : State := { s with pending := s.pending.eraseP test }

/-- The next input and the state without it: what a program counter's fetch is here (R40). -/
def fetch (s : State) : Option (Input × State) :=
  match s.input with
  | [] => none
  | inp :: rest => some (inp, { s with input := rest })

end Sys2Proof.Machine
end

