-- ==== Sys2Proof/Machine/Connection.lean ====
section
/-! DEFINITION. Configuration and the connection state machine (spec/44_transaction_engine.md R342 to R350). -/

namespace Sys2Proof.Machine

/-- `CFG.field <- value` (R342). -/
def writeCfg (setting : CfgSetting) (c : Cfg) : Cfg :=
  match setting with
  | .mode m => { c with mode := m }
  | .endpoint e => { c with endpoint := e }
  | .unitId n => { c with unitId := some n }
  | .timeoutS n => { c with timeoutS := some n }
  | .retries n => { c with retries := some n }
  | .inactS n => { c with inactS := n }

/-- CfgWrite (R342): never refused. -/
def execCfgWrite (setting : CfgSetting) (s : State) : Host.Outcome State Fault Refusal :=
  .next { s with cfg := writeCfg setting s.cfg }

/-- Connect (R345). -/
def execConnect (tag : Tag) (s : State) : Host.Outcome State Fault Refusal :=
  if s.conn ≠ .disconnected then .next (emit (.connectResult tag .invalidState) s)
  else .next (emit (.transportOpen s.cfg.endpoint s.cfg.mode)
    { dropLink { s with mode := s.cfg.mode } with conn := .connecting, connectTag := some tag })

/-- TransportOpened (R347). -/
def execTransportOpened (s : State) : Host.Outcome State Fault Refusal :=
  if s.conn = .connecting then
    .next (answerConnect (.ok none) { s with conn := .connected, lastActivity := s.now })
  else .next (emit .transportClose s)

/-- TransportFailed (R349). `Closing` is left by no event (R38), and the rule lists no case for it: nothing happens
(DESIGN CHOICE, log 9). -/
def execTransportFailed (s : State) : Host.Outcome State Fault Refusal :=
  match s.conn with
  | .connecting => .next (answerConnect .connectionError (dropLink (setConn .disconnected s)))
  | .connected =>
    .next (emit (.linkDown .connectionError) (emit .transportClose
      (dropLink (setConn .disconnected (failAll .aborted s)))))
  | .disconnected => .next s
  | .closing => .next s

/-- The close that `Disconnect` emits unless the link was already down (R350). -/
def closeUnless (prev : ConnState) (s : State) : State :=
  if prev ≠ .disconnected then emit .transportClose s else s

/-- The answer to a waiting `Connect` that `Disconnect` gives (R350). -/
def abortConnect (prev : ConnState) (s : State) : State :=
  if prev = .connecting then answerConnect .aborted s else s

/-- Disconnect (R350): passes through `Closing`, always ends in `Disconnected`. -/
def execDisconnect (tag : Tag) (s : State) : Host.Outcome State Fault Refusal :=
  .next (emit (.disconnectResult tag (.ok none)) (setConn .disconnected (closeUnless s.conn (abortConnect s.conn
    (dropLink (failAll .aborted (setConn .closing s)))))))

end Sys2Proof.Machine
end

