-- ==== Sys2Proof/Machine/DecodeRows.lean ====
section
/-! DEFINITION. The ten decode rows (spec/41_pdu_decode.md): each presents what the decoder makes of its PDU. -/

namespace Sys2Proof.Machine

/-- decodeBits.ReadCoils (R210). -/
def execDecodeBitsReadCoils (rest : Bytes) (s : State) : Host.Outcome State Fault Refusal :=
  .next (present (.decoded (decodeBits 0x01 (0x01 :: rest))) s)

/-- decodeBits.ReadDiscreteInputs (R211). -/
def execDecodeBitsReadDiscreteInputs (rest : Bytes) (s : State) : Host.Outcome State Fault Refusal :=
  .next (present (.decoded (decodeBits 0x02 (0x02 :: rest))) s)

/-- decodeRegs.ReadHoldingRegisters (R215). -/
def execDecodeRegsReadHoldingRegisters (rest : Bytes) (s : State) : Host.Outcome State Fault Refusal :=
  .next (present (.decoded (decodeRegs 0x03 (0x03 :: rest))) s)

/-- decodeRegs.ReadInputRegisters (R216). -/
def execDecodeRegsReadInputRegisters (rest : Bytes) (s : State) : Host.Outcome State Fault Refusal :=
  .next (present (.decoded (decodeRegs 0x04 (0x04 :: rest))) s)

/-- decodeWriteCoilEcho (R220). -/
def execDecodeWriteCoilEcho (rest : Bytes) (s : State) : Host.Outcome State Fault Refusal :=
  .next (present (.decoded (decodeWriteCoilEcho (0x05 :: rest))) s)

/-- decodeWriteRegEcho (R221). -/
def execDecodeWriteRegEcho (rest : Bytes) (s : State) : Host.Outcome State Fault Refusal :=
  .next (present (.decoded (decodeWriteRegEcho (0x06 :: rest))) s)

/-- decodeWriteMultiEcho.Coils (R222). -/
def execDecodeWriteMultiEchoCoils (rest : Bytes) (s : State) : Host.Outcome State Fault Refusal :=
  .next (present (.decoded (decodeWriteMultiEcho 0x0F (0x0F :: rest))) s)

/-- decodeWriteMultiEcho.Registers (R223). -/
def execDecodeWriteMultiEchoRegisters (rest : Bytes) (s : State) : Host.Outcome State Fault Refusal :=
  .next (present (.decoded (decodeWriteMultiEcho 0x10 (0x10 :: rest))) s)

/-- decodeException (R203). -/
def execDecodeException (requestFunctionCode : BitVec 7) (rest : Bytes) (s : State) :
    Host.Outcome State Fault Refusal :=
  .next (present (.decoded (decodeException ((0x80 ||| requestFunctionCode.setWidth 8) :: rest))) s)

/-- decodeUnimplemented (R114). -/
def execDecodeUnimplemented (pdu : Bytes) (s : State) : Host.Outcome State Fault Refusal :=
  .next (present (.decoded (decodeUnimplemented pdu)) s)

end Sys2Proof.Machine
end

