-- ==== Sys2Proof/Machine/EncodeRows.lean ====
section
/-! DEFINITION. The eight encode rows (spec/40_pdu_encode.md): each presents the result of its pure function. -/

namespace Sys2Proof.Machine

/-- encodeReadCoils (R152). -/
def execEncodeReadCoils (startAddress quantity : Nat) (s : State) : Host.Outcome State Fault Refusal :=
  .next (present (.encoded (encodeReadCoils startAddress quantity)) s)

/-- encodeReadDiscreteInputs (R153). -/
def execEncodeReadDiscreteInputs (startAddress quantity : Nat) (s : State) : Host.Outcome State Fault Refusal :=
  .next (present (.encoded (encodeReadDiscreteInputs startAddress quantity)) s)

/-- encodeReadHoldingRegisters (R154). -/
def execEncodeReadHoldingRegisters (startAddress quantity : Nat) (s : State) : Host.Outcome State Fault Refusal :=
  .next (present (.encoded (encodeReadHoldingRegisters startAddress quantity)) s)

/-- encodeReadInputRegisters (R155). -/
def execEncodeReadInputRegisters (startAddress quantity : Nat) (s : State) : Host.Outcome State Fault Refusal :=
  .next (present (.encoded (encodeReadInputRegisters startAddress quantity)) s)

/-- encodeWriteSingleCoil (R160). -/
def execEncodeWriteSingleCoil (address : Nat) (value : Bool) (s : State) : Host.Outcome State Fault Refusal :=
  .next (present (.encoded (encodeWriteSingleCoil address value)) s)

/-- encodeWriteSingleRegister (R161). -/
def execEncodeWriteSingleRegister (address value : Nat) (s : State) : Host.Outcome State Fault Refusal :=
  .next (present (.encoded (encodeWriteSingleRegister address value)) s)

/-- encodeWriteMultipleCoils (R170). -/
def execEncodeWriteMultipleCoils (startAddress : Nat) (values : List Bool) (s : State) :
    Host.Outcome State Fault Refusal :=
  .next (present (.encoded (encodeWriteMultipleCoils startAddress values)) s)

/-- encodeWriteMultipleRegisters (R175). -/
def execEncodeWriteMultipleRegisters (startAddress : Nat) (values : List Nat) (s : State) :
    Host.Outcome State Fault Refusal :=
  .next (present (.encoded (encodeWriteMultipleRegisters startAddress values)) s)

end Sys2Proof.Machine
end

