-- ==== Sys2Proof/Machine/FramerRows.lean ====
section
/-! DEFINITION. The four framer rows (spec/43_adu_framer.md) and the CRC row (spec/42_crc16.md). -/

namespace Sys2Proof.Machine

/-- tcpWrap (R281). -/
def execTcpWrap (transactionId : U16) (unitId : Byte) (pdu : Bytes) (s : State) : Host.Outcome State Fault Refusal :=
  .next (present (.frameBytes (tcpWrap transactionId unitId pdu)) s)

/-- tcpTryUnwrap (R282). -/
def execTcpTryUnwrap (buf : Bytes) (s : State) : Host.Outcome State Fault Refusal :=
  .next (present (.unwrapped (tcpTryUnwrap buf)) s)

/-- rtuWrap (R290). -/
def execRtuWrap (unitId : Byte) (pdu : Bytes) (s : State) : Host.Outcome State Fault Refusal :=
  .next (present (.frameBytes (rtuWrap unitId pdu)) s)

/-- rtuTryUnwrap (R292). -/
def execRtuTryUnwrap (g : Bytes) (s : State) : Host.Outcome State Fault Refusal :=
  .next (present (.unwrapped (rtuTryUnwrap g)) s)

/-- crc16 (R252). -/
def execCrc16 (bytes : Bytes) (s : State) : Host.Outcome State Fault Refusal :=
  .next (present (.crc (crcOf bytes)) s)

end Sys2Proof.Machine
end

