-- ==== Sys2Proof/Machine/Receive.lean ====
section
/-! DEFINITION. Receiving: frames and their match (spec/44_transaction_engine.md R360 to R366), the per-byte receive
procedures and the RTU gap (spec/43_adu_framer.md R300 to R310). -/

namespace Sys2Proof.Machine

/-- The entry a frame matches: by transaction id and unit id in TCP mode (R362), by unit id alone in RTU mode (R363). -/
def matchesFrame (mode : Mode) (f : Frame) (p : Pending) : Bool :=
  match mode with
  | .tcp => decide (some p.id = f.transactionId) && decide (p.unitId = f.unitId)
  | .rtu => decide (p.unitId = f.unitId)

/-- What a decoded PDU resolves an entry of the given function code with; `none` drops the frame and keeps the entry
(R364). -/
def resolution (functionCode : Byte) (d : Decoded) : Option CallOutcome :=
  match d with
  | .malformedPdu => none
  | .response fc data => if fc = functionCode then some (.ok (some data)) else none
  | .protocolException rfc _ ec => if rfc = functionCode then some (.protocolException ec) else none

/-- A frame and the entry it matched (R364). -/
def resolveEntry (f : Frame) (p : Pending) (s : State) : State :=
  match resolution p.functionCode (decodePdu f.pdu) with
  | none => s
  | some o => emit (.requestResult p.tag o) (pendingRemove (matchesFrame s.mode f) s)

/-- `engineFrame(f)`: count, match, and resolve or discard (R362, R363, R364, R366). -/
def engineFrame (f : Frame) (s : State) : State :=
  match s.pending.find? (matchesFrame s.mode f) with
  | none => countFrame s
  | some p => resolveEntry f p (countFrame s)

/-- `extractTcp()`: `tcpTryUnwrap` again and again until `Incomplete` or `Corrupt` (R310). Each frame takes at least eight
bytes off the buffer, so a bound of its length is never the reason to stop (log 14). -/
def extractTcpLoop : Nat → State → State
  | 0, s => s
  | n + 1, s =>
    match tcpTryUnwrap s.rxBuf with
    | .incomplete => s
    | .corrupt k => bufDrop k s
    | .frame f => extractTcpLoop n (engineFrame f (bufDrop f.consumed s))

/-- `extractTcp()` (R310). -/
def extractTcp (s : State) : State := extractTcpLoop (s.rxBuf.length + 1) s

/-- `tcpRxByte(b)` (R305). -/
def tcpRxByte (b : Byte) (s : State) : State := extractTcp (bufAppend b s)

/-- `rtuRxByte(b)` (R302). -/
def rtuRxByte (b : Byte) (s : State) : State :=
  if s.rxBuf.length = s.par.rxBufCap then setOverrun true s else bufAppend b s

/-- One received byte, in the current mode (R360). -/
def rxByte (s : State) (b : Byte) : State :=
  match s.mode with
  | .tcp => tcpRxByte b s
  | .rtu => rtuRxByte b s

/-- RxChunk (R360). -/
def execRxChunk (bytes : Bytes) (s : State) : Host.Outcome State Fault Refusal :=
  if s.conn ≠ .connected then .next s
  else .next (bytes.foldl rxByte (countReceive bytes s))

/-- What the closed group in the buffer is (R300, R302). -/
def gapResult (s : State) : Unwrapped :=
  if s.rxOverrun then .corrupt s.rxBuf.length else rtuTryUnwrap s.rxBuf

/-- RxGap (R300). A `Corrupt` group is dropped (R295). -/
def execRxGap (s : State) : Host.Outcome State Fault Refusal :=
  if s.mode ≠ .rtu ∨ s.conn ≠ .connected then .next s
  else if s.rxBuf = [] ∧ s.rxOverrun = false then .next s
  else match gapResult s with
    | .frame f => .next (engineFrame f (dropLink s))
    | .incomplete => .next (dropLink s)
    | .corrupt _ => .next (dropLink s)

end Sys2Proof.Machine
end

