-- ==== Sys2Proof/Machine/Request.lean ====
section
/-! DEFINITION. The Request event (spec/44_transaction_engine.md R352 to R358), step by step. -/

namespace Sys2Proof.Machine

/-- The configuration a request copies at issue: timeout in seconds, retry count, unit id (R352). -/
structure RequestCfg where
  timeoutS : Nat
  retries : Nat
  unitId : Nat
  deriving DecidableEq, Repr

/-- Step 1, bounds: each register set and in range, or `none` (R352). -/
def requestCfg (c : Cfg) : Option RequestCfg :=
  match c.timeoutS, c.retries, c.unitId with
  | some t, some rc, some u =>
    if t < 1 ∨ 120 < t then none
    else if 10 < rc then none
    else if u < 1 ∨ 255 < u then none
    else some { timeoutS := t, retries := rc, unitId := u }
  | _, _, _ => none

/-- `cand = (S.lastTid + 1) mod 0xFFFF` (R355). -/
def candidateTid (s : State) : U16 := BitVec.ofNat 16 ((s.lastTid.toNat + 1) % 0xFFFF)

/-- Step 2c, TCP: the id and the state with it allocated, or `none` for `Busy` (R355). -/
def allocateTcp (s : State) : Option (U16 × State) :=
  if s.pending.any (fun p => p.id = candidateTid s) then none
  else if s.pending.length = s.par.maxPending then none
  else some (candidateTid s, { s with lastTid := candidateTid s })

/-- Step 2c, RTU: the single slot, or `none` for `Busy` (R356). -/
def allocateRtu (s : State) : Option (U16 × State) :=
  if s.pending ≠ [] then none else some (0, s)

/-- Step 2c (R355, R356). -/
def allocate (s : State) : Option (U16 × State) :=
  match s.mode with
  | .tcp => allocateTcp s
  | .rtu => allocateRtu s

/-- The frame of a request (R357): `tcpWrap(id, u, pdu)` or `rtuWrap(u, pdu)`. -/
def wrapRequest (mode : Mode) (id : U16) (unitId : Byte) (pdu : Bytes) : Bytes :=
  match mode with
  | .tcp => tcpWrap id unitId pdu
  | .rtu => rtuWrap unitId pdu

/-- The entry step 3 registers (R357). The unit id is in [1,255] and the retry count at most 10, so u8 and u32 hold them
(R10, R352; log 13). -/
def newPending (tag : Tag) (c : RequestCfg) (id : U16) (r : RequestPdu) (s : State) : Pending :=
  { tag := tag
    id := id
    unitId := BitVec.ofNat 8 c.unitId
    functionCode := r.functionCode
    timeout := c.timeoutS * s.par.tickHz
    deadline := s.now + c.timeoutS * s.par.tickHz
    retriesRemaining := BitVec.ofNat 32 c.retries
    originalFrame := wrapRequest s.mode id (BitVec.ofNat 8 c.unitId) r.bytes }

/-- Step 3, transmit and register (R357). -/
def transmitAndRegister (tag : Tag) (c : RequestCfg) (id : U16) (r : RequestPdu) (s : State) : State :=
  let p := newPending tag c id r s
  pendingAdd p (countTransmit p.originalFrame (emit (.transportWrite p.originalFrame) s))

/-- Request (R358): the first failing step reports its outcome and ends the event with no other effect (R425). -/
def execRequest (tag : Tag) (op : Op) (s : State) : Host.Outcome State Fault Refusal :=
  match requestCfg s.cfg with
  | none => .next (refuseRequest tag .invalidArgument s)
  | some c =>
    match encodeOp op with
    | .invalidArgument _ => .next (refuseRequest tag .invalidArgument s)
    | .ok r =>
      if s.conn ≠ .connected then .next (refuseRequest tag .invalidState s)
      else match allocate s with
        | none => .next (refuseRequest tag .busy s)
        | some (id, s1) => .next (transmitAndRegister tag c id r s1)

end Sys2Proof.Machine
end

