-- ==== Sys2Proof/Machine/Timer.lean ====
section
/-! DEFINITION. Time, timeout, retry and the inactivity watchdog (spec/44_transaction_engine.md R380 to R383). -/

namespace Sys2Proof.Machine

/-- The entry after a retransmission: one retry fewer, the deadline reset (R381). -/
def retried (now : Nat) (p : Pending) : Pending :=
  { p with retriesRemaining := p.retriesRemaining - 1, deadline := now + p.timeout }

/-- What `retransmit(P)` does to the rest of the state (R381). -/
def retransmit (p : Pending) (s : State) : State :=
  countTransmit p.originalFrame (emit (.transportWrite p.originalFrame) (countRetry s))

/-- One entry examined at most once in a `Tick`: the state, and the entry if it stays in the table (R380, R381, R382). -/
def examine (p : Pending) (s : State) : State × Option Pending :=
  if p.deadline ≤ s.now then
    if 0 < p.retriesRemaining.toNat then (retransmit p s, some (retried s.now p))
    else (emit (.requestResult p.tag .timeout) s, none)
  else (s, some p)

/-- The entries in issue order, each as the table stood at the start (R380). -/
def examineAll : List Pending → State → State × List Pending
  | [], s => (s, [])
  | p :: rest, s =>
    let (s1, kept) := examine p s
    let (s2, others) := examineAll rest s1
    (s2, kept.toList ++ others)

/-- The deadline step of a `Tick` (R380). -/
def runDeadlines (s : State) : State :=
  let (s1, table) := examineAll s.pending s
  { s1 with pending := table }

/-- The watchdog's condition (R383). -/
def watchdogDue (s : State) : Bool :=
  decide (s.conn = .connected) && decide (0 < s.cfg.inactS)
    && decide (s.lastActivity + s.cfg.inactS * s.par.tickHz ≤ s.now)

/-- `watchdog()` (R383). -/
def watchdog (s : State) : State :=
  if watchdogDue s then
    emit (.linkDown .timeout) (emit .transportClose (dropLink (setConn .disconnected (failAll .aborted s))))
  else s

/-- Tick (R380): time, then deadlines in issue order, then the watchdog (R425). -/
def execTick (t : Nat) (s : State) : Host.Outcome State Fault Refusal :=
  .next (watchdog (runDeadlines { s with now := max s.now t }))

end Sys2Proof.Machine
end

