-- ==== Sys2Proof/Machine/Dispatch.lean ====
section
/-! DEFINITION. The dispatch: one arm per row of spec/opcode_table.json. -/

namespace Sys2Proof.Machine

def exec (i : Instr) (s : State) : Host.Outcome State Fault Refusal :=
  match i with
  | .encodeReadCoils a q => Sys2Proof.Machine.execEncodeReadCoils a q s
  | .encodeReadDiscreteInputs a q => Sys2Proof.Machine.execEncodeReadDiscreteInputs a q s
  | .encodeReadHoldingRegisters a q => Sys2Proof.Machine.execEncodeReadHoldingRegisters a q s
  | .encodeReadInputRegisters a q => Sys2Proof.Machine.execEncodeReadInputRegisters a q s
  | .encodeWriteSingleCoil a v => Sys2Proof.Machine.execEncodeWriteSingleCoil a v s
  | .encodeWriteSingleRegister a v => Sys2Proof.Machine.execEncodeWriteSingleRegister a v s
  | .encodeWriteMultipleCoils a vs => Sys2Proof.Machine.execEncodeWriteMultipleCoils a vs s
  | .encodeWriteMultipleRegisters a vs => Sys2Proof.Machine.execEncodeWriteMultipleRegisters a vs s
  | .decodeBitsReadCoils rest => Sys2Proof.Machine.execDecodeBitsReadCoils rest s
  | .decodeBitsReadDiscreteInputs rest => Sys2Proof.Machine.execDecodeBitsReadDiscreteInputs rest s
  | .decodeRegsReadHoldingRegisters rest => Sys2Proof.Machine.execDecodeRegsReadHoldingRegisters rest s
  | .decodeRegsReadInputRegisters rest => Sys2Proof.Machine.execDecodeRegsReadInputRegisters rest s
  | .decodeWriteCoilEcho rest => Sys2Proof.Machine.execDecodeWriteCoilEcho rest s
  | .decodeWriteRegEcho rest => Sys2Proof.Machine.execDecodeWriteRegEcho rest s
  | .decodeWriteMultiEchoCoils rest => Sys2Proof.Machine.execDecodeWriteMultiEchoCoils rest s
  | .decodeWriteMultiEchoRegisters rest => Sys2Proof.Machine.execDecodeWriteMultiEchoRegisters rest s
  | .decodeException rfc rest => Sys2Proof.Machine.execDecodeException rfc rest s
  | .decodeUnimplemented pdu => Sys2Proof.Machine.execDecodeUnimplemented pdu s
  | .tcpWrap tid u pdu => Sys2Proof.Machine.execTcpWrap tid u pdu s
  | .tcpTryUnwrap buf => Sys2Proof.Machine.execTcpTryUnwrap buf s
  | .rtuWrap u pdu => Sys2Proof.Machine.execRtuWrap u pdu s
  | .rtuTryUnwrap g => Sys2Proof.Machine.execRtuTryUnwrap g s
  | .crc16 bytes => Sys2Proof.Machine.execCrc16 bytes s
  | .cfgWrite setting => Sys2Proof.Machine.execCfgWrite setting s
  | .connect tag => Sys2Proof.Machine.execConnect tag s
  | .transportOpened => Sys2Proof.Machine.execTransportOpened s
  | .transportFailed => Sys2Proof.Machine.execTransportFailed s
  | .disconnect tag => Sys2Proof.Machine.execDisconnect tag s
  | .request tag op => Sys2Proof.Machine.execRequest tag op s
  | .rxChunk bytes => Sys2Proof.Machine.execRxChunk bytes s
  | .rxGap => Sys2Proof.Machine.execRxGap s
  | .tick t => Sys2Proof.Machine.execTick t s

end Sys2Proof.Machine
end

