-- ==== Sys2Proof/Machine/Step.lean ====
section
/-! DEFINITION. One step: take the next input, decode it, run it (spec/00_scope.md R8, spec/10_state.md R40). -/

namespace Sys2Proof.Machine

/-- With no input the block waits and holds its state (R433, R471). Otherwise the oldest item is taken and run to
completion; an item that is no instruction stops the machine by name (log 1, log 11). -/
def step (s : State) : Host.Outcome State Fault Refusal :=
  match fetch s with
  | none => .next s
  | some (inp, s1) =>
    match decode inp with
    | .ok i => exec i s1
    | .error e => .fault (.notAnInstruction e)

/-- The state in which the item that a word of the opcode table stands for is delivered next. -/
def State.withFetchWord (s : State) (nbits w : Nat) : State := { s with input := tableInput nbits w :: s.input }

end Sys2Proof.Machine
end

