-- ==== Sys2Proof/Safety.lean ====
section
/-! DEFINITION. The terms claims about runs are made in: the invariant of the block, what a run of instructions is, and
what is counted in the actions it emits. -/

namespace Sys2Proof.Machine

/-- The open parameters lie in the ranges of R12. -/
def Params.wf (p : Params) : Prop := 0 < p.tickHz ∧ 260 ≤ p.rxBufCap ∧ 1 ≤ p.maxPending ∧ p.maxPending ≤ 65535

/-- What holds of an entry of the pending table at the end of every event, in a state with the given parameters, mode and
time: a legal unit id (R352, R487), one of the eight codes (R4), at most ten retries left (R352), a timeout of 1 to 120
seconds (R352, R357), a deadline still ahead and no further than one timeout away (R380, R381), the id of its mode (R41,
R355), and the frame its fields wrap (R357, R381: retransmitted unchanged). -/
structure Pending.Ok (par : Params) (mode : Mode) (now : Nat) (p : Pending) : Prop where
  unitId : p.unitId ≠ 0
  functionCode : p.functionCode ∈ coreFunctionCodes
  retries : p.retriesRemaining.toNat ≤ 10
  timeoutLow : par.tickHz ≤ p.timeout
  timeoutHigh : p.timeout ≤ 120 * par.tickHz
  ahead : now < p.deadline
  near : p.deadline ≤ now + p.timeout
  tcpId : mode = .tcp → p.id ≠ 0xFFFF
  rtuId : mode = .rtu → p.id = 0
  frame : ∃ payload, p.originalFrame = wrapRequest mode p.id p.unitId (p.functionCode :: payload)

/-- The invariant of the block at the end of every event. -/
structure State.Inv (s : State) : Prop where
  /-- R12 -/
  params : s.par.wf
  /-- no event ends in `Closing` (R38) -/
  notClosing : s.conn ≠ .closing
  /-- `S.pending ≠ []` implies `S.conn = Connected` (R351) -/
  pendingConnected : s.pending ≠ [] → s.conn = .connected
  /-- `S.connectTag ≠ none` exactly when `S.conn = Connecting` (R351) -/
  connectTag : s.connectTag.isSome = true ↔ s.conn = .connecting
  /-- received bytes are held only while connected (R341, R345, R349, R350, R383) -/
  bufferConnected : s.conn ≠ .connected → s.rxBuf = [] ∧ s.rxOverrun = false
  /-- capacity and distinct ids in TCP mode (R42, R355) -/
  tcpTable : s.mode = .tcp → s.pending.length ≤ s.par.maxPending ∧ (s.pending.map Pending.id).Nodup
  /-- the single slot in RTU mode (R42, R356) -/
  rtuTable : s.mode = .rtu → s.pending.length ≤ 1
  /-- every entry is as its rules leave it -/
  entries : ∀ p ∈ s.pending, p.Ok s.par s.mode s.now
  /-- `S.lastTid` is in [0, 0xFFFE] (R43) -/
  lastTid : s.lastTid ≠ 0xFFFF
  /-- `S.rxBuf` has at most `RXBUF_CAP` bytes (R44) -/
  bufferCap : s.rxBuf.length ≤ s.par.rxBufCap
  /-- in TCP mode no complete frame and no corrupt header waits in the buffer (R310, R311) -/
  bufferTcp : s.mode = .tcp → tcpTryUnwrap s.rxBuf = .incomplete ∧ s.rxOverrun = false
  /-- activity is never later than the present (R45, R390) -/
  activity : s.lastActivity ≤ s.now

/-- A run of instructions, each to completion (R8), stopping at the first that does not answer a next state. -/
def execAll : List Instr → State → Host.Outcome State Fault Refusal
  | [], s => .next s
  | i :: rest, s =>
    match exec i s with
    | .next t => execAll rest t
    | .fault r => .fault r
    | .refused r => .refused r

/-- The rows that are pure units: codec, framer and CRC (R9). -/
def isUnitRow : Instr → Bool
  | .cfgWrite _ | .connect _ | .transportOpened | .transportFailed | .disconnect _ | .request _ _ | .rxChunk _ | .rxGap
  | .tick _ => false
  | .encodeReadCoils _ _ | .encodeReadDiscreteInputs _ _ | .encodeReadHoldingRegisters _ _
  | .encodeReadInputRegisters _ _ | .encodeWriteSingleCoil _ _ | .encodeWriteSingleRegister _ _
  | .encodeWriteMultipleCoils _ _ | .encodeWriteMultipleRegisters _ _ | .decodeBitsReadCoils _
  | .decodeBitsReadDiscreteInputs _ | .decodeRegsReadHoldingRegisters _ | .decodeRegsReadInputRegisters _
  | .decodeWriteCoilEcho _ | .decodeWriteRegEcho _ | .decodeWriteMultiEchoCoils _ | .decodeWriteMultiEchoRegisters _
  | .decodeException _ _ | .decodeUnimplemented _ | .tcpWrap _ _ _ | .tcpTryUnwrap _ | .rtuWrap _ _ | .rtuTryUnwrap _
  | .crc16 _ => true

/-- The action is a result of the request with this tag. -/
def isResultOf (tag : Tag) : Action → Bool
  | .requestResult t _ => decide (t = tag)
  | _ => false

/-- The frame an action puts on the wire. -/
def writtenFrame : Action → Option Bytes
  | .transportWrite frame => some frame
  | _ => none

/-- The outcome an action reports. -/
def reportedOutcome : Action → Option CallOutcome
  | .connectResult _ o | .disconnectResult _ o | .requestResult _ o | .linkDown o => some o
  | .transportOpen _ _ | .transportClose | .transportWrite _ => none

/-- The instruction is the request with this tag. -/
def isRequestOf (tag : Tag) : Instr → Bool
  | .request t _ => decide (t = tag)
  | _ => false

/-- Every header of a TCP byte stream passes R285, as far as the stream goes; `n` bounds the number of frames. -/
def streamClean : Nat → Bytes → Bool
  | 0, _ => true
  | n + 1, stream =>
    match tcpTryUnwrap stream with
    | .incomplete => true
    | .corrupt _ => false
    | .frame f => streamClean n (stream.drop f.consumed)

/-- The source's receive procedure: append the whole chunk, then extract until `Incomplete` (R313). -/
def receiveWholeChunk (bytes : Bytes) (s : State) : State := extractTcp { s with rxBuf := s.rxBuf ++ bytes }

/-- The high byte of a u16 held in a natural: `v[15:8]` (R16). -/
def hiByte (n : Nat) : Byte := BitVec.ofNat 8 (n / 256)

/-- The low byte of a u16 held in a natural: `v[7:0]` (R16). -/
def loByte (n : Nat) : Byte := BitVec.ofNat 8 (n % 256)

/-- The row completes by presenting `r`, and nothing else of the state changes. -/
def Presents (i : Instr) (s : State) (r : UnitOut) : Prop := exec i s = .next { s with unitOut := some r }

/-- The row completes with `InvalidArgument` and no bytes (R150), whatever the failure carries. -/
def PresentsInvalidArgument (i : Instr) (s : State) : Prop :=
  ∃ info, Presents i s (.encoded (.invalidArgument info))

/-- The registers a request reads are set and in range: timeout, retries, unit id (R352). -/
def Cfg.Usable (c : Cfg) (timeoutS retries unitId : Nat) : Prop :=
  c.timeoutS = some timeoutS ∧ 1 ≤ timeoutS ∧ timeoutS ≤ 120 ∧
  c.retries = some retries ∧ retries ≤ 10 ∧
  c.unitId = some unitId ∧ 1 ≤ unitId ∧ unitId ≤ 255

/-- A decoded PDU is the answer `o` to a request with this function code: its response, or its exception response (R364). -/
def Answers (d : Decoded) (functionCode : Byte) (o : CallOutcome) : Prop :=
  (∃ data, d = .response functionCode data ∧ o = .ok (some data)) ∨
  (∃ efc ec, d = .protocolException functionCode efc ec ∧ o = .protocolException ec)

/-- A decoded PDU answers no request with this function code: it is dropped and the entry stays (R364). -/
def AnswersNot (d : Decoded) (functionCode : Byte) : Prop :=
  d = .malformedPdu ∨ (∃ fc data, d = .response fc data ∧ fc ≠ functionCode) ∨
  (∃ rfc efc ec, d = .protocolException rfc efc ec ∧ rfc ≠ functionCode)

end Sys2Proof.Machine
end

