-- ==== Sys2Proof/Certificates/Slice0/Obligations.lean ====
section
/-! DEFINITION. The statements of the model: what the numbered rules of spec/ say the block does. -/

open Sys2Proof Sys2Proof.Machine

/-! ### Encodings and the step -/

/-- Decoding the encoding of any well-formed instruction gives it back, every operand at every value (spec/30_encoding.md). -/
def Obligations.DecodeEncodeRoundTrip : Prop :=
  ∀ i : Instr, i.wf = true → decode (encode i) = .ok i

/-- Each accepted item stands for one well-formed instruction, whose encoding it is (spec/30_encoding.md). -/
def Obligations.AcceptedInputReencodes : Prop :=
  ∀ (inp : Input) (i : Instr), decode inp = .ok i → i.wf = true ∧ encode i = inp

/-- A few words written out from the spec's encodings and the instructions they stand for (R101 to R109). -/
def Obligations.SpecWordsDecodeAsWritten : Prop :=
  decode (.requestPdu [0x01, 0x00, 0x13, 0x00, 0x25]) = .ok (.encodeReadCoils 0x0013 0x0025) ∧
  decode (.requestPdu [0x05, 0x00, 0xAC, 0xFF, 0x00]) = .ok (.encodeWriteSingleCoil 0x00AC true) ∧
  decode (.requestPdu [0x0F, 0x00, 0x13, 0x00, 0x0A, 0x02, 0xCD, 0x01]) =
    .ok (.encodeWriteMultipleCoils 0x0013 [true, false, true, true, false, false, true, true, true, false]) ∧
  decode (.requestPdu [0x10, 0x00, 0x01, 0x00, 0x02, 0x04, 0x00, 0x0A, 0x01, 0x02]) =
    .ok (.encodeWriteMultipleRegisters 0x0001 [0x000A, 0x0102]) ∧
  decode (.responsePdu [0x83, 0x02]) = .ok (.decodeException 0x03 [0x02]) ∧
  decode (.responsePdu [0x07]) = .ok (.decodeUnimplemented [0x07]) ∧
  decode (.tcpTransmit [0x00, 0x01, 0x00, 0x00, 0x00, 0x06, 0x01, 0x03, 0x00, 0x00, 0x00, 0x02]) =
    .ok (.tcpWrap 0x0001 0x01 [0x03, 0x00, 0x00, 0x00, 0x02]) ∧
  decode (.rtuTransmit [0x01, 0x03, 0x00, 0x00, 0x00, 0x02, 0xC4, 0x0B]) =
    .ok (.rtuWrap 0x01 [0x03, 0x00, 0x00, 0x00, 0x02])

/-- A step runs the instruction that the oldest input decodes to, on the state without that input (the model's choice of
delivery, log 1; R8, R40). -/
def Obligations.StepRunsOldestInput : Prop :=
  ∀ (s : State) (inp : Input) (rest : List Input) (i : Instr),
    s.input = inp :: rest → decode inp = .ok i → step s = exec i { s with input := rest }

/-- With no input a step holds the state; an item that is no instruction stops it by name (the model's choice, log 1 and
log 11; R433, R471). -/
def Obligations.StepWaitsOrNamesTheStop : Prop :=
  (∀ s : State, s.input = [] → step s = .next s) ∧
  ∀ (s : State) (inp : Input) (rest : List Input) (e : DecodeError),
    s.input = inp :: rest → decode inp = .error e → step s = .fault (.notAnInstruction e)

/-! ### PDU encode -/

/-- R152, R153, R154, R155: the request PDU of each read operation for a u16 address, and `InvalidArgument` carrying
the quantity when it is outside its range. The result port is the model's own (log 5). -/
def Obligations.ReadOperationsEncodeByRange : Prop :=
  ∀ (s : State) (a q : Nat), a < 65536 →
    Presents (.encodeReadCoils a q) s (.encoded
      (if 1 ≤ q ∧ q ≤ 2000 then .ok ⟨0x01, [hiByte a, loByte a, hiByte q, loByte q]⟩ else .invalidArgument (some q))) ∧
    Presents (.encodeReadDiscreteInputs a q) s (.encoded
      (if 1 ≤ q ∧ q ≤ 2000 then .ok ⟨0x02, [hiByte a, loByte a, hiByte q, loByte q]⟩ else .invalidArgument (some q))) ∧
    Presents (.encodeReadHoldingRegisters a q) s (.encoded
      (if 1 ≤ q ∧ q ≤ 125 then .ok ⟨0x03, [hiByte a, loByte a, hiByte q, loByte q]⟩ else .invalidArgument (some q))) ∧
    Presents (.encodeReadInputRegisters a q) s (.encoded
      (if 1 ≤ q ∧ q ≤ 125 then .ok ⟨0x04, [hiByte a, loByte a, hiByte q, loByte q]⟩ else .invalidArgument (some q)))

/-- R160, R161: the request PDUs of the two single writes for u16 arguments. The result port is the model's own (log
5). -/
def Obligations.SingleWritesEncode : Prop :=
  ∀ (s : State) (a : Nat), a < 65536 →
    (∀ b : Bool, Presents (.encodeWriteSingleCoil a b) s
      (.encoded (.ok ⟨0x05, [hiByte a, loByte a, if b then 0xFF else 0x00, 0x00]⟩))) ∧
    (∀ v : Nat, v < 65536 → Presents (.encodeWriteSingleRegister a v) s
      (.encoded (.ok ⟨0x06, [hiByte a, loByte a, hiByte v, loByte v]⟩)))

/-- R170, R171: the request PDU of write multiple coils: header, byte count `ceil(n/8)`, value `k` at bit `k mod 8` of
byte `k div 8`, padding 0; `InvalidArgument` carrying `n` outside [1,1968]. The result port is the model's own (log
5). -/
def Obligations.WriteMultipleCoilsEncodes : Prop :=
  ∀ (s : State) (a : Nat) (vs : List Bool), a < 65536 →
    (1 ≤ vs.length ∧ vs.length ≤ 1968 → ∃ data : Bytes,
      Presents (.encodeWriteMultipleCoils a vs) s (.encoded (.ok ⟨0x0F,
        [hiByte a, loByte a, hiByte vs.length, loByte vs.length, BitVec.ofNat 8 ((vs.length + 7) / 8)] ++ data⟩)) ∧
      data.length = (vs.length + 7) / 8 ∧
      ∀ j b : Nat, j < data.length → b < 8 → (data.getD j 0).getLsbD b = vs.getD (8 * j + b) false) ∧
    (vs.length < 1 ∨ 1968 < vs.length →
      Presents (.encodeWriteMultipleCoils a vs) s (.encoded (.invalidArgument (some vs.length))))

/-- R175: the request PDU of write multiple registers: header, byte count `2n`, the values big-endian in order;
`InvalidArgument` carrying `n` outside [1,123]. The result port is the model's own (log 5). -/
def Obligations.WriteMultipleRegistersEncodes : Prop :=
  ∀ (s : State) (a : Nat) (vs : List Nat), a < 65536 → (∀ v ∈ vs, v < 65536) →
    (1 ≤ vs.length ∧ vs.length ≤ 123 →
      Presents (.encodeWriteMultipleRegisters a vs) s (.encoded (.ok ⟨0x10,
        [hiByte a, loByte a, 0x00, BitVec.ofNat 8 vs.length, BitVec.ofNat 8 (2 * vs.length)]
          ++ vs.flatMap fun v => [hiByte v, loByte v]⟩))) ∧
    (vs.length < 1 ∨ 123 < vs.length →
      Presents (.encodeWriteMultipleRegisters a vs) s (.encoded (.invalidArgument (some vs.length))))

/-- R151: an address or a register value outside u16 raises `InvalidArgument` and produces no bytes, whatever the
other arguments are. The result port is the model's own (log 5). -/
def Obligations.ArgumentsOutsideTypeAreRefused : Prop :=
  ∀ (s : State) (a : Nat), 65536 ≤ a →
    (∀ q, PresentsInvalidArgument (.encodeReadCoils a q) s ∧ PresentsInvalidArgument (.encodeReadDiscreteInputs a q) s ∧
      PresentsInvalidArgument (.encodeReadHoldingRegisters a q) s ∧
      PresentsInvalidArgument (.encodeReadInputRegisters a q) s) ∧
    (∀ b, PresentsInvalidArgument (.encodeWriteSingleCoil a b) s) ∧
    (∀ v, PresentsInvalidArgument (.encodeWriteSingleRegister a v) s ∧
      PresentsInvalidArgument (.encodeWriteSingleRegister v a) s) ∧
    (∀ vs, PresentsInvalidArgument (.encodeWriteMultipleCoils a vs) s) ∧
    (∀ vs, PresentsInvalidArgument (.encodeWriteMultipleRegisters a vs) s) ∧
    (∀ b vs, a ∈ vs → PresentsInvalidArgument (.encodeWriteMultipleRegisters b vs) s)

/-- R180 (marked derived by the spec): distinct operations, or distinct arguments of one, give distinct PDUs. -/
def Obligations.DistinctRequestsGiveDistinctPdus : Prop :=
  ∀ (op op' : Op) (r r' : RequestPdu),
    encodeOp op = .ok r → encodeOp op' = .ok r' → r.bytes = r'.bytes → op = op'

/-- R180, R113, R100 (marked derived by the spec): every request PDU has one of the eight codes, bit 7 clear, and 5 to 252
bytes. -/
def Obligations.RequestPdusHaveBoundedShape : Prop :=
  ∀ (op : Op) (r : RequestPdu), encodeOp op = .ok r →
    r.functionCode ∈ coreFunctionCodes ∧ r.functionCode.getLsbD 7 = false ∧
    5 ≤ r.bytes.length ∧ r.bytes.length ≤ 252 ∧
    (∀ a vs, op = .writeMultipleCoils a vs → r.bytes.length = 6 + (vs.length + 7) / 8) ∧
    (∀ a vs, op = .writeMultipleRegisters a vs → r.bytes.length = 6 + 2 * vs.length)

/-! ### PDU decode -/

/-- R202: whatever the response PDU, the row that byte 0 selects presents `decode(pdu)`. The result port is the
model's own (log 5). -/
def Obligations.DecodeRowsPresentDecode : Prop :=
  ∀ (s : State) (pdu : Bytes), Presents (decodeResponsePdu pdu) s (.decoded (decodePdu pdu))

/-- R210, R211, R212: the bits of a read-coils or read-discrete-inputs response, `8 * bc` of them, LSB first. The
result port is the model's own (log 5). -/
def Obligations.ReadBitsResponsesDecode : Prop :=
  ∀ (s : State) (bc : Byte) (data : Bytes),
    (data.length = bc.toNat → ∃ bits : List Bool,
      Presents (.decodeBitsReadCoils (bc :: data)) s (.decoded (.response 0x01 (.bits bits))) ∧
      Presents (.decodeBitsReadDiscreteInputs (bc :: data)) s (.decoded (.response 0x02 (.bits bits))) ∧
      bits.length = 8 * bc.toNat ∧
      ∀ k, k < 8 * bc.toNat → bits.getD k false = (data.getD (k / 8) 0).getLsbD (k % 8)) ∧
    (data.length ≠ bc.toNat →
      Presents (.decodeBitsReadCoils (bc :: data)) s (.decoded .malformedPdu) ∧
      Presents (.decodeBitsReadDiscreteInputs (bc :: data)) s (.decoded .malformedPdu)) ∧
    Presents (.decodeBitsReadCoils []) s (.decoded .malformedPdu) ∧
    Presents (.decodeBitsReadDiscreteInputs []) s (.decoded .malformedPdu)

/-- R215, R216: the registers of a read-registers response, u16 big-endian; odd or wrong byte counts are
`MalformedPdu`. The result port is the model's own (log 5). -/
def Obligations.ReadRegistersResponsesDecode : Prop :=
  ∀ (s : State) (bc : Byte) (data : Bytes),
    (data.length = bc.toNat ∧ bc.toNat % 2 = 0 → ∃ regs : List U16,
      Presents (.decodeRegsReadHoldingRegisters (bc :: data)) s (.decoded (.response 0x03 (.regs regs))) ∧
      Presents (.decodeRegsReadInputRegisters (bc :: data)) s (.decoded (.response 0x04 (.regs regs))) ∧
      regs.length = bc.toNat / 2 ∧
      ∀ k, k < bc.toNat / 2 →
        (regs.getD k 0).toNat = (data.getD (2 * k) 0).toNat * 256 + (data.getD (2 * k + 1) 0).toNat) ∧
    (data.length ≠ bc.toNat ∨ bc.toNat % 2 ≠ 0 →
      Presents (.decodeRegsReadHoldingRegisters (bc :: data)) s (.decoded .malformedPdu) ∧
      Presents (.decodeRegsReadInputRegisters (bc :: data)) s (.decoded .malformedPdu)) ∧
    Presents (.decodeRegsReadHoldingRegisters []) s (.decoded .malformedPdu) ∧
    Presents (.decodeRegsReadInputRegisters []) s (.decoded .malformedPdu)

/-- R220, R221, R222, R223: the write echoes: two u16 big-endian fields; any other length, and any coil word but
0xFF00 and 0x0000, is `MalformedPdu`. The result port is the model's own (log 5). -/
def Obligations.WriteEchoesDecode : Prop :=
  ∀ (s : State) (rest : Bytes),
    (∀ a1 a0 v1 v0 : Byte, rest = [a1, a0, v1, v0] →
      Presents (.decodeWriteCoilEcho rest) s (.decoded
        (if v1 = 0xFF ∧ v0 = 0x00 then .response 0x05 (.coilEcho (a1 ++ a0 : BitVec 16) true)
         else if v1 = 0x00 ∧ v0 = 0x00 then .response 0x05 (.coilEcho (a1 ++ a0 : BitVec 16) false)
         else .malformedPdu)) ∧
      Presents (.decodeWriteRegEcho rest) s (.decoded
        (.response 0x06 (.regEcho (a1 ++ a0 : BitVec 16) (v1 ++ v0 : BitVec 16)))) ∧
      Presents (.decodeWriteMultiEchoCoils rest) s (.decoded
        (.response 0x0F (.multiEcho (a1 ++ a0 : BitVec 16) (v1 ++ v0 : BitVec 16)))) ∧
      Presents (.decodeWriteMultiEchoRegisters rest) s (.decoded
        (.response 0x10 (.multiEcho (a1 ++ a0 : BitVec 16) (v1 ++ v0 : BitVec 16))))) ∧
    (rest.length ≠ 4 →
      Presents (.decodeWriteCoilEcho rest) s (.decoded .malformedPdu) ∧
      Presents (.decodeWriteRegEcho rest) s (.decoded .malformedPdu) ∧
      Presents (.decodeWriteMultiEchoCoils rest) s (.decoded .malformedPdu) ∧
      Presents (.decodeWriteMultiEchoRegisters rest) s (.decoded .malformedPdu))

/-- R203: an exception response of exactly two bytes gives the original code, the exception function code and the raw
exception code; any other length is `MalformedPdu`. The result port is the model's own (log 5). -/
def Obligations.ExceptionResponsesDecode : Prop :=
  ∀ (s : State) (rfc : BitVec 7) (rest : Bytes),
    (∀ ec : Byte, rest = [ec] → Presents (.decodeException rfc rest) s
      (.decoded (.protocolException (rfc.setWidth 8) (BitVec.ofNat 8 (128 + rfc.toNat)) ec))) ∧
    (rest.length ≠ 1 → Presents (.decodeException rfc rest) s (.decoded .malformedPdu))

/-- R114, R202: an empty PDU and a non-exception function code outside the eight are `MalformedPdu`. The result port
is the model's own (log 5). -/
def Obligations.UnimplementedCodesAreMalformed : Prop :=
  ∀ (s : State) (pdu : Bytes), (Instr.decodeUnimplemented pdu).wf = true →
    decodePdu pdu = .malformedPdu ∧ Presents (.decodeUnimplemented pdu) s (.decoded .malformedPdu)

/-- R232 (marked derived by the spec): decoding the request PDU of 0x05 and 0x06 gives the echo of its arguments; that of
0x0F and 0x10 is `MalformedPdu`. -/
def Obligations.RequestPdusDecodedAsResponses : Prop :=
  (∀ (a : Nat) (b : Bool) (r : RequestPdu), encodeWriteSingleCoil a b = .ok r →
    decodePdu r.bytes = .response 0x05 (.coilEcho (BitVec.ofNat 16 a) b)) ∧
  (∀ (a v : Nat) (r : RequestPdu), encodeWriteSingleRegister a v = .ok r →
    decodePdu r.bytes = .response 0x06 (.regEcho (BitVec.ofNat 16 a) (BitVec.ofNat 16 v))) ∧
  (∀ (a : Nat) (vs : List Bool) (r : RequestPdu), encodeWriteMultipleCoils a vs = .ok r →
    decodePdu r.bytes = .malformedPdu) ∧
  (∀ (a : Nat) (vs : List Nat) (r : RequestPdu), encodeWriteMultipleRegisters a vs = .ok r →
    decodePdu r.bytes = .malformedPdu)

/-! ### CRC16 -/

/-- R252: the CRC row presents the loop's result: initial value 0xFFFF, each byte XORed in, eight right shifts with
0xA001 XORed in when the bit shifted out is 1. The result port is the model's own (log 5). -/
def Obligations.Crc16RowComputesTheLoop : Prop :=
  ∀ (s : State) (bytes : Bytes), Presents (.crc16 bytes) s (.crc
    (bytes.foldl (fun (c : U16) (b : Byte) =>
      (fun x : U16 => if x.getLsbD 0 then (x >>> 1) ^^^ 0xA001 else x >>> 1)^[8] (c ^^^ b.setWidth 16)) 0xFFFF))

/-- R254 (marked derived by the spec): the table form of `Feed` equals the loop form. -/
def Obligations.CrcTableFormEqualsLoop : Prop :=
  ∀ (c : U16) (b : Byte), crcFeedByTable c b = crcFeed c b

/-- R256: the comparison of the trailer with the CRC of the bytes before it passes exactly when the CRC of the whole group
is 0 (the spec marks the residue form as general knowledge). -/
def Obligations.CrcCheckEqualsZeroResidue : Prop :=
  ∀ g : Bytes, 2 ≤ g.length → (rtuCrcPasses g = true ↔ crcOf g = 0)

/-- R257: flipping any single bit of a group that is a valid frame, the CRC bytes included, gives `Corrupt`. -/
def Obligations.SingleBitFlipIsCorrupt : Prop :=
  ∀ (g : Bytes) (f : Frame) (i b : Nat), rtuTryUnwrap g = .frame f → i < g.length → b < 8 →
    rtuTryUnwrap (g.set i (g.getD i 0 ^^^ (1#8 <<< b))) = .corrupt g.length

/-! ### ADU framer -/

/-- R281: the MBAP header, then the PDU. The result port is the model's own (log 5). -/
def Obligations.TcpWrapBuildsMbapFrame : Prop :=
  ∀ (s : State) (tid : U16) (u : Byte) (pdu : Bytes), pdu.length ≤ 65534 →
    Presents (.tcpWrap tid u pdu) s (.frameBytes
      ([hiByte tid.toNat, loByte tid.toNat, 0x00, 0x00, hiByte (1 + pdu.length), loByte (1 + pdu.length), u] ++ pdu))

/-- R290: unit id, PDU, then the CRC of both, low byte first. The result port is the model's own (log 5). -/
def Obligations.RtuWrapAppendsCrcLowByteFirst : Prop :=
  ∀ (s : State) (u : Byte) (pdu : Bytes),
    Presents (.rtuWrap u pdu) s (.frameBytes
      (u :: pdu ++ [loByte (crcOf (u :: pdu)).toNat, hiByte (crcOf (u :: pdu)).toNat]))

/-- R282, R285: fewer than seven bytes are `Incomplete`; a header with protocol id not 0, length below 2 or above 254
is `Corrupt` and consumes the buffer; otherwise the frame, once `6 + length` bytes are there. The result port is the
model's own (log 5). -/
def Obligations.TcpTryUnwrapReadsMbapFrame : Prop :=
  (∀ (s : State) (buf : Bytes), buf.length < 7 → Presents (.tcpTryUnwrap buf) s (.unwrapped .incomplete)) ∧
  ∀ (s : State) (t1 t0 p1 p0 l1 l0 u : Byte) (rest : Bytes),
    Presents (.tcpTryUnwrap (t1 :: t0 :: p1 :: p0 :: l1 :: l0 :: u :: rest)) s (.unwrapped
      (if p1 ≠ 0 ∨ p0 ≠ 0 ∨ l1.toNat * 256 + l0.toNat < 2 ∨ 254 < l1.toNat * 256 + l0.toNat then
        .corrupt (7 + rest.length)
       else if rest.length + 1 < l1.toNat * 256 + l0.toNat then .incomplete
       else .frame { unitId := u, transactionId := some (t1 ++ t0 : BitVec 16),
                     pdu := rest.take (l1.toNat * 256 + l0.toNat - 1),
                     consumed := 6 + (l1.toNat * 256 + l0.toNat) }))

/-- R292: a group of fewer than four bytes, or whose trailer is not its CRC, is `Corrupt`; otherwise its frame. The
result port is the model's own (log 5). -/
def Obligations.RtuTryUnwrapChecksGroup : Prop :=
  (∀ (s : State) (g : Bytes), g.length < 4 → Presents (.rtuTryUnwrap g) s (.unwrapped (.corrupt g.length))) ∧
  ∀ (s : State) (u : Byte) (pdu : Bytes) (lo hi : Byte), 1 ≤ pdu.length →
    Presents (.rtuTryUnwrap (u :: pdu ++ [lo, hi])) s (.unwrapped
      (if (crcOf (u :: pdu)).toNat = lo.toNat + hi.toNat * 256 then
        .frame { unitId := u, transactionId := none, pdu := pdu, consumed := 3 + pdu.length }
       else .corrupt (3 + pdu.length)))

/-- R314 (marked derived by the spec): unwrapping a wrapped PDU gives it back, for TCP with any bytes after it. -/
def Obligations.FramerRoundTrip : Prop :=
  (∀ (tid : U16) (u : Byte) (pdu rest : Bytes), 1 ≤ pdu.length → 1 + pdu.length ≤ Config.tcpMaxLen →
    tcpTryUnwrap (tcpWrap tid u pdu ++ rest) =
      .frame { unitId := u, transactionId := some tid, pdu := pdu, consumed := 7 + pdu.length }) ∧
  (∀ (u : Byte) (pdu : Bytes), Config.rtuMinGroup ≤ 3 + pdu.length →
    rtuTryUnwrap (rtuWrap u pdu) =
      .frame { unitId := u, transactionId := none, pdu := pdu, consumed := 3 + pdu.length })

/-- R310 and R311 (R311 is marked derived by the spec): extraction satisfies its loop equation, and ends with a buffer that
holds no complete frame and no corrupt header, at most 259 bytes, so that the next append stays within `RXBUF_CAP`. -/
def Obligations.ExtractTcpRunsToIncomplete : Prop :=
  ∀ s : State,
    (extractTcp s = match tcpTryUnwrap s.rxBuf with
      | .incomplete => s
      | .corrupt k => { s with rxBuf := s.rxBuf.drop k }
      | .frame f => extractTcp (engineFrame f { s with rxBuf := s.rxBuf.drop f.consumed })) ∧
    tcpTryUnwrap (extractTcp s).rxBuf = .incomplete ∧
    (extractTcp s).rxBuf.length ≤ 259 ∧
    (260 ≤ s.par.rxBufCap → ∀ b, (bufAppend b (extractTcp s)).rxBuf.length ≤ (extractTcp s).par.rxBufCap)

/-- R312 (marked derived by the spec): every way of splitting a byte sequence into chunks gives the same state. -/
def Obligations.ChunkingDoesNotMatter : Prop :=
  ∀ (s : State) (chunks : List Bytes), chunks ≠ [] → (∀ c ∈ chunks, c ≠ []) →
    execAll (chunks.map Instr.rxChunk) s = exec (.rxChunk chunks.flatten) s

/-- R313 (marked derived by the spec): while every header passes R285, the per-byte procedure equals the source's: append
the whole chunk, then extract until `Incomplete`. -/
def Obligations.PerByteReceiveEqualsWholeChunk : Prop :=
  ∀ (s : State) (bytes : Bytes), s.mode = .tcp → tcpTryUnwrap s.rxBuf = .incomplete →
    streamClean ((s.rxBuf ++ bytes).length + 1) (s.rxBuf ++ bytes) = true →
    bytes.foldl rxByte s = receiveWholeChunk bytes s

/-! ### Receiving -/

/-- R360, R300, R78: bytes and gaps that arrive while not connected are ignored and uncounted, so the bytes that come after
a `Disconnect` change nothing. -/
def Obligations.ReceiveIgnoredUnlessConnected : Prop :=
  ∀ (s : State) (bytes : Bytes),
    (s.conn ≠ .connected → exec (.rxChunk bytes) s = .next s ∧ exec .rxGap s = .next s) ∧
    (∀ tag, ∃ t, exec (.disconnect tag) s = .next t ∧ t.pending = [] ∧ execAll [.rxChunk bytes, .rxGap] t = .next t)

/-- R302, R360: in RTU mode a chunk is appended up to `RXBUF_CAP`, the bytes beyond set the overrun bit, and nothing else
but the received bytes and the activity time changes. -/
def Obligations.RtuChunkAccumulates : Prop :=
  ∀ (s : State) (bytes : Bytes), s.conn = .connected → s.mode = .rtu → s.rxBuf.length ≤ s.par.rxBufCap →
    exec (.rxChunk bytes) s = .next { s with
      rxBuf := (s.rxBuf ++ bytes).take s.par.rxBufCap
      rxOverrun := s.rxOverrun || decide (s.par.rxBufCap < s.rxBuf.length + bytes.length)
      ctr := { s.ctr with bytesReceived := s.ctr.bytesReceived + BitVec.ofNat 64 bytes.length }
      lastActivity := s.now }

/-- R300, R295: a gap outside RTU mode or with an empty group does nothing; otherwise the buffer and the overrun bit are
cleared, and an overrun or corrupt group has no other effect. -/
def Obligations.RtuGapDropsEmptyAndCorruptGroups : Prop :=
  ∀ s : State,
    (s.mode = .tcp ∨ (s.rxBuf = [] ∧ s.rxOverrun = false) → exec .rxGap s = .next s) ∧
    (s.mode = .rtu → s.conn = .connected → s.rxOverrun = true ∨ (∃ k, rtuTryUnwrap s.rxBuf = .corrupt k) →
      exec .rxGap s = .next { s with rxBuf := [], rxOverrun := false })

/-- R362, R364: a TCP reply frame for a pending entry resolves exactly that entry: with `Ok(data)` for a response, with the
exception code for an exception response of its function code. -/
def Obligations.MatchedTcpReplyResolvesItsRequest : Prop :=
  ∀ (s : State) (p : Pending) (pdu : Bytes) (o : CallOutcome),
    s.conn = .connected → s.mode = .tcp → s.rxBuf = [] → (s.pending.map Pending.id).Nodup → p ∈ s.pending →
    1 ≤ pdu.length → pdu.length ≤ 253 → Answers (decodePdu pdu) p.functionCode o →
    exec (.rxChunk (tcpWrap p.id p.unitId pdu)) s = .next { s with
      pending := s.pending.filter fun q => decide (q.id ≠ p.id)
      out := s.out ++ [.requestResult p.tag o]
      ctr := { s.ctr with bytesReceived := s.ctr.bytesReceived + BitVec.ofNat 64 (7 + pdu.length)
                          framesReceived := s.ctr.framesReceived + 1 }
      lastActivity := s.now }

/-- R366, R364: a TCP frame that no pending entry matches, or that does not answer the entry it matches, changes the
counters and the activity time and nothing else. -/
def Obligations.UnmatchedTcpFrameIsDiscarded : Prop :=
  ∀ (s : State) (tid : U16) (u : Byte) (pdu : Bytes),
    s.conn = .connected → s.mode = .tcp → s.rxBuf = [] → 1 ≤ pdu.length → pdu.length ≤ 253 →
    (∀ p ∈ s.pending, p.id = tid → p.unitId = u → AnswersNot (decodePdu pdu) p.functionCode) →
    exec (.rxChunk (tcpWrap tid u pdu)) s = .next { s with
      ctr := { s.ctr with bytesReceived := s.ctr.bytesReceived + BitVec.ofNat 64 (7 + pdu.length)
                          framesReceived := s.ctr.framesReceived + 1 }
      lastActivity := s.now }

/-- R285, R310: a corrupt TCP header clears the buffer once its seventh byte arrives and resolves nothing. -/
def Obligations.CorruptTcpHeaderClearsBuffer : Prop :=
  ∀ (s : State) (header : Bytes), s.conn = .connected → s.mode = .tcp → s.rxBuf = [] → header.length = 7 →
    tcpHeaderCorrupt header = true →
    exec (.rxChunk header) s = .next { s with
      ctr := { s.ctr with bytesReceived := s.ctr.bytesReceived + 7 }
      lastActivity := s.now }

/-- R300, R363, R364, R366: in RTU mode a frame from the unit of the pending entry, closed by its gap, resolves that entry;
a frame from another unit, one that does not answer it, and one that finds no entry are counted and discarded. -/
def Obligations.RtuReplyResolvesTheSlot : Prop :=
  ∀ (s : State) (u : Byte) (pdu : Bytes),
    s.conn = .connected → s.mode = .rtu → s.rxBuf = [] → s.rxOverrun = false →
    1 ≤ pdu.length → 3 + pdu.length ≤ s.par.rxBufCap →
    (∀ p o, s.pending = [p] → u = p.unitId → Answers (decodePdu pdu) p.functionCode o →
      execAll [.rxChunk (rtuWrap u pdu), .rxGap] s = .next { s with
        pending := []
        out := s.out ++ [.requestResult p.tag o]
        ctr := { s.ctr with bytesReceived := s.ctr.bytesReceived + BitVec.ofNat 64 (3 + pdu.length)
                            framesReceived := s.ctr.framesReceived + 1 }
        lastActivity := s.now }) ∧
    ((∀ p ∈ s.pending, u = p.unitId → AnswersNot (decodePdu pdu) p.functionCode) →
      execAll [.rxChunk (rtuWrap u pdu), .rxGap] s = .next { s with
        ctr := { s.ctr with bytesReceived := s.ctr.bytesReceived + BitVec.ofNat 64 (3 + pdu.length)
                            framesReceived := s.ctr.framesReceived + 1 }
        lastActivity := s.now })

/-! ### Configuration and connection -/

/-- R342, R37: a write stores any value in its register, in every state, and changes nothing else. -/
def Obligations.CfgWriteStoresOneRegister : Prop :=
  ∀ s : State,
    (∀ m, exec (.cfgWrite (.mode m)) s = .next { s with cfg := { s.cfg with mode := m } }) ∧
    (∀ e, exec (.cfgWrite (.endpoint e)) s = .next { s with cfg := { s.cfg with endpoint := e } }) ∧
    (∀ n, exec (.cfgWrite (.unitId n)) s = .next { s with cfg := { s.cfg with unitId := some n } }) ∧
    (∀ n, exec (.cfgWrite (.timeoutS n)) s = .next { s with cfg := { s.cfg with timeoutS := some n } }) ∧
    (∀ n, exec (.cfgWrite (.retries n)) s = .next { s with cfg := { s.cfg with retries := some n } }) ∧
    (∀ n, exec (.cfgWrite (.inactS n)) s = .next { s with cfg := { s.cfg with inactS := n } })

/-- R345: `Connect` latches the mode, clears the receive state and opens the transport; while not disconnected it only
reports `InvalidState`. -/
def Obligations.ConnectOpensTransportOrIsRefused : Prop :=
  ∀ (s : State) (tag : Tag),
    (s.conn = .disconnected → exec (.connect tag) s = .next { s with
      mode := s.cfg.mode, rxBuf := [], rxOverrun := false, conn := .connecting, connectTag := some tag
      out := s.out ++ [.transportOpen s.cfg.endpoint s.cfg.mode] }) ∧
    (s.conn ≠ .disconnected → exec (.connect tag) s = .next { s with
      out := s.out ++ [.connectResult tag .invalidState] })

/-- R347: `TransportOpened` completes the waiting `Connect` with `Ok`; a stale open is closed again. -/
def Obligations.TransportOpenedCompletesConnect : Prop :=
  ∀ s : State,
    (∀ tag, s.conn = .connecting → s.connectTag = some tag → exec .transportOpened s = .next { s with
      conn := .connected, lastActivity := s.now, connectTag := none
      out := s.out ++ [.connectResult tag (.ok none)] }) ∧
    (s.conn ≠ .connecting → exec .transportOpened s = .next { s with out := s.out ++ [.transportClose] })

/-- R349, R341: a transport failure answers a waiting `Connect` with `ConnectionError`, or aborts every pending request in
issue order and reports `LinkDown(ConnectionError)`; while disconnected it changes nothing. -/
def Obligations.TransportFailedDropsTheLink : Prop :=
  ∀ s : State,
    (∀ tag, s.conn = .connecting → s.connectTag = some tag → exec .transportFailed s = .next { s with
      conn := .disconnected, rxBuf := [], rxOverrun := false, connectTag := none
      out := s.out ++ [.connectResult tag .connectionError] }) ∧
    (s.conn = .connected → exec .transportFailed s = .next { s with
      conn := .disconnected, rxBuf := [], rxOverrun := false, pending := []
      out := s.out ++ s.pending.map (fun p => .requestResult p.tag .aborted)
        ++ [.transportClose, .linkDown .connectionError] }) ∧
    (s.conn = .disconnected → exec .transportFailed s = .next s)

/-- R350: `Disconnect` always ends disconnected with an empty table and buffer, aborts every pending request in issue order
and a waiting `Connect`, closes a transport that was not down, and answers `Ok`. -/
def Obligations.DisconnectAbortsEverything : Prop :=
  ∀ (s : State) (tag : Tag), (s.conn = .connecting ↔ s.connectTag.isSome = true) →
    exec (.disconnect tag) s = .next { s with
      conn := .disconnected, pending := [], rxBuf := [], rxOverrun := false, connectTag := none
      out := s.out ++ s.pending.map (fun p => .requestResult p.tag .aborted)
        ++ s.connectTag.toList.map (fun c => .connectResult c .aborted)
        ++ (if s.conn = .disconnected then [] else [.transportClose])
        ++ [.disconnectResult tag (.ok none)] }

/-! ### Requests -/

/-- R352, R353, R354, R425, R426: an unset or out-of-range register, then an argument the encoder refuses, then a link not
connected: each ends the event with its outcome and no other effect, in this order. -/
def Obligations.RequestRefusalsInRuleOrder : Prop :=
  ∀ (s : State) (tag : Tag) (op : Op),
    ((¬ ∃ t k u, s.cfg.Usable t k u) → exec (.request tag op) s = .next { s with
      out := s.out ++ [.requestResult tag .invalidArgument] }) ∧
    (∀ t k u info, s.cfg.Usable t k u → encodeOp op = .invalidArgument info → exec (.request tag op) s = .next { s with
      out := s.out ++ [.requestResult tag .invalidArgument] }) ∧
    (∀ t k u r, s.cfg.Usable t k u → encodeOp op = .ok r → s.conn ≠ .connected →
      exec (.request tag op) s = .next { s with out := s.out ++ [.requestResult tag .invalidState] })

/-- R355, R356: a TCP request whose candidate id is pending or that finds the table full, and an RTU request with the slot
occupied, get `Busy` and have no other effect. -/
def Obligations.BusyRequestsHaveNoOtherEffect : Prop :=
  ∀ (s : State) (tag : Tag) (op : Op) (t k u : Nat) (r : RequestPdu),
    s.cfg.Usable t k u → encodeOp op = .ok r → s.conn = .connected →
    (s.mode = .tcp ∧ ((∃ p ∈ s.pending, p.id = BitVec.ofNat 16 ((s.lastTid.toNat + 1) % 65535)) ∨
        s.pending.length = s.par.maxPending)) ∨ (s.mode = .rtu ∧ s.pending ≠ []) →
    exec (.request tag op) s = .next { s with out := s.out ++ [.requestResult tag .busy] }

/-- R355, R357, R390: an accepted TCP request allocates `(last + 1) mod 0xFFFF`, writes one whole frame, counts it, and
registers its entry at the end of the table. -/
def Obligations.TcpRequestTransmitsAndRegisters : Prop :=
  ∀ (s : State) (tag : Tag) (op : Op) (t k u : Nat) (r : RequestPdu) (id : U16),
    s.cfg.Usable t k u → encodeOp op = .ok r → s.conn = .connected → s.mode = .tcp →
    id = BitVec.ofNat 16 ((s.lastTid.toNat + 1) % 65535) → (∀ p ∈ s.pending, p.id ≠ id) →
    s.pending.length ≠ s.par.maxPending →
    exec (.request tag op) s = .next { s with
      lastTid := id
      pending := s.pending ++ [{
        tag := tag, id := id, unitId := BitVec.ofNat 8 u, functionCode := r.functionCode
        timeout := t * s.par.tickHz, deadline := s.now + t * s.par.tickHz
        retriesRemaining := BitVec.ofNat 32 k, originalFrame := tcpWrap id (BitVec.ofNat 8 u) r.bytes }]
      out := s.out ++ [.transportWrite (tcpWrap id (BitVec.ofNat 8 u) r.bytes)]
      ctr := { s.ctr with bytesSent := s.ctr.bytesSent + BitVec.ofNat 64 (7 + r.bytes.length)
                          framesSent := s.ctr.framesSent + 1 }
      lastActivity := s.now }

/-- R356, R357, R390: an accepted RTU request takes the free slot with id 0, writes one whole frame, counts it, and leaves
`S.lastTid` alone. -/
def Obligations.RtuRequestTransmitsAndRegisters : Prop :=
  ∀ (s : State) (tag : Tag) (op : Op) (t k u : Nat) (r : RequestPdu),
    s.cfg.Usable t k u → encodeOp op = .ok r → s.conn = .connected → s.mode = .rtu → s.pending = [] →
    exec (.request tag op) s = .next { s with
      pending := [{
        tag := tag, id := 0, unitId := BitVec.ofNat 8 u, functionCode := r.functionCode
        timeout := t * s.par.tickHz, deadline := s.now + t * s.par.tickHz
        retriesRemaining := BitVec.ofNat 32 k, originalFrame := rtuWrap (BitVec.ofNat 8 u) r.bytes }]
      out := s.out ++ [.transportWrite (rtuWrap (BitVec.ofNat 8 u) r.bytes)]
      ctr := { s.ctr with bytesSent := s.ctr.bytesSent + BitVec.ofNat 64 (3 + r.bytes.length)
                          framesSent := s.ctr.framesSent + 1 }
      lastActivity := s.now }

/-! ### Time -/

/-- R380, R381, R382, R383: a `Tick` moves the time to the later of both, examines each entry once in issue order
(retransmit, expire or leave), then runs the watchdog. -/
def Obligations.TickExaminesEachEntryOnceThenWatchdog : Prop :=
  ∀ (s : State) (t : Nat),
    let n := max s.now t
    let due := s.pending.filter fun p => decide (p.deadline ≤ n)
    let again := due.filter fun p => decide (0 < p.retriesRemaining.toNat)
    let s1 : State := { s with
      now := n
      pending := s.pending.filterMap fun p =>
        if p.deadline ≤ n then
          if 0 < p.retriesRemaining.toNat then
            some { p with retriesRemaining := p.retriesRemaining - 1, deadline := n + p.timeout }
          else none
        else some p
      out := s.out ++ due.map fun p =>
        if 0 < p.retriesRemaining.toNat then .transportWrite p.originalFrame else .requestResult p.tag .timeout
      ctr := { s.ctr with
        bytesSent := s.ctr.bytesSent + BitVec.ofNat 64 (again.map fun p => p.originalFrame.length).sum
        framesSent := s.ctr.framesSent + BitVec.ofNat 64 again.length
        retries := s.ctr.retries + BitVec.ofNat 64 again.length }
      lastActivity := if again = [] then s.lastActivity else n }
    exec (.tick t) s = .next
      (if s1.conn = .connected ∧ 0 < s1.cfg.inactS ∧ s1.lastActivity + s1.cfg.inactS * s1.par.tickHz ≤ n then
        { s1 with
          conn := .disconnected, pending := [], rxBuf := [], rxOverrun := false
          out := s1.out ++ s1.pending.map (fun p => .requestResult p.tag .aborted)
            ++ [.transportClose, .linkDown .timeout] }
       else s1)

/-- R385: with `RETRIES = k`, no reply and a `Tick` at each deadline, a request is written exactly `k + 1` times, then
resolves `Timeout` at `a + (k+1)T`, and `retries` grows by `k` (the general form is marked derived by the spec). -/
def Obligations.RetriesExhaustIntoTimeout : Prop :=
  ∀ (s s1 : State) (tag : Tag) (op : Op) (t k u : Nat),
    s.cfg.Usable t k u → s.conn = .connected → s.pending = [] → s.cfg.inactS = 0 → 0 < s.par.tickHz →
    exec (.request tag op) s = .next s1 → s1.pending ≠ [] →
    ∃ (frame : Bytes) (s2 : State),
      execAll ((List.range (k + 1)).map fun j => .tick (s.now + (j + 1) * (t * s.par.tickHz))) s1 = .next s2 ∧
      s2.pending = [] ∧
      s2.out = s.out ++ List.replicate (k + 1) (.transportWrite frame) ++ [.requestResult tag .timeout] ∧
      s2.ctr.retries = s.ctr.retries + BitVec.ofNat 64 k ∧
      s2.ctr.framesSent = s.ctr.framesSent + BitVec.ofNat 64 (k + 1) ∧
      s2.now = s.now + (k + 1) * (t * s.par.tickHz)

/-! ### Reset and the invariant -/

/-- R55, R470: the state at the values the spec gives for reset, and no action emitted. Nothing is said of `CFG.ENDPOINT`,
which the spec leaves unset (log 4). -/
def Obligations.ResetStateIsAsSpecified : Prop :=
  State.reset.cfg.mode = .tcp ∧ State.reset.cfg.unitId = none ∧ State.reset.cfg.timeoutS = none ∧
  State.reset.cfg.retries = none ∧ State.reset.cfg.inactS = 0 ∧ State.reset.conn = .disconnected ∧
  State.reset.mode = .tcp ∧ State.reset.pending = [] ∧ State.reset.lastTid = 0 ∧ State.reset.rxBuf = [] ∧
  State.reset.rxOverrun = false ∧ State.reset.now = 0 ∧ State.reset.lastActivity = 0 ∧
  State.reset.connectTag = none ∧ State.reset.ctr = ⟨0, 0, 0, 0, 0⟩ ∧ State.reset.out = []

/-- The invariant holds after reset (R55, R12, R351; the model's parameters lie in their ranges, log 7). -/
def Obligations.ResetSatisfiesInvariant : Prop := State.reset.Inv

/-- Every step keeps the invariant: no event ends in `Closing` (R38), pending requests only while connected (R351), distinct
ids (R42), ids below 0xFFFF (R43), the buffer bound (R44, R311), no overdue entry (R380). -/
def Obligations.StepKeepsInvariant : Prop :=
  ∀ s t : State, s.Inv → step s = .next t → t.Inv

/-! ### Rules of the whole machine -/

/-- R426, R340: no instruction stops the machine. -/
def Obligations.EveryInstructionCompletes : Prop :=
  ∀ (i : Instr) (s : State), ∃ t, exec i s = .next t

/-- R9: the codec, the framer and the CRC are pure: what they present does not depend on the state, and they change
nothing else of it. The result port is the model's own (log 5). -/
def Obligations.UnitRowsArePure : Prop :=
  ∀ i : Instr, isUnitRow i = true → ∃ r, ∀ s : State, Presents i s r

/-- R82, R47: no instruction reads or withdraws an action already emitted, or the inputs still to come; it appends its own
actions (that both stand in lists of State is the model's choice, log 1 and log 2). -/
def Obligations.ActionsAreOnlyAppended : Prop :=
  ∀ (i : Instr) (s : State), ∃ (t : State) (acts : List Action), ∀ (o : List Action) (q : List Input),
    exec i { s with out := o, input := q } = .next { t with out := o ++ acts, input := q }

/-- R392, for `Request`: for every tag, the results an instruction emits and the entries it leaves are as many as the
entries it found, plus one for a `Request` with that tag: no request is answered twice, and no entry leaves unanswered. -/
def Obligations.RequestsAreAnsweredExactlyOnce : Prop :=
  ∀ (i : Instr) (s t : State) (acts : List Action) (tag : Tag),
    exec i s = .next t → t.out = s.out ++ acts →
    acts.countP (isResultOf tag) + t.pending.countP (fun p => decide (p.tag = tag)) =
      s.pending.countP (fun p => decide (p.tag = tag)) + (if isRequestOf tag i = true then 1 else 0)

/-- R390, R48: the sent counters grow by exactly the frames and bytes written, and `retries` by the frames that no `Request`
wrote. -/
def Obligations.CountersMatchFramesWritten : Prop :=
  ∀ (i : Instr) (s t : State) (acts : List Action), exec i s = .next t → t.out = s.out ++ acts →
    t.ctr.framesSent = s.ctr.framesSent + BitVec.ofNat 64 (acts.filterMap writtenFrame).length ∧
    t.ctr.bytesSent = s.ctr.bytesSent + BitVec.ofNat 64 ((acts.filterMap writtenFrame).map List.length).sum ∧
    (∀ tag op, i = .request tag op → t.ctr.retries = s.ctr.retries) ∧
    ((∀ tag op, i ≠ .request tag op) →
      t.ctr.retries = s.ctr.retries + BitVec.ofNat 64 (acts.filterMap writtenFrame).length)

/-- R420, R421: `MalformedPdu` and `Corrupt` are never reported to a caller. -/
def Obligations.ParseFailuresAreNeverReported : Prop :=
  ∀ (i : Instr) (s t : State) (acts : List Action), exec i s = .next t → t.out = s.out ++ acts →
    ∀ a ∈ acts, reportedOutcome a ≠ some .malformedPdu ∧ reportedOutcome a ≠ some .corrupt

/-- R30, R31, R37, R39, R43, R45: which events write the configuration, the mode, the id counter and the time; R48, R390:
`bytesReceived` changes only by an `RxChunk`, `framesReceived` only by an `RxChunk` or an `RxGap`. That no instruction writes the
parameters or takes an input speaks of fields of the model's own (log 7, log 1). -/
def Obligations.StateIsWrittenByItsOwnEvents : Prop :=
  ∀ (i : Instr) (s t : State), exec i s = .next t →
    t.par = s.par ∧ t.input = s.input ∧
    ((∀ w, i ≠ .cfgWrite w) → t.cfg = s.cfg) ∧
    ((∀ tag, i ≠ .connect tag) → t.mode = s.mode) ∧
    ((∀ tag op, i ≠ .request tag op) → t.lastTid = s.lastTid) ∧
    ((∀ x, i ≠ .tick x) → t.now = s.now) ∧
    ((∀ b, i ≠ .rxChunk b) → t.ctr.bytesReceived = s.ctr.bytesReceived) ∧
    ((∀ b, i ≠ .rxChunk b) → i ≠ .rxGap → t.ctr.framesReceived = s.ctr.framesReceived)

/-- R345 to R350, R383: only `Connect` leaves `Disconnected`, only `TransportOpened` reaches `Connected`, and only a
transport failure, a `Disconnect` or the watchdog of a `Tick` drops the link. -/
def Obligations.ConnectionTransitionsAreTheRules : Prop :=
  ∀ (i : Instr) (s t : State), exec i s = .next t →
    t.conn = s.conn ∨
    (s.conn = .disconnected ∧ t.conn = .connecting ∧ ∃ tag, i = .connect tag) ∨
    (s.conn = .connecting ∧ t.conn = .connected ∧ i = .transportOpened) ∨
    (t.conn = .disconnected ∧ (i = .transportFailed ∨ (∃ tag, i = .disconnect tag) ∨
      (s.conn = .connected ∧ ∃ x, i = .tick x)))
end

