-- ==== Sys2Proof/Laws/Operands.lean ====
section
/-! SUPPORT. Byte order and bit packing: what is written is read back (spec/20_memory.md R72 to R74). -/

namespace Sys2Proof.Machine

@[simp] theorem be16_length (v : U16) : (be16 v).length = 2 := rfl

@[simp] theorem le16_length (v : U16) : (le16 v).length = 2 := rfl

/-- `be16` of a natural below 0x10000 is its high byte and its low byte. -/
theorem be16_ofNat {n : Nat} (h : n < 65536) : be16 (BitVec.ofNat 16 n) = [hiByte n, loByte n] := by
  simp [be16, hiByte, loByte, Nat.mod_eq_of_lt h]

theorem be16_eq (v : U16) : be16 v = [hiByte v.toNat, loByte v.toNat] := rfl

@[simp] theorem byteAt_zero (b : Byte) (s : Bytes) : byteAt (b :: s) 0 = b := rfl

@[simp] theorem byteAt_succ (b : Byte) (s : Bytes) (i : Nat) : byteAt (b :: s) (i + 1) = byteAt s i := by
  simp [byteAt]

@[simp] theorem byteAt_nil (i : Nat) : byteAt [] i = 0 := by simp [byteAt]

theorem byteAt_append_left {s t : Bytes} {i : Nat} (h : i < s.length) : byteAt (s ++ t) i = byteAt s i :=
  List.getD_append _ _ _ _ h

theorem byteAt_append_right {s t : Bytes} {i : Nat} (h : s.length ≤ i) : byteAt (s ++ t) i = byteAt t (i - s.length) :=
  List.getD_append_right _ _ _ _ h

theorem byteAt_take {s : Bytes} {n i : Nat} (h : i < n) : byteAt (s.take n) i = byteAt s i := by
  simp [byteAt, List.getD_eq_getElem?_getD, h]

theorem byteAt_drop (s : Bytes) (n i : Nat) : byteAt (s.drop n) i = byteAt s (n + i) := by
  simp [byteAt, List.getD_eq_getElem?_getD, List.getElem?_drop]

/-- A big-endian pair read from its two bytes. -/
theorem rdbe16_toNat (s : Bytes) (i : Nat) :
    (rdbe16 s i).toNat = (byteAt s i).toNat * 256 + (byteAt s (i + 1)).toNat := by
  have h1 := (byteAt s i).isLt
  have h2 := (byteAt s (i + 1)).isLt
  simp only [rdbe16, BitVec.toNat_ofNat]
  omega

/-- A little-endian pair read from its two bytes. -/
theorem rdle16_toNat (s : Bytes) (i : Nat) :
    (rdle16 s i).toNat = (byteAt s i).toNat + (byteAt s (i + 1)).toNat * 256 := by
  have h1 := (byteAt s i).isLt
  have h2 := (byteAt s (i + 1)).isLt
  simp only [rdle16, BitVec.toNat_ofNat]
  omega

@[simp] theorem rdbe16_be16 (v : U16) (t : Bytes) : rdbe16 (be16 v ++ t) 0 = v := by
  apply BitVec.eq_of_toNat_eq
  have := v.isLt
  simp only [rdbe16_toNat, be16, List.cons_append, List.nil_append, byteAt_zero, byteAt_succ, BitVec.toNat_ofNat]
  omega

@[simp] theorem rdle16_le16 (v : U16) (t : Bytes) : rdle16 (le16 v ++ t) 0 = v := by
  apply BitVec.eq_of_toNat_eq
  have := v.isLt
  simp only [rdle16_toNat, le16, List.cons_append, List.nil_append, byteAt_zero, byteAt_succ, BitVec.toNat_ofNat]
  omega

/-- Reading past the first byte. -/
theorem rdbe16_cons (b : Byte) (s : Bytes) (i : Nat) : rdbe16 (b :: s) (i + 1) = rdbe16 s i := by
  simp [rdbe16]

theorem rdbe16_drop (s : Bytes) (n i : Nat) : rdbe16 (s.drop n) i = rdbe16 s (n + i) := by
  simp [rdbe16, byteAt_drop, Nat.add_assoc]

theorem rdbe16_append_left {s t : Bytes} {i : Nat} (h : i + 1 < s.length) : rdbe16 (s ++ t) i = rdbe16 s i := by
  simp [rdbe16, byteAt_append_left (show i < s.length by omega), byteAt_append_left h]

/-- The pair is the two bytes side by side, the first one high. -/
theorem rdbe16_append_form (s : Bytes) (i : Nat) :
    rdbe16 s i = (byteAt s i ++ byteAt s (i + 1) : BitVec 16) := by
  apply BitVec.eq_of_toNat_eq
  have h1 := (byteAt s i).isLt
  have h2 := (byteAt s (i + 1)).isLt
  rw [rdbe16_toNat]
  simp only [BitVec.toNat_append, Nat.shiftLeft_eq]
  rw [← Nat.shiftLeft_eq, ← Nat.shiftLeft_add_eq_or_of_lt h2, Nat.shiftLeft_eq]

/-- Writing back a pair that was read gives its two bytes. -/
theorem be16_rdbe16 (s : Bytes) (i : Nat) : be16 (rdbe16 s i) = [byteAt s i, byteAt s (i + 1)] := by
  have h1 := (byteAt s i).isLt
  have h2 := (byteAt s (i + 1)).isLt
  simp only [be16, rdbe16_toNat, List.cons.injEq, and_true]
  constructor <;> apply BitVec.eq_of_toNat_eq <;> simp only [BitVec.toNat_ofNat] <;> omega

/-- Bit `i` of a packed byte is the bit packed there (R171). -/
theorem packByte_getLsbD (f : Nat → Bool) {i : Nat} (h : i < 8) : (packByte f).getLsbD i = f i := by
  have key : ∀ b0 b1 b2 b3 b4 b5 b6 b7 : Bool, ∀ i : Fin 8,
      (BitVec.ofNat 8 (b0.toNat + b1.toNat * 2 + b2.toNat * 4 + b3.toNat * 8 + b4.toNat * 16 + b5.toNat * 32
        + b6.toNat * 64 + b7.toNat * 128)).getLsbD i = [b0, b1, b2, b3, b4, b5, b6, b7].getD i false := by
    decide +kernel
  have := key (f 0) (f 1) (f 2) (f 3) (f 4) (f 5) (f 6) (f 7) ⟨i, h⟩
  rw [packByte, this]
  interval_cases i <;> rfl

@[simp] theorem packBits_length (vs : List Bool) : (packBits vs).length = (vs.length + 7) / 8 := by
  simp [packBits, ceilDiv8]

theorem packBits_byteAt (vs : List Bool) {j : Nat} (h : j < (vs.length + 7) / 8) :
    byteAt (packBits vs) j = packByte fun i => vs.getD (8 * j + i) false := by
  simp [byteAt, packBits, ceilDiv8, List.getD_eq_getElem?_getD, h]

@[simp] theorem unpackBits_length (bytes : Bytes) (m : Nat) : (unpackBits bytes m).length = m := by simp [unpackBits]

theorem unpackBits_getD (bytes : Bytes) {m k : Nat} (h : k < m) :
    (unpackBits bytes m).getD k false = (byteAt bytes (k / 8)).getLsbD (k % 8) := by
  simp [unpackBits, List.getD_eq_getElem?_getD, h]

/-- Unpacking packed bits gives them back (R171, R212). -/
theorem unpackBits_packBits (vs : List Bool) : unpackBits (packBits vs) vs.length = vs := by
  apply List.ext_getElem (by simp)
  intro k h1 h2
  have hk : k < vs.length := h2
  have := unpackBits_getD (packBits vs) hk
  rw [packBits_byteAt vs (by omega), packByte_getLsbD _ (Nat.mod_lt _ (by omega))] at this
  rw [List.getD_eq_getElem _ _ h1, show 8 * (k / 8) + k % 8 = k by omega, List.getD_eq_getElem _ _ h2] at this
  exact this

@[simp] theorem packRegs_length (vs : List U16) : (packRegs vs).length = 2 * vs.length := by
  induction vs with
  | nil => rfl
  | cons v vs ih => simp only [packRegs, List.flatMap_cons, List.length_append, be16_length, List.length_cons] at *; omega

@[simp] theorem unpackRegs_length (bytes : Bytes) (n : Nat) : (unpackRegs bytes n).length = n := by simp [unpackRegs]

theorem unpackRegs_succ (bytes : Bytes) (n : Nat) :
    unpackRegs bytes (n + 1) = rdbe16 bytes 0 :: unpackRegs (bytes.drop 2) n := by
  simp only [unpackRegs, List.range_succ_eq_map, List.map_cons, List.map_map, Nat.mul_zero, List.cons.injEq, true_and]
  apply List.map_congr_left
  intro i _
  simp only [Function.comp, rdbe16_drop]
  congr 1
  omega

/-- Reading packed registers gives them back (R104, R215). -/
theorem unpackRegs_packRegs (vs : List U16) (t : Bytes) : unpackRegs (packRegs vs ++ t) vs.length = vs := by
  induction vs with
  | nil => rfl
  | cons v vs ih =>
    rw [List.length_cons, unpackRegs_succ, packRegs, List.flatMap_cons, List.append_assoc, rdbe16_be16]
    simpa [be16, packRegs] using ih

/-- Packing the registers read from a sequence of `2n` bytes gives the sequence back. -/
theorem packRegs_unpackRegs (n : Nat) (bytes : Bytes) (h : bytes.length = 2 * n) :
    packRegs (unpackRegs bytes n) = bytes := by
  induction n generalizing bytes with
  | zero => simp_all [unpackRegs, packRegs]
  | succ n ih =>
    obtain _ | ⟨a, _ | ⟨b, t⟩⟩ := bytes
    · simp at h
    · simp at h; omega
    · have ht : t.length = 2 * n := by simp only [List.length_cons] at h; omega
      rw [unpackRegs_succ, packRegs, List.flatMap_cons, be16_rdbe16]
      simpa [packRegs] using ih t ht

/-- A slice to the end of the sequence. -/
theorem slice_to_length (s : Bytes) (i : Nat) : slice s i s.length = s.drop i := by
  rw [slice, List.take_of_length_le]
  simp

theorem slice_length {s : Bytes} {i j : Nat} (h : j ≤ s.length) : (slice s i j).length = j - i := by
  simp [slice]
  omega

end Sys2Proof.Machine
end

