-- ==== Sys2Proof/Laws/Crc16.lean ====
section
/-! SUPPORT. The CRC16 generator is linear over XOR, and each of its steps can be undone (spec/42_crc16.md). -/

namespace Sys2Proof.Machine

/-- The bit shifted out is 1 exactly when the AND with 1 is 1. -/
theorem and_one_eq_one_iff (c : U16) : c &&& 1 = 1 ↔ c.getLsbD 0 = true := by
  constructor
  · intro h
    have := congrArg (fun x => BitVec.getLsbD x 0) h
    simpa using this
  · intro h
    apply BitVec.eq_of_getLsbD_eq
    intro i hi
    cases i with
    | zero => simpa using h
    | succ i => simp [BitVec.getLsbD_one]

/-- One inner step by the bit shifted out (R252). -/
theorem crcBit_eq (c : U16) : crcBit c = (c >>> 1) ^^^ (if c.getLsbD 0 = true then 0xA001#16 else 0#16) := by
  rw [crcBit]
  by_cases h : c.getLsbD 0 = true
  · rw [if_pos ((and_one_eq_one_iff c).2 h), if_pos h]; rfl
  · rw [if_neg (fun h' => h ((and_one_eq_one_iff c).1 h')), if_neg h, BitVec.xor_zero]

/-- The inner step is linear. -/
theorem crcBit_xor (a b : U16) : crcBit (a ^^^ b) = crcBit a ^^^ crcBit b := by
  rw [crcBit_eq, crcBit_eq, crcBit_eq, BitVec.ushiftRight_xor_distrib, BitVec.getLsbD_xor]
  generalize a >>> 1 = x
  generalize b >>> 1 = y
  cases a.getLsbD 0 <;> cases b.getLsbD 0
  · simp
  · simp [BitVec.xor_assoc]
  · simp only [Bool.bne_false, if_true, Bool.false_eq_true, if_false, BitVec.xor_zero]
    rw [BitVec.xor_assoc, BitVec.xor_comm y, ← BitVec.xor_assoc]
  · simp only [bne_self_eq_false, Bool.false_eq_true, if_true, if_false, BitVec.xor_zero]
    rw [BitVec.xor_comm y, BitVec.xor_assoc, ← BitVec.xor_assoc 0xA001#16, BitVec.xor_self, BitVec.zero_xor]

/-- The inner loop is linear. -/
theorem crcEight_xor (a b : U16) : crcEight (a ^^^ b) = crcEight a ^^^ crcEight b := by
  simp only [crcEight, crcBit_xor]

/-- Only 0 is taken to 0 by an inner step, since the polynomial has bit 15 set. -/
theorem crcBit_eq_zero {c : U16} (h : crcBit c = 0) : c = 0 := by
  rw [crcBit_eq] at h
  have h15 := congrArg (fun x => BitVec.getLsbD x 15) h
  by_cases hc : c.getLsbD 0 = true
  · simp [hc] at h15
  · have hc' : c.getLsbD 0 = false := by simpa using hc
    rw [if_neg hc, BitVec.xor_zero] at h
    apply BitVec.eq_of_getLsbD_eq
    intro i hi
    cases i with
    | zero => simpa using hc'
    | succ i =>
      have := congrArg (fun x => BitVec.getLsbD x i) h
      simpa [Nat.add_comm] using this

/-- Only 0 is taken to 0 by the inner loop. -/
theorem crcEight_eq_zero {c : U16} (h : crcEight c = 0) : c = 0 :=
  crcBit_eq_zero (crcBit_eq_zero (crcBit_eq_zero (crcBit_eq_zero (crcBit_eq_zero (crcBit_eq_zero
    (crcBit_eq_zero (crcBit_eq_zero h)))))))

/-- The inner loop loses nothing. -/
theorem crcEight_injective {a b : U16} (h : crcEight a = crcEight b) : a = b := by
  have : crcEight (a ^^^ b) = 0 := by rw [crcEight_xor, h, BitVec.xor_self]; rfl
  simpa using crcEight_eq_zero this

/-- An inner step that shifts out a 0 is a plain shift. -/
theorem crcBit_of_even {c : U16} (h : c.getLsbD 0 = false) : crcBit c = c >>> 1 := by
  rw [crcBit_eq, if_neg (by rw [h]; simp), BitVec.xor_zero]

/-- The inner loop on a value whose low byte is 0 is a shift by a byte. -/
theorem crcEight_of_low_zero {c : U16} (h : ∀ i, i < 8 → c.getLsbD i = false) : crcEight c = c >>> 8 := by
  have step : ∀ k, k < 8 → crcBit (c >>> k) = c >>> (k + 1) := by
    intro k hk
    rw [crcBit_of_even (by rw [BitVec.getLsbD_ushiftRight]; simpa using h k hk), BitVec.shiftRight_add]
  have h0 := step 0 (by omega)
  rw [BitVec.ushiftRight_zero] at h0
  rw [crcEight, h0, step 1 (by omega), step 2 (by omega), step 3 (by omega), step 4 (by omega), step 5 (by omega),
    step 6 (by omega), step 7 (by omega)]

/-- A word is its low byte and the rest. -/
theorem xor_low_high (c : U16) : (c.setWidth 8).setWidth 16 ^^^ ((c >>> 8) <<< 8) = c := by
  apply BitVec.eq_of_getLsbD_eq
  intro i hi
  by_cases h : i < 8
  · simp [h, hi]
  · simp only [BitVec.getLsbD_xor, BitVec.getLsbD_setWidth, BitVec.getLsbD_shiftLeft, BitVec.getLsbD_ushiftRight]
    simp [h, hi, show 8 + (i - 8) = i by omega]

/-- Feeding a byte to two registers keeps their difference, moved through the inner loop. -/
theorem crcFeed_xor (c d : U16) (b : Byte) : crcFeed c b ^^^ crcFeed d b = crcEight (c ^^^ d) := by
  rw [crcFeed, crcFeed, ← crcEight_xor]
  congr 1
  rw [BitVec.xor_comm d, ← BitVec.xor_assoc, BitVec.xor_assoc c, BitVec.xor_self, BitVec.xor_zero]

/-- The same bytes fed to different registers leave them different. -/
theorem foldl_crcFeed_injective (s : Bytes) {c d : U16} (h : s.foldl crcFeed c = s.foldl crcFeed d) : c = d := by
  induction s generalizing c d with
  | nil => exact h
  | cons b s ih =>
    have hb := ih h
    have : crcEight (c ^^^ d) = 0 := by rw [← crcFeed_xor c d b, hb, BitVec.xor_self]; rfl
    simpa using crcEight_eq_zero this

theorem crcOf_append (s t : Bytes) : crcOf (s ++ t) = t.foldl crcFeed (crcOf s) := by
  rw [crcOf, List.foldl_append, crcOf]

/-- Two sequences of one length that differ in one byte have different CRCs. -/
theorem crcOf_ne_of_byte_ne (s t : Bytes) {a b : Byte} (h : a ≠ b) : crcOf (s ++ a :: t) ≠ crcOf (s ++ b :: t) := by
  intro he
  rw [crcOf_append, crcOf_append, List.foldl_cons, List.foldl_cons] at he
  have h1 : crcFeed (crcOf s) a = crcFeed (crcOf s) b := foldl_crcFeed_injective t he
  have h2 := crcEight_injective h1
  apply h
  have h3 : a.setWidth 16 = b.setWidth 16 := by
    have := congrArg (fun x => crcOf s ^^^ x) h2
    simpa [← BitVec.xor_assoc] using this
  have := congrArg (fun x => BitVec.setWidth 8 x) h3
  simpa using this

end Sys2Proof.Machine
end

