-- ==== Sys2Proof/Laws/Framer.lean ====
section
/-! SUPPORT. The ADU framer's functions, each by what it says of its bytes (spec/43_adu_framer.md). -/

namespace Sys2Proof.Machine

/-! ### RTU -/

@[simp] theorem rtuWrap_length (u : Byte) (pdu : Bytes) : (rtuWrap u pdu).length = 3 + pdu.length := by
  simp only [rtuWrap, List.length_append, List.length_cons, le16_length]
  omega

/-- A wrapped PDU by its bytes (R290). -/
theorem rtuWrap_eq (u : Byte) (pdu : Bytes) :
    rtuWrap u pdu = (u :: pdu) ++ [loByte (crcOf (u :: pdu)).toNat, hiByte (crcOf (u :: pdu)).toNat] := rfl

/-- The last two bytes of a group, read little-endian, are its trailer (R73). -/
theorem rdle16_trailer (s : Bytes) (lo hi : Byte) :
    rdle16 (s ++ [lo, hi]) ((s ++ [lo, hi]).length - 2) = (hi ++ lo : BitVec 16) := by
  have h1 : byteAt (s ++ [lo, hi]) s.length = lo := by rw [byteAt_append_right (by omega)]; simp
  have h2 : byteAt (s ++ [lo, hi]) (s.length + 1) = hi := by rw [byteAt_append_right (by omega)]; simp
  have h3 := rdbe16_append_form [hi, lo] 0
  simp only [byteAt_zero, byteAt_succ, Nat.zero_add] at h3
  rw [← h3]
  rw [show (s ++ [lo, hi]).length - 2 = s.length by simp, rdle16, rdbe16, h1, h2]
  simp [Nat.add_comm]

/-- The covered bytes of a group are all but its last two (R256). -/
theorem slice_covered (s : Bytes) (lo hi : Byte) : slice (s ++ [lo, hi]) 0 ((s ++ [lo, hi]).length - 2) = s := by
  simp [slice]

/-- The CRC check of a group by its parts (R256). -/
theorem rtuCrcPasses_append (s : Bytes) (lo hi : Byte) :
    rtuCrcPasses (s ++ [lo, hi]) = decide (crcOf s = (hi ++ lo : BitVec 16)) := by
  rw [rtuCrcPasses, slice_covered, rdle16_trailer]

/-- A group of at least two bytes is its covered bytes and its trailer. -/
theorem exists_trailer {g : Bytes} (h : 2 ≤ g.length) : ∃ s lo hi, g = s ++ [lo, hi] := by
  have ht : (g.drop (g.length - 2)).length = 2 := by simp; omega
  match hg : g.drop (g.length - 2), ht with
  | [lo, hi], _ => exact ⟨g.take (g.length - 2), lo, hi, by rw [← hg, List.take_append_drop]⟩

/-- The trailer that `rtuWrap` appends is the CRC. -/
theorem trailer_bytes (c : U16) : (hiByte c.toNat ++ loByte c.toNat : BitVec 16) = c := by
  have := rdbe16_append_form [hiByte c.toNat, loByte c.toNat] 0
  simp only [byteAt_zero, byteAt_succ, Nat.zero_add] at this
  rw [← this, ← be16_eq]
  exact rdbe16_be16 c []

/-- A group that ends in its own CRC passes the check (R290, R256). -/
theorem rtuCrcPasses_rtuWrap (u : Byte) (pdu : Bytes) : rtuCrcPasses (rtuWrap u pdu) = true := by
  rw [rtuWrap_eq, rtuCrcPasses_append, trailer_bytes]
  simp

/-- `rtuTryUnwrap` never answers `Incomplete`: a group is closed (R292, R300). -/
theorem rtuTryUnwrap_ne_incomplete (g : Bytes) : rtuTryUnwrap g ≠ .incomplete := by
  rw [rtuTryUnwrap]
  split_ifs <;> simp

/-- When `rtuTryUnwrap` answers a frame, and which (R292). -/
theorem rtuTryUnwrap_eq_frame {g : Bytes} {f : Frame} (h : rtuTryUnwrap g = .frame f) :
    4 ≤ g.length ∧ rtuCrcPasses g = true ∧ f.transactionId = none ∧ f.consumed = g.length := by
  rw [rtuTryUnwrap] at h
  split_ifs at h with h1 h2
  obtain rfl := Unwrapped.frame.inj h
  exact ⟨by simpa [Config.rtuMinGroup] using h1, h2, rfl, rfl⟩

/-- A group that does not pass the check, or is too short, is `Corrupt` (R292, R295). -/
theorem rtuTryUnwrap_corrupt {g : Bytes} (h : g.length < 4 ∨ rtuCrcPasses g = false) :
    rtuTryUnwrap g = .corrupt g.length := by
  rw [rtuTryUnwrap]
  split_ifs with h1 h2
  · rfl
  · simp only [Config.rtuMinGroup] at h1
    rcases h with h | h
    · omega
    · simp [h] at h2
  · rfl

/-! ### TCP -/

@[simp] theorem tcpWrap_length (tid : U16) (u : Byte) (pdu : Bytes) : (tcpWrap tid u pdu).length = 7 + pdu.length := by
  simp only [tcpWrap, List.length_append, be16_length, List.length_cons, List.length_nil]

/-- A wrapped PDU by its bytes (R281). -/
theorem tcpWrap_eq (tid : U16) (u : Byte) {pdu : Bytes} (h : pdu.length ≤ 65534) :
    tcpWrap tid u pdu = hiByte tid.toNat :: loByte tid.toNat :: 0 :: 0 :: hiByte (1 + pdu.length) ::
      loByte (1 + pdu.length) :: u :: pdu := by
  rw [tcpWrap, be16_eq, be16_ofNat (by omega)]
  rfl

/-- A buffer shorter than the header waits (R282). -/
theorem tcpTryUnwrap_of_short {buf : Bytes} (h : buf.length < 7) : tcpTryUnwrap buf = .incomplete := by
  rw [tcpTryUnwrap, if_pos h]

/-- What a buffer that waits for more bytes looks like (R282, R311). -/
theorem tcpTryUnwrap_eq_incomplete {buf : Bytes} (h : tcpTryUnwrap buf = .incomplete) :
    buf.length < 7 ∨ (tcpHeaderCorrupt buf = false ∧ buf.length < 6 + (rdbe16 buf 4).toNat) := by
  rw [tcpTryUnwrap] at h
  split_ifs at h with h1 h2 h3
  · exact .inl h1
  · exact .inr ⟨by simpa using h2, h3⟩

/-- A `Corrupt` result consumes the whole buffer (R285). -/
theorem tcpTryUnwrap_eq_corrupt {buf : Bytes} {k : Nat} (h : tcpTryUnwrap buf = .corrupt k) :
    7 ≤ buf.length ∧ tcpHeaderCorrupt buf = true ∧ k = buf.length := by
  rw [tcpTryUnwrap] at h
  split_ifs at h with h1 h2
  exact ⟨by omega, h2, (Unwrapped.corrupt.inj h).symm⟩

/-- When `tcpTryUnwrap` answers a frame, and which (R282). -/
theorem tcpTryUnwrap_eq_frame {buf : Bytes} {f : Frame} (h : tcpTryUnwrap buf = .frame f) :
    tcpHeaderCorrupt buf = false ∧ 6 + (rdbe16 buf 4).toNat ≤ buf.length ∧ f =
      { unitId := byteAt buf 6, transactionId := some (rdbe16 buf 0), pdu := slice buf 7 (6 + (rdbe16 buf 4).toNat)
        consumed := 6 + (rdbe16 buf 4).toNat } := by
  rw [tcpTryUnwrap] at h
  split_ifs at h with h1 h2 h3
  exact ⟨by simpa using h2, by omega, (Unwrapped.frame.inj h).symm⟩

/-- A header that passes has a protocol id of 0 and a length in [2, 254] (R285). -/
theorem tcpHeaderCorrupt_eq_false {buf : Bytes} (h : tcpHeaderCorrupt buf = false) :
    rdbe16 buf 2 = 0 ∧ 2 ≤ (rdbe16 buf 4).toNat ∧ (rdbe16 buf 4).toNat ≤ 254 := by
  simp only [tcpHeaderCorrupt, Bool.or_eq_false_iff, decide_eq_false_iff_not, not_lt] at h
  exact ⟨not_not.1 h.1.1, h.1.2, h.2⟩

/-- A frame takes between 8 bytes and the whole buffer (R282, R285). -/
theorem tcpTryUnwrap_consumed {buf : Bytes} {f : Frame} (h : tcpTryUnwrap buf = .frame f) :
    8 ≤ f.consumed ∧ f.consumed ≤ buf.length := by
  obtain ⟨h1, h2, rfl⟩ := tcpTryUnwrap_eq_frame h
  have := tcpHeaderCorrupt_eq_false h1
  exact ⟨by show 8 ≤ 6 + _; omega, h2⟩

/-- A buffer that waits holds at most 259 bytes (R311). -/
theorem length_of_incomplete {buf : Bytes} (h : tcpTryUnwrap buf = .incomplete) : buf.length ≤ 259 := by
  rcases tcpTryUnwrap_eq_incomplete h with h1 | ⟨h1, h2⟩
  · omega
  · have := tcpHeaderCorrupt_eq_false h1
    omega

/-- The header check reads the first seven bytes only. -/
theorem tcpHeaderCorrupt_append {buf : Bytes} (h : 7 ≤ buf.length) (t : Bytes) :
    tcpHeaderCorrupt (buf ++ t) = tcpHeaderCorrupt buf := by
  rw [tcpHeaderCorrupt, tcpHeaderCorrupt, rdbe16_append_left (by omega), rdbe16_append_left (by omega)]

/-- A complete frame does not depend on the bytes after it (R282, R313). -/
theorem tcpTryUnwrap_frame_append {buf : Bytes} {f : Frame} (h : tcpTryUnwrap buf = .frame f) (t : Bytes) :
    tcpTryUnwrap (buf ++ t) = .frame f := by
  obtain ⟨h1, h2, rfl⟩ := tcpTryUnwrap_eq_frame h
  have h3 := tcpHeaderCorrupt_eq_false h1
  have hl : 8 ≤ buf.length := by omega
  rw [tcpTryUnwrap, tcpHeaderCorrupt_append (by omega), h1, rdbe16_append_left (by omega), rdbe16_append_left (by omega),
    byteAt_append_left (by omega), List.length_append, if_neg (by omega), if_neg (by simp), if_neg (by omega)]
  congr 2
  rw [slice, slice, List.drop_append_of_le_length (by omega), List.take_append_of_le_length (by simp; omega)]

end Sys2Proof.Machine
end

