-- ==== Sys2Proof/Laws/Pdu.lean ====
section
/-! SUPPORT. The PDU codec: exactly when an encode operation answers, and with which PDU; how `decode` chooses. -/

namespace Sys2Proof.Machine

@[simp] theorem isU16_iff (n : Nat) : isU16 n = true ↔ n < 65536 := by simp [isU16]

@[simp] theorem isU16_false_iff (n : Nat) : isU16 n = false ↔ 65536 ≤ n := by simp [isU16]

/-- The arguments an encode operation accepts (R151 to R175). -/
def opLegal : Op → Prop
  | .readCoils a q | .readDiscreteInputs a q => a < 65536 ∧ 1 ≤ q ∧ q ≤ 2000
  | .readHoldingRegisters a q | .readInputRegisters a q => a < 65536 ∧ 1 ≤ q ∧ q ≤ 125
  | .writeSingleCoil a _ => a < 65536
  | .writeSingleRegister a v => a < 65536 ∧ v < 65536
  | .writeMultipleCoils a vs => a < 65536 ∧ 1 ≤ vs.length ∧ vs.length ≤ 1968
  | .writeMultipleRegisters a vs => a < 65536 ∧ (∀ v ∈ vs, v < 65536) ∧ 1 ≤ vs.length ∧ vs.length ≤ 123

/-- The request PDU of an operation whose arguments are accepted (R101 to R104). -/
def opPdu : Op → RequestPdu
  | .readCoils a q => ⟨0x01, payloadTwoWords (.ofNat 16 a) (.ofNat 16 q)⟩
  | .readDiscreteInputs a q => ⟨0x02, payloadTwoWords (.ofNat 16 a) (.ofNat 16 q)⟩
  | .readHoldingRegisters a q => ⟨0x03, payloadTwoWords (.ofNat 16 a) (.ofNat 16 q)⟩
  | .readInputRegisters a q => ⟨0x04, payloadTwoWords (.ofNat 16 a) (.ofNat 16 q)⟩
  | .writeSingleCoil a v => ⟨0x05, payloadTwoWords (.ofNat 16 a) (coilWord v)⟩
  | .writeSingleRegister a v => ⟨0x06, payloadTwoWords (.ofNat 16 a) (.ofNat 16 v)⟩
  | .writeMultipleCoils a vs => ⟨0x0F, payloadWriteCoils (.ofNat 16 a) vs⟩
  | .writeMultipleRegisters a vs => ⟨0x10, payloadWriteRegs (.ofNat 16 a) (vs.map (.ofNat 16))⟩

theorem encodeRead_ok_iff (fc : Byte) (m a q : Nat) (r : RequestPdu) :
    encodeRead fc m a q = .ok r ↔
      (a < 65536 ∧ 1 ≤ q ∧ q ≤ m) ∧ r = ⟨fc, payloadTwoWords (.ofNat 16 a) (.ofNat 16 q)⟩ := by
  simp only [encodeRead, isU16_false_iff]
  split_ifs with h1 h2
  · simp; omega
  · simp; omega
  · simp only [Encoded.ok.injEq, eq_comm (a := r)]
    exact ⟨fun h => ⟨by omega, h⟩, fun h => h.2⟩

/-- An encode operation answers exactly on legal arguments, and with the PDU of its format. -/
theorem encodeOp_ok_iff (op : Op) (r : RequestPdu) : encodeOp op = .ok r ↔ opLegal op ∧ r = opPdu op := by
  cases op with
  | readCoils a q => exact encodeRead_ok_iff _ _ _ _ _
  | readDiscreteInputs a q => exact encodeRead_ok_iff _ _ _ _ _
  | readHoldingRegisters a q => exact encodeRead_ok_iff _ _ _ _ _
  | readInputRegisters a q => exact encodeRead_ok_iff _ _ _ _ _
  | writeSingleCoil a v =>
    simp only [encodeOp, encodeWriteSingleCoil, isU16_false_iff, opLegal, opPdu]
    split_ifs with h
    · simp; omega
    · simp only [Encoded.ok.injEq, eq_comm (a := r)]
      exact ⟨fun h' => ⟨by omega, h'⟩, fun h' => h'.2⟩
  | writeSingleRegister a v =>
    simp only [encodeOp, encodeWriteSingleRegister, Bool.and_eq_false_iff, isU16_false_iff, opLegal, opPdu]
    split_ifs with h
    · simp; omega
    · simp only [Encoded.ok.injEq, eq_comm (a := r)]
      exact ⟨fun h' => ⟨by omega, h'⟩, fun h' => h'.2⟩
  | writeMultipleCoils a vs =>
    simp only [encodeOp, encodeWriteMultipleCoils, isU16_false_iff, opLegal, opPdu]
    split_ifs with h h2
    · simp; omega
    · simp; omega
    · simp only [Encoded.ok.injEq, eq_comm (a := r)]
      exact ⟨fun h' => ⟨by omega, h'⟩, fun h' => h'.2⟩
  | writeMultipleRegisters a vs =>
    simp only [encodeOp, encodeWriteMultipleRegisters, opLegal, opPdu]
    split_ifs with h h2
    · have : ¬ (a < 65536 ∧ ∀ v ∈ vs, v < 65536) := by
        rintro ⟨h3, h4⟩
        have : (isU16 a && vs.all isU16) = true := by simpa using ⟨h3, h4⟩
        simp [this] at h
      simp
      tauto
    · simp
      omega
    · have h' : a < 65536 ∧ ∀ v ∈ vs, v < 65536 := by simpa using h
      simp only [Encoded.ok.injEq, eq_comm (a := r)]
      exact ⟨fun e => ⟨⟨h'.1, h'.2, by omega⟩, e⟩, fun e => e.2⟩

/-- `decode` of a non-empty PDU, by its first byte (R202). -/
theorem decodePdu_cons (fc : Byte) (rest : Bytes) :
    decodePdu (fc :: rest) =
      if fc.getLsbD 7 then decodeException (fc :: rest)
      else if fc = 0x01 then decodeBits 0x01 (fc :: rest)
      else if fc = 0x02 then decodeBits 0x02 (fc :: rest)
      else if fc = 0x03 then decodeRegs 0x03 (fc :: rest)
      else if fc = 0x04 then decodeRegs 0x04 (fc :: rest)
      else if fc = 0x05 then decodeWriteCoilEcho (fc :: rest)
      else if fc = 0x06 then decodeWriteRegEcho (fc :: rest)
      else if fc = 0x0F then decodeWriteMultiEcho 0x0F (fc :: rest)
      else if fc = 0x10 then decodeWriteMultiEcho 0x10 (fc :: rest)
      else .malformedPdu := by
  have h : ∀ b : Byte, (b &&& 0x80 ≠ 0) ↔ b.getLsbD 7 = true := by decide +kernel
  simp only [decodePdu, byteAt_zero, List.length_cons, Nat.succ_ne_zero, if_false, h, decodeUnimplemented]
  rfl

/-- A byte with bit 7 set is `0x80` and a seven-bit code (R107). -/
theorem exception_byte (fc : Byte) (h : fc.getLsbD 7 = true) : 0x80 ||| (fc.setWidth 7).setWidth 8 = fc := by
  revert fc
  decide +kernel

/-- The exception function code of a seven-bit code: bit 7 set, and the code below it (R107). -/
theorem exception_code (c : BitVec 7) :
    (0x80 ||| c.setWidth 8 : Byte).getLsbD 7 = true ∧ (0x80 ||| c.setWidth 8 : Byte).setWidth 7 = c ∧
      (0x80 ||| c.setWidth 8 : Byte) &&& 0x7F = c.setWidth 8 ∧
      (0x80 ||| c.setWidth 8 : Byte) = BitVec.ofNat 8 (128 + c.toNat) := by
  revert c
  decide +kernel

end Sys2Proof.Machine
end

