-- ==== Sys2Proof/Laws/State.lean ====
section
/-! SUPPORT. Each field of the state after each named update: no later proof unfolds a record update. -/

namespace Sys2Proof.Machine

/-- The fields of the state after `emit`. -/
@[simp] theorem emit_fields (a : Action) (s : State) :
    (emit a s).par = s.par ∧
    (emit a s).cfg = s.cfg ∧
    (emit a s).conn = s.conn ∧
    (emit a s).mode = s.mode ∧
    (emit a s).pending = s.pending ∧
    (emit a s).lastTid = s.lastTid ∧
    (emit a s).rxBuf = s.rxBuf ∧
    (emit a s).rxOverrun = s.rxOverrun ∧
    (emit a s).now = s.now ∧
    (emit a s).lastActivity = s.lastActivity ∧
    (emit a s).connectTag = s.connectTag ∧
    (emit a s).ctr = s.ctr ∧
    (emit a s).input = s.input ∧
    (emit a s).out = s.out ++ [a] ∧
    (emit a s).unitOut = s.unitOut := by
  refine ⟨?_, ?_, ?_, ?_, ?_, ?_, ?_, ?_, ?_, ?_, ?_, ?_, ?_, ?_, ?_⟩ <;> rfl

/-- The fields of the state after `present`. -/
@[simp] theorem present_fields (r : UnitOut) (s : State) :
    (present r s).par = s.par ∧
    (present r s).cfg = s.cfg ∧
    (present r s).conn = s.conn ∧
    (present r s).mode = s.mode ∧
    (present r s).pending = s.pending ∧
    (present r s).lastTid = s.lastTid ∧
    (present r s).rxBuf = s.rxBuf ∧
    (present r s).rxOverrun = s.rxOverrun ∧
    (present r s).now = s.now ∧
    (present r s).lastActivity = s.lastActivity ∧
    (present r s).connectTag = s.connectTag ∧
    (present r s).ctr = s.ctr ∧
    (present r s).input = s.input ∧
    (present r s).out = s.out ∧
    (present r s).unitOut = some r := by
  refine ⟨?_, ?_, ?_, ?_, ?_, ?_, ?_, ?_, ?_, ?_, ?_, ?_, ?_, ?_, ?_⟩ <;> rfl

/-- The fields of the state after `refuseRequest`. -/
@[simp] theorem refuseRequest_fields (tag : Tag) (o : CallOutcome) (s : State) :
    (refuseRequest tag o s).par = s.par ∧
    (refuseRequest tag o s).cfg = s.cfg ∧
    (refuseRequest tag o s).conn = s.conn ∧
    (refuseRequest tag o s).mode = s.mode ∧
    (refuseRequest tag o s).pending = s.pending ∧
    (refuseRequest tag o s).lastTid = s.lastTid ∧
    (refuseRequest tag o s).rxBuf = s.rxBuf ∧
    (refuseRequest tag o s).rxOverrun = s.rxOverrun ∧
    (refuseRequest tag o s).now = s.now ∧
    (refuseRequest tag o s).lastActivity = s.lastActivity ∧
    (refuseRequest tag o s).connectTag = s.connectTag ∧
    (refuseRequest tag o s).ctr = s.ctr ∧
    (refuseRequest tag o s).input = s.input ∧
    (refuseRequest tag o s).out = s.out ++ [.requestResult tag o] ∧
    (refuseRequest tag o s).unitOut = s.unitOut := by
  refine ⟨?_, ?_, ?_, ?_, ?_, ?_, ?_, ?_, ?_, ?_, ?_, ?_, ?_, ?_, ?_⟩ <;> rfl

/-- The fields of the state after `bufAppend`. -/
@[simp] theorem bufAppend_fields (b : Byte) (s : State) :
    (bufAppend b s).par = s.par ∧
    (bufAppend b s).cfg = s.cfg ∧
    (bufAppend b s).conn = s.conn ∧
    (bufAppend b s).mode = s.mode ∧
    (bufAppend b s).pending = s.pending ∧
    (bufAppend b s).lastTid = s.lastTid ∧
    (bufAppend b s).rxBuf = s.rxBuf ++ [b] ∧
    (bufAppend b s).rxOverrun = s.rxOverrun ∧
    (bufAppend b s).now = s.now ∧
    (bufAppend b s).lastActivity = s.lastActivity ∧
    (bufAppend b s).connectTag = s.connectTag ∧
    (bufAppend b s).ctr = s.ctr ∧
    (bufAppend b s).input = s.input ∧
    (bufAppend b s).out = s.out ∧
    (bufAppend b s).unitOut = s.unitOut := by
  refine ⟨?_, ?_, ?_, ?_, ?_, ?_, ?_, ?_, ?_, ?_, ?_, ?_, ?_, ?_, ?_⟩ <;> rfl

/-- The fields of the state after `bufDrop`. -/
@[simp] theorem bufDrop_fields (n : Nat) (s : State) :
    (bufDrop n s).par = s.par ∧
    (bufDrop n s).cfg = s.cfg ∧
    (bufDrop n s).conn = s.conn ∧
    (bufDrop n s).mode = s.mode ∧
    (bufDrop n s).pending = s.pending ∧
    (bufDrop n s).lastTid = s.lastTid ∧
    (bufDrop n s).rxBuf = s.rxBuf.drop n ∧
    (bufDrop n s).rxOverrun = s.rxOverrun ∧
    (bufDrop n s).now = s.now ∧
    (bufDrop n s).lastActivity = s.lastActivity ∧
    (bufDrop n s).connectTag = s.connectTag ∧
    (bufDrop n s).ctr = s.ctr ∧
    (bufDrop n s).input = s.input ∧
    (bufDrop n s).out = s.out ∧
    (bufDrop n s).unitOut = s.unitOut := by
  refine ⟨?_, ?_, ?_, ?_, ?_, ?_, ?_, ?_, ?_, ?_, ?_, ?_, ?_, ?_, ?_⟩ <;> rfl

/-- The fields of the state after `bufClear`. -/
@[simp] theorem bufClear_fields (s : State) :
    (bufClear s).par = s.par ∧
    (bufClear s).cfg = s.cfg ∧
    (bufClear s).conn = s.conn ∧
    (bufClear s).mode = s.mode ∧
    (bufClear s).pending = s.pending ∧
    (bufClear s).lastTid = s.lastTid ∧
    (bufClear s).rxBuf = [] ∧
    (bufClear s).rxOverrun = s.rxOverrun ∧
    (bufClear s).now = s.now ∧
    (bufClear s).lastActivity = s.lastActivity ∧
    (bufClear s).connectTag = s.connectTag ∧
    (bufClear s).ctr = s.ctr ∧
    (bufClear s).input = s.input ∧
    (bufClear s).out = s.out ∧
    (bufClear s).unitOut = s.unitOut := by
  refine ⟨?_, ?_, ?_, ?_, ?_, ?_, ?_, ?_, ?_, ?_, ?_, ?_, ?_, ?_, ?_⟩ <;> rfl

/-- The fields of the state after `setOverrun`. -/
@[simp] theorem setOverrun_fields (v : Bool) (s : State) :
    (setOverrun v s).par = s.par ∧
    (setOverrun v s).cfg = s.cfg ∧
    (setOverrun v s).conn = s.conn ∧
    (setOverrun v s).mode = s.mode ∧
    (setOverrun v s).pending = s.pending ∧
    (setOverrun v s).lastTid = s.lastTid ∧
    (setOverrun v s).rxBuf = s.rxBuf ∧
    (setOverrun v s).rxOverrun = v ∧
    (setOverrun v s).now = s.now ∧
    (setOverrun v s).lastActivity = s.lastActivity ∧
    (setOverrun v s).connectTag = s.connectTag ∧
    (setOverrun v s).ctr = s.ctr ∧
    (setOverrun v s).input = s.input ∧
    (setOverrun v s).out = s.out ∧
    (setOverrun v s).unitOut = s.unitOut := by
  refine ⟨?_, ?_, ?_, ?_, ?_, ?_, ?_, ?_, ?_, ?_, ?_, ?_, ?_, ?_, ?_⟩ <;> rfl

/-- The fields of the state after `dropLink`. -/
@[simp] theorem dropLink_fields (s : State) :
    (dropLink s).par = s.par ∧
    (dropLink s).cfg = s.cfg ∧
    (dropLink s).conn = s.conn ∧
    (dropLink s).mode = s.mode ∧
    (dropLink s).pending = s.pending ∧
    (dropLink s).lastTid = s.lastTid ∧
    (dropLink s).rxBuf = [] ∧
    (dropLink s).rxOverrun = false ∧
    (dropLink s).now = s.now ∧
    (dropLink s).lastActivity = s.lastActivity ∧
    (dropLink s).connectTag = s.connectTag ∧
    (dropLink s).ctr = s.ctr ∧
    (dropLink s).input = s.input ∧
    (dropLink s).out = s.out ∧
    (dropLink s).unitOut = s.unitOut := by
  refine ⟨?_, ?_, ?_, ?_, ?_, ?_, ?_, ?_, ?_, ?_, ?_, ?_, ?_, ?_, ?_⟩ <;> rfl

/-- The fields of the state after `setConn`. -/
@[simp] theorem setConn_fields (c : ConnState) (s : State) :
    (setConn c s).par = s.par ∧
    (setConn c s).cfg = s.cfg ∧
    (setConn c s).conn = c ∧
    (setConn c s).mode = s.mode ∧
    (setConn c s).pending = s.pending ∧
    (setConn c s).lastTid = s.lastTid ∧
    (setConn c s).rxBuf = s.rxBuf ∧
    (setConn c s).rxOverrun = s.rxOverrun ∧
    (setConn c s).now = s.now ∧
    (setConn c s).lastActivity = s.lastActivity ∧
    (setConn c s).connectTag = s.connectTag ∧
    (setConn c s).ctr = s.ctr ∧
    (setConn c s).input = s.input ∧
    (setConn c s).out = s.out ∧
    (setConn c s).unitOut = s.unitOut := by
  refine ⟨?_, ?_, ?_, ?_, ?_, ?_, ?_, ?_, ?_, ?_, ?_, ?_, ?_, ?_, ?_⟩ <;> rfl

/-- The fields of the state after `failAll`. -/
@[simp] theorem failAll_fields (o : CallOutcome) (s : State) :
    (failAll o s).par = s.par ∧
    (failAll o s).cfg = s.cfg ∧
    (failAll o s).conn = s.conn ∧
    (failAll o s).mode = s.mode ∧
    (failAll o s).pending = [] ∧
    (failAll o s).lastTid = s.lastTid ∧
    (failAll o s).rxBuf = s.rxBuf ∧
    (failAll o s).rxOverrun = s.rxOverrun ∧
    (failAll o s).now = s.now ∧
    (failAll o s).lastActivity = s.lastActivity ∧
    (failAll o s).connectTag = s.connectTag ∧
    (failAll o s).ctr = s.ctr ∧
    (failAll o s).input = s.input ∧
    (failAll o s).out = s.out ++ s.pending.map (fun p => .requestResult p.tag o) ∧
    (failAll o s).unitOut = s.unitOut := by
  refine ⟨?_, ?_, ?_, ?_, ?_, ?_, ?_, ?_, ?_, ?_, ?_, ?_, ?_, ?_, ?_⟩ <;> rfl

/-- The fields of the state after `pendingAdd`. -/
@[simp] theorem pendingAdd_fields (p : Pending) (s : State) :
    (pendingAdd p s).par = s.par ∧
    (pendingAdd p s).cfg = s.cfg ∧
    (pendingAdd p s).conn = s.conn ∧
    (pendingAdd p s).mode = s.mode ∧
    (pendingAdd p s).pending = s.pending ++ [p] ∧
    (pendingAdd p s).lastTid = s.lastTid ∧
    (pendingAdd p s).rxBuf = s.rxBuf ∧
    (pendingAdd p s).rxOverrun = s.rxOverrun ∧
    (pendingAdd p s).now = s.now ∧
    (pendingAdd p s).lastActivity = s.lastActivity ∧
    (pendingAdd p s).connectTag = s.connectTag ∧
    (pendingAdd p s).ctr = s.ctr ∧
    (pendingAdd p s).input = s.input ∧
    (pendingAdd p s).out = s.out ∧
    (pendingAdd p s).unitOut = s.unitOut := by
  refine ⟨?_, ?_, ?_, ?_, ?_, ?_, ?_, ?_, ?_, ?_, ?_, ?_, ?_, ?_, ?_⟩ <;> rfl

/-- The fields of the state after `pendingRemove`. -/
@[simp] theorem pendingRemove_fields (test : Pending → Bool) (s : State) :
    (pendingRemove test s).par = s.par ∧
    (pendingRemove test s).cfg = s.cfg ∧
    (pendingRemove test s).conn = s.conn ∧
    (pendingRemove test s).mode = s.mode ∧
    (pendingRemove test s).pending = s.pending.eraseP test ∧
    (pendingRemove test s).lastTid = s.lastTid ∧
    (pendingRemove test s).rxBuf = s.rxBuf ∧
    (pendingRemove test s).rxOverrun = s.rxOverrun ∧
    (pendingRemove test s).now = s.now ∧
    (pendingRemove test s).lastActivity = s.lastActivity ∧
    (pendingRemove test s).connectTag = s.connectTag ∧
    (pendingRemove test s).ctr = s.ctr ∧
    (pendingRemove test s).input = s.input ∧
    (pendingRemove test s).out = s.out ∧
    (pendingRemove test s).unitOut = s.unitOut := by
  refine ⟨?_, ?_, ?_, ?_, ?_, ?_, ?_, ?_, ?_, ?_, ?_, ?_, ?_, ?_, ?_⟩ <;> rfl

/-- The fields of the state after `countTransmit`. -/
@[simp] theorem countTransmit_fields (frame : Bytes) (s : State) :
    (countTransmit frame s).par = s.par ∧
    (countTransmit frame s).cfg = s.cfg ∧
    (countTransmit frame s).conn = s.conn ∧
    (countTransmit frame s).mode = s.mode ∧
    (countTransmit frame s).pending = s.pending ∧
    (countTransmit frame s).lastTid = s.lastTid ∧
    (countTransmit frame s).rxBuf = s.rxBuf ∧
    (countTransmit frame s).rxOverrun = s.rxOverrun ∧
    (countTransmit frame s).now = s.now ∧
    (countTransmit frame s).lastActivity = s.now ∧
    (countTransmit frame s).connectTag = s.connectTag ∧
    (countTransmit frame s).ctr = { s.ctr with bytesSent := s.ctr.bytesSent + BitVec.ofNat 64 frame.length, framesSent := s.ctr.framesSent + 1 } ∧
    (countTransmit frame s).input = s.input ∧
    (countTransmit frame s).out = s.out ∧
    (countTransmit frame s).unitOut = s.unitOut := by
  refine ⟨?_, ?_, ?_, ?_, ?_, ?_, ?_, ?_, ?_, ?_, ?_, ?_, ?_, ?_, ?_⟩ <;> rfl

/-- The fields of the state after `countRetry`. -/
@[simp] theorem countRetry_fields (s : State) :
    (countRetry s).par = s.par ∧
    (countRetry s).cfg = s.cfg ∧
    (countRetry s).conn = s.conn ∧
    (countRetry s).mode = s.mode ∧
    (countRetry s).pending = s.pending ∧
    (countRetry s).lastTid = s.lastTid ∧
    (countRetry s).rxBuf = s.rxBuf ∧
    (countRetry s).rxOverrun = s.rxOverrun ∧
    (countRetry s).now = s.now ∧
    (countRetry s).lastActivity = s.lastActivity ∧
    (countRetry s).connectTag = s.connectTag ∧
    (countRetry s).ctr = { s.ctr with retries := s.ctr.retries + 1 } ∧
    (countRetry s).input = s.input ∧
    (countRetry s).out = s.out ∧
    (countRetry s).unitOut = s.unitOut := by
  refine ⟨?_, ?_, ?_, ?_, ?_, ?_, ?_, ?_, ?_, ?_, ?_, ?_, ?_, ?_, ?_⟩ <;> rfl

/-- The fields of the state after `countReceive`. -/
@[simp] theorem countReceive_fields (bytes : Bytes) (s : State) :
    (countReceive bytes s).par = s.par ∧
    (countReceive bytes s).cfg = s.cfg ∧
    (countReceive bytes s).conn = s.conn ∧
    (countReceive bytes s).mode = s.mode ∧
    (countReceive bytes s).pending = s.pending ∧
    (countReceive bytes s).lastTid = s.lastTid ∧
    (countReceive bytes s).rxBuf = s.rxBuf ∧
    (countReceive bytes s).rxOverrun = s.rxOverrun ∧
    (countReceive bytes s).now = s.now ∧
    (countReceive bytes s).lastActivity = s.now ∧
    (countReceive bytes s).connectTag = s.connectTag ∧
    (countReceive bytes s).ctr = { s.ctr with bytesReceived := s.ctr.bytesReceived + BitVec.ofNat 64 bytes.length } ∧
    (countReceive bytes s).input = s.input ∧
    (countReceive bytes s).out = s.out ∧
    (countReceive bytes s).unitOut = s.unitOut := by
  refine ⟨?_, ?_, ?_, ?_, ?_, ?_, ?_, ?_, ?_, ?_, ?_, ?_, ?_, ?_, ?_⟩ <;> rfl

/-- The fields of the state after `countFrame`. -/
@[simp] theorem countFrame_fields (s : State) :
    (countFrame s).par = s.par ∧
    (countFrame s).cfg = s.cfg ∧
    (countFrame s).conn = s.conn ∧
    (countFrame s).mode = s.mode ∧
    (countFrame s).pending = s.pending ∧
    (countFrame s).lastTid = s.lastTid ∧
    (countFrame s).rxBuf = s.rxBuf ∧
    (countFrame s).rxOverrun = s.rxOverrun ∧
    (countFrame s).now = s.now ∧
    (countFrame s).lastActivity = s.lastActivity ∧
    (countFrame s).connectTag = s.connectTag ∧
    (countFrame s).ctr = { s.ctr with framesReceived := s.ctr.framesReceived + 1 } ∧
    (countFrame s).input = s.input ∧
    (countFrame s).out = s.out ∧
    (countFrame s).unitOut = s.unitOut := by
  refine ⟨?_, ?_, ?_, ?_, ?_, ?_, ?_, ?_, ?_, ?_, ?_, ?_, ?_, ?_, ?_⟩ <;> rfl

/-- The fields of the state after `retransmit`. -/
@[simp] theorem retransmit_fields (p : Pending) (s : State) :
    (retransmit p s).par = s.par ∧
    (retransmit p s).cfg = s.cfg ∧
    (retransmit p s).conn = s.conn ∧
    (retransmit p s).mode = s.mode ∧
    (retransmit p s).pending = s.pending ∧
    (retransmit p s).lastTid = s.lastTid ∧
    (retransmit p s).rxBuf = s.rxBuf ∧
    (retransmit p s).rxOverrun = s.rxOverrun ∧
    (retransmit p s).now = s.now ∧
    (retransmit p s).lastActivity = s.now ∧
    (retransmit p s).connectTag = s.connectTag ∧
    (retransmit p s).ctr = { s.ctr with retries := s.ctr.retries + 1, bytesSent := s.ctr.bytesSent + BitVec.ofNat 64 p.originalFrame.length, framesSent := s.ctr.framesSent + 1 } ∧
    (retransmit p s).input = s.input ∧
    (retransmit p s).out = s.out ++ [.transportWrite p.originalFrame] ∧
    (retransmit p s).unitOut = s.unitOut := by
  refine ⟨?_, ?_, ?_, ?_, ?_, ?_, ?_, ?_, ?_, ?_, ?_, ?_, ?_, ?_, ?_⟩ <;> rfl

/-- The fields of the state after `answerConnect`. -/
@[simp] theorem answerConnect_fields (o : CallOutcome) (s : State) :
    (answerConnect o s).par = s.par ∧
    (answerConnect o s).cfg = s.cfg ∧
    (answerConnect o s).conn = s.conn ∧
    (answerConnect o s).mode = s.mode ∧
    (answerConnect o s).pending = s.pending ∧
    (answerConnect o s).lastTid = s.lastTid ∧
    (answerConnect o s).rxBuf = s.rxBuf ∧
    (answerConnect o s).rxOverrun = s.rxOverrun ∧
    (answerConnect o s).now = s.now ∧
    (answerConnect o s).lastActivity = s.lastActivity ∧
    (answerConnect o s).connectTag = none ∧
    (answerConnect o s).ctr = s.ctr ∧
    (answerConnect o s).input = s.input ∧
    (answerConnect o s).out = s.out ++ s.connectTag.toList.map (fun c => .connectResult c o) ∧
    (answerConnect o s).unitOut = s.unitOut := by
  cases h : s.connectTag <;> simp [answerConnect, h]

/-- The fields of the reset state (R55). -/
@[simp] theorem reset_fields :
    State.reset.par = Params.reset ∧ State.reset.cfg = Cfg.reset ∧ State.reset.conn = .disconnected ∧
    State.reset.mode = .tcp ∧ State.reset.pending = [] ∧ State.reset.lastTid = 0 ∧ State.reset.rxBuf = [] ∧
    State.reset.rxOverrun = false ∧ State.reset.now = 0 ∧ State.reset.lastActivity = 0 ∧
    State.reset.connectTag = none ∧ State.reset.ctr = Counters.zero ∧ State.reset.input = [] ∧
    State.reset.out = [] ∧ State.reset.unitOut = none := by
  refine ⟨?_, ?_, ?_, ?_, ?_, ?_, ?_, ?_, ?_, ?_, ?_, ?_, ?_, ?_, ?_⟩ <;> rfl

/-- Two states that agree on every field are equal. -/
theorem State.ext_fields {s t : State} (h : s.par = t.par ∧ s.cfg = t.cfg ∧ s.conn = t.conn ∧ s.mode = t.mode ∧
    s.pending = t.pending ∧ s.lastTid = t.lastTid ∧ s.rxBuf = t.rxBuf ∧ s.rxOverrun = t.rxOverrun ∧ s.now = t.now ∧
    s.lastActivity = t.lastActivity ∧ s.connectTag = t.connectTag ∧ s.ctr = t.ctr ∧ s.input = t.input ∧
    s.out = t.out ∧ s.unitOut = t.unitOut) : s = t := by
  cases s
  cases t
  simpa using h

end Sys2Proof.Machine
end

