-- ==== Sys2Proof/Laws/Receive.lean ====
section
/-! SUPPORT. What receiving can do: one frame, the extraction loop, one byte, one chunk (spec/44_transaction_engine.md R360 to
R366, spec/43_adu_framer.md R300 to R310). -/

namespace Sys2Proof.Machine

/-! ### One frame -/

/-- Everything `engineFrame` can do (R362 to R366): the frame is counted; it matches no entry, or its PDU does not answer the
entry it matches, and nothing else happens; or it resolves the first entry it matches. -/
theorem engineFrame_cases (f : Frame) (s : State) :
    (engineFrame f s = countFrame s ∧
      ∀ p, s.pending.find? (matchesFrame s.mode f) = some p → resolution p.functionCode (decodePdu f.pdu) = none) ∨
    ∃ p o, s.pending.find? (matchesFrame s.mode f) = some p ∧ resolution p.functionCode (decodePdu f.pdu) = some o ∧
      engineFrame f s = { s with
        pending := s.pending.eraseP (matchesFrame s.mode f)
        out := s.out ++ [.requestResult p.tag o]
        ctr := { s.ctr with framesReceived := s.ctr.framesReceived + 1 } } := by
  rw [engineFrame]
  cases hp : s.pending.find? (matchesFrame s.mode f) with
  | none => exact .inl ⟨rfl, by simp⟩
  | some p =>
    simp only [resolveEntry]
    cases hr : resolution p.functionCode (decodePdu f.pdu) with
    | none => exact .inl ⟨rfl, by simpa using hr⟩
    | some o => exact .inr ⟨p, o, rfl, hr, rfl⟩

/-- What `engineFrame` leaves alone. -/
@[simp] theorem engineFrame_frame (f : Frame) (s : State) :
    (engineFrame f s).par = s.par ∧ (engineFrame f s).cfg = s.cfg ∧ (engineFrame f s).conn = s.conn ∧
    (engineFrame f s).mode = s.mode ∧ (engineFrame f s).lastTid = s.lastTid ∧ (engineFrame f s).rxBuf = s.rxBuf ∧
    (engineFrame f s).rxOverrun = s.rxOverrun ∧ (engineFrame f s).now = s.now ∧
    (engineFrame f s).lastActivity = s.lastActivity ∧ (engineFrame f s).connectTag = s.connectTag ∧
    (engineFrame f s).input = s.input ∧ (engineFrame f s).unitOut = s.unitOut := by
  rcases engineFrame_cases f s with ⟨h, -⟩ | ⟨p, o, -, -, h⟩ <;> rw [h] <;> simp

/-- A frame is handled the same whatever the reassembly buffer holds. -/
theorem engineFrame_setBuf (f : Frame) (s : State) (buf : Bytes) :
    engineFrame f { s with rxBuf := buf } = { engineFrame f s with rxBuf := buf } := by
  simp only [engineFrame]
  cases s.pending.find? (matchesFrame s.mode f) with
  | none => rfl
  | some p =>
    simp only [resolveEntry]
    cases resolution p.functionCode (decodePdu f.pdu) <;> rfl

/-- Counting a receive and handling a frame commute. -/
theorem engineFrame_countReceive (f : Frame) (bytes : Bytes) (s : State) :
    engineFrame f (countReceive bytes s) = countReceive bytes (engineFrame f s) := by
  simp only [engineFrame, countReceive_fields]
  cases s.pending.find? (matchesFrame s.mode f) with
  | none => rfl
  | some p =>
    simp only [resolveEntry]
    cases resolution p.functionCode (decodePdu f.pdu) <;> rfl

/-! ### The extraction loop -/

/-- A bound on the loop above the buffer's length makes no difference (log 14). -/
theorem extractTcpLoop_fuel {n m : Nat} {s : State} (hn : s.rxBuf.length < n) (hm : s.rxBuf.length < m) :
    extractTcpLoop n s = extractTcpLoop m s := by
  induction n generalizing m s with
  | zero => omega
  | succ n ih =>
    obtain _ | m := m
    · omega
    rw [extractTcpLoop, extractTcpLoop]
    cases h : tcpTryUnwrap s.rxBuf with
    | incomplete => rfl
    | corrupt k => rfl
    | frame f =>
      have hc := tcpTryUnwrap_consumed h
      apply ih <;> simp only [engineFrame_frame, bufDrop_fields, List.length_drop] <;> omega

/-- What the loop leaves alone. -/
@[simp] theorem extractTcpLoop_frame (n : Nat) (s : State) :
    (extractTcpLoop n s).par = s.par ∧ (extractTcpLoop n s).cfg = s.cfg ∧ (extractTcpLoop n s).conn = s.conn ∧
    (extractTcpLoop n s).mode = s.mode ∧ (extractTcpLoop n s).lastTid = s.lastTid ∧
    (extractTcpLoop n s).rxOverrun = s.rxOverrun ∧ (extractTcpLoop n s).now = s.now ∧
    (extractTcpLoop n s).lastActivity = s.lastActivity ∧ (extractTcpLoop n s).connectTag = s.connectTag ∧
    (extractTcpLoop n s).input = s.input ∧ (extractTcpLoop n s).unitOut = s.unitOut := by
  induction n generalizing s with
  | zero => simp [extractTcpLoop]
  | succ n ih =>
    rw [extractTcpLoop]
    cases tcpTryUnwrap s.rxBuf with
    | incomplete => simp
    | corrupt k => simp
    | frame f => simp only [ih, engineFrame_frame, bufDrop_fields, and_self]

/-- The buffer the loop leaves holds no complete frame and no corrupt header (R310). -/
theorem extractTcpLoop_incomplete {n : Nat} {s : State} (hn : s.rxBuf.length < n) :
    tcpTryUnwrap (extractTcpLoop n s).rxBuf = .incomplete := by
  induction n generalizing s with
  | zero => omega
  | succ n ih =>
    rw [extractTcpLoop]
    cases h : tcpTryUnwrap s.rxBuf with
    | incomplete => exact h
    | corrupt k =>
      obtain ⟨-, -, rfl⟩ := tcpTryUnwrap_eq_corrupt h
      apply tcpTryUnwrap_of_short
      simp
    | frame f =>
      have hc := tcpTryUnwrap_consumed h
      apply ih
      simp only [engineFrame_frame, bufDrop_fields, List.length_drop]
      omega

/-- Counting a receive and the loop commute. -/
theorem extractTcpLoop_countReceive (n : Nat) (bytes : Bytes) (s : State) :
    extractTcpLoop n (countReceive bytes s) = countReceive bytes (extractTcpLoop n s) := by
  induction n generalizing s with
  | zero => rfl
  | succ n ih =>
    rw [extractTcpLoop, extractTcpLoop, (countReceive_fields bytes s).2.2.2.2.2.2.1]
    cases tcpTryUnwrap s.rxBuf with
    | incomplete => rfl
    | corrupt k => rfl
    | frame f => exact (congrArg (extractTcpLoop n) (engineFrame_countReceive f bytes (bufDrop f.consumed s))).trans (ih _)

/-- A property that dropping bytes and handling a frame keep, the loop keeps. -/
theorem extractTcpLoop_induct {P : State → Prop} (hd : ∀ k s, P s → P (bufDrop k s))
    (hf : ∀ f s, P s → P (engineFrame f s)) (n : Nat) {s : State} (h : P s) : P (extractTcpLoop n s) := by
  induction n generalizing s with
  | zero => exact h
  | succ n ih =>
    rw [extractTcpLoop]
    cases tcpTryUnwrap s.rxBuf with
    | incomplete => exact h
    | corrupt k => exact hd _ _ h
    | frame f => exact ih (hf _ _ (hd _ _ h))

/-! ### One byte and one chunk -/

/-- What receiving a byte leaves alone. -/
@[simp] theorem rxByte_frame (s : State) (b : Byte) :
    (rxByte s b).par = s.par ∧ (rxByte s b).cfg = s.cfg ∧ (rxByte s b).conn = s.conn ∧ (rxByte s b).mode = s.mode ∧
    (rxByte s b).lastTid = s.lastTid ∧ (rxByte s b).now = s.now ∧ (rxByte s b).lastActivity = s.lastActivity ∧
    (rxByte s b).connectTag = s.connectTag ∧ (rxByte s b).input = s.input ∧ (rxByte s b).unitOut = s.unitOut := by
  rw [rxByte]
  cases h : s.mode with
  | tcp => simp [tcpRxByte, extractTcp, h]
  | rtu =>
    simp only [rtuRxByte]
    split_ifs <;> simp [h]

/-- Counting a receive and receiving a byte commute. -/
theorem rxByte_countReceive (bytes : Bytes) (s : State) (b : Byte) :
    rxByte (countReceive bytes s) b = countReceive bytes (rxByte s b) := by
  simp only [rxByte, countReceive_fields]
  cases s.mode with
  | tcp => exact extractTcpLoop_countReceive _ bytes (bufAppend b s)
  | rtu =>
    simp only [rtuRxByte, countReceive_fields]
    split_ifs <;> rfl

/-- Counting a receive commutes with receiving a chunk. -/
theorem foldl_rxByte_countReceive (bytes chunk : Bytes) (s : State) :
    chunk.foldl rxByte (countReceive bytes s) = countReceive bytes (chunk.foldl rxByte s) := by
  induction chunk generalizing s with
  | nil => rfl
  | cons b chunk ih => rw [List.foldl_cons, List.foldl_cons, rxByte_countReceive, ih]

/-- What receiving bytes leaves alone. -/
@[simp] theorem foldl_rxByte_frame (chunk : Bytes) (s : State) :
    (chunk.foldl rxByte s).par = s.par ∧ (chunk.foldl rxByte s).cfg = s.cfg ∧ (chunk.foldl rxByte s).conn = s.conn ∧
    (chunk.foldl rxByte s).mode = s.mode ∧ (chunk.foldl rxByte s).lastTid = s.lastTid ∧
    (chunk.foldl rxByte s).now = s.now ∧ (chunk.foldl rxByte s).lastActivity = s.lastActivity ∧
    (chunk.foldl rxByte s).connectTag = s.connectTag ∧ (chunk.foldl rxByte s).input = s.input ∧
    (chunk.foldl rxByte s).unitOut = s.unitOut := by
  induction chunk generalizing s with
  | nil => simp
  | cons b chunk ih => simp only [List.foldl_cons, ih, rxByte_frame, and_self]

/-- A property that each received byte keeps, a chunk keeps. -/
theorem foldl_rxByte_induct {P : State → Prop} (hb : ∀ s b, P s → P (rxByte s b)) (chunk : Bytes) {s : State} (h : P s) :
    P (chunk.foldl rxByte s) := by
  induction chunk generalizing s with
  | nil => exact h
  | cons b chunk ih => exact ih (hb s b h)

/-- A property that dropping and appending bytes, the overrun bit and frames keep, each received byte keeps. -/
theorem rxByte_induct {P : State → Prop} (ha : ∀ b s, P s → P (bufAppend b s)) (hd : ∀ k s, P s → P (bufDrop k s))
    (hf : ∀ f s, P s → P (engineFrame f s)) (ho : ∀ s, P s → P (setOverrun true s)) (s : State) (b : Byte) (h : P s) :
    P (rxByte s b) := by
  rw [rxByte]
  cases s.mode with
  | tcp => exact extractTcpLoop_induct hd hf _ (ha b s h)
  | rtu =>
    simp only [rtuRxByte]
    split_ifs
    · exact ho s h
    · exact ha b s h

/-- Everything `RxGap` can do (R300). -/
theorem execRxGap_cases (s : State) :
    execRxGap s = .next s ∨ (s.mode = .rtu ∧ s.conn = .connected ∧
      (execRxGap s = .next (dropLink s) ∨
        ∃ f, s.rxOverrun = false ∧ rtuTryUnwrap s.rxBuf = .frame f ∧ execRxGap s = .next (engineFrame f (dropLink s)))) := by
  rw [execRxGap]
  split_ifs with h1 h2
  · exact .inl rfl
  · exact .inl rfl
  · simp only [not_or, not_not] at h1
    refine .inr ⟨h1.1, h1.2, ?_⟩
    rw [gapResult]
    cases ho : s.rxOverrun with
    | true => exact .inl rfl
    | false =>
      simp only [Bool.false_eq_true, if_false]
      cases hu : rtuTryUnwrap s.rxBuf with
      | incomplete => exact .inl rfl
      | corrupt k => exact .inl rfl
      | frame f => exact .inr ⟨f, trivial, rfl, rfl⟩

end Sys2Proof.Machine
end

