-- ==== Sys2Proof/Laws/Request.lean ====
section
/-! SUPPORT. What a Request can do, step by step (spec/44_transaction_engine.md R352 to R358). -/

namespace Sys2Proof.Machine

/-- Step 1 passes exactly when the three registers are set and in range (R352). -/
theorem requestCfg_eq_some {c : Cfg} {t k u : Nat} (h : c.Usable t k u) :
    requestCfg c = some { timeoutS := t, retries := k, unitId := u } := by
  obtain ⟨h1, h2, h3, h4, h5, h6, h7, h8⟩ := h
  rw [requestCfg, h1, h4, h6]
  simp only []
  rw [if_neg (by omega), if_neg (by omega), if_neg (by omega)]

/-- What a request copies is usable (R352). -/
theorem usable_of_requestCfg {c : Cfg} {r : RequestCfg} (h : requestCfg c = some r) :
    c.Usable r.timeoutS r.retries r.unitId := by
  rw [requestCfg] at h
  split at h
  · rename_i t k u h1 h2 h3
    split_ifs at h with g1 g2 g3
    obtain rfl := Option.some.inj h
    exact ⟨h1, by show 1 ≤ t; omega, by show t ≤ 120; omega, h2, by show k ≤ 10; omega, h3, by show 1 ≤ u; omega,
      by show u ≤ 255; omega⟩
  · cases h

/-- Everything allocation can do (R355, R356): the fresh TCP id, or the free RTU slot. -/
theorem allocate_eq_some {s s1 : State} {id : U16} (h : allocate s = some (id, s1)) :
    (s.mode = .tcp ∧ id = candidateTid s ∧ (∀ p ∈ s.pending, p.id ≠ id) ∧ s.pending.length ≠ s.par.maxPending ∧
      s1 = { s with lastTid := id }) ∨
    (s.mode = .rtu ∧ id = 0 ∧ s.pending = [] ∧ s1 = s) := by
  rw [allocate] at h
  cases hm : s.mode with
  | tcp =>
    simp only [hm, allocateTcp] at h
    split_ifs at h with h1 h2
    obtain ⟨rfl, rfl⟩ := Prod.mk.inj (Option.some.inj h)
    refine .inl ⟨rfl, rfl, ?_, h2, rfl⟩
    intro p hp he
    exact h1 (List.any_eq_true.2 ⟨p, hp, by simpa using he⟩)
  | rtu =>
    simp only [hm, allocateRtu] at h
    split_ifs at h with h1
    obtain ⟨rfl, rfl⟩ := Prod.mk.inj (Option.some.inj h)
    exact .inr ⟨rfl, rfl, not_not.1 h1, rfl⟩

/-- The candidate id is never 0xFFFF (R43, R355). -/
theorem candidateTid_ne (s : State) : candidateTid s ≠ 0xFFFF := by
  intro h
  have := congrArg BitVec.toNat h
  rw [show (0xFFFF : U16).toNat = 65535 from rfl, candidateTid, BitVec.toNat_ofNat] at this
  omega

/-- Everything a Request can do (R358): one refusal and no other effect, or one frame written and registered. -/
theorem execRequest_cases (tag : Tag) (op : Op) (s : State) :
    (∃ o, (o = .invalidArgument ∨ o = .invalidState ∨ o = .busy) ∧
      execRequest tag op s = .next (emit (.requestResult tag o) s)) ∨
    ∃ c r id s1, requestCfg s.cfg = some c ∧ encodeOp op = .ok r ∧ s.conn = .connected ∧ allocate s = some (id, s1) ∧
      execRequest tag op s = .next (transmitAndRegister tag c id r s1) := by
  rw [execRequest]
  cases hc : requestCfg s.cfg with
  | none => exact .inl ⟨_, .inl rfl, rfl⟩
  | some c =>
    cases he : encodeOp op with
    | invalidArgument info => exact .inl ⟨_, .inl rfl, rfl⟩
    | ok r =>
      simp only []
      split_ifs with hs
      · exact .inl ⟨_, .inr (.inl rfl), rfl⟩
      · cases ha : allocate s with
        | none => exact .inl ⟨_, .inr (.inr rfl), rfl⟩
        | some a =>
          obtain ⟨id, s1⟩ := a
          exact .inr ⟨c, r, id, s1, rfl, rfl, not_not.1 hs, rfl, rfl⟩

/-- The frame a request writes has the length of its framing (R281, R290). -/
theorem wrapRequest_length (mode : Mode) (id : U16) (u : Byte) (pdu : Bytes) :
    (wrapRequest mode id u pdu).length = (match mode with | .tcp => 7 | .rtu => 3) + pdu.length := by
  cases mode <;> simp [wrapRequest]

/-- The function code of an accepted operation is one of the eight (R4). -/
theorem functionCode_mem {op : Op} {r : RequestPdu} (h : encodeOp op = .ok r) : r.functionCode ∈ coreFunctionCodes := by
  obtain ⟨-, rfl⟩ := (encodeOp_ok_iff _ _).1 h
  cases op <;> simp [opPdu, coreFunctionCodes]

end Sys2Proof.Machine
end

