-- ==== Sys2Proof/Laws/Timer.lean ====
section
/-! SUPPORT. What the timer can do: one entry, the table, the watchdog (spec/44_transaction_engine.md R380 to R383). -/

namespace Sys2Proof.Machine

/-- The entry's deadline has come by time `n` (R380: compared with `>=`). -/
def isDue (n : Nat) (p : Pending) : Bool := decide (p.deadline ≤ n)

/-- The entry has a retry left (R381). -/
def hasRetry (p : Pending) : Bool := decide (0 < p.retriesRemaining.toNat)

/-- What becomes of an entry examined at time `n` (R380 to R382). -/
def afterExamine (n : Nat) (p : Pending) : Option Pending :=
  if isDue n p then if hasRetry p then some (retried n p) else none else some p

/-- The action an examined entry gives rise to (R381, R382). -/
def dueAction (p : Pending) : Action :=
  if hasRetry p then .transportWrite p.originalFrame else .requestResult p.tag .timeout

/-- Everything examining one entry can do (R380): leave it, retransmit it, or expire it. -/
theorem examine_cases (p : Pending) (s : State) :
    (isDue s.now p = false ∧ examine p s = (s, some p)) ∨
    (isDue s.now p = true ∧ hasRetry p = true ∧ examine p s = (retransmit p s, some (retried s.now p))) ∨
    (isDue s.now p = true ∧ hasRetry p = false ∧ examine p s = (emit (.requestResult p.tag .timeout) s, none)) := by
  rw [examine, isDue, hasRetry]
  split_ifs <;> simp [*]

/-- What examining an entry leaves alone. -/
@[simp] theorem examine_frame (p : Pending) (s : State) :
    (examine p s).1.par = s.par ∧ (examine p s).1.cfg = s.cfg ∧ (examine p s).1.conn = s.conn ∧
    (examine p s).1.mode = s.mode ∧ (examine p s).1.pending = s.pending ∧ (examine p s).1.lastTid = s.lastTid ∧
    (examine p s).1.rxBuf = s.rxBuf ∧ (examine p s).1.rxOverrun = s.rxOverrun ∧ (examine p s).1.now = s.now ∧
    (examine p s).1.connectTag = s.connectTag ∧ (examine p s).1.input = s.input ∧
    (examine p s).1.unitOut = s.unitOut := by
  rcases examine_cases p s with ⟨-, h⟩ | ⟨-, -, h⟩ | ⟨-, -, h⟩ <;> simp [h, retransmit]

/-- What an entry examined becomes (R380 to R382). -/
theorem examine_snd (p : Pending) (s : State) : (examine p s).2 = afterExamine s.now p := by
  rcases examine_cases p s with ⟨h1, h⟩ | ⟨h1, h2, h⟩ | ⟨h1, h2, h⟩ <;> simp [afterExamine, *]

/-- What examining the table leaves alone. -/
@[simp] theorem examineAll_frame (l : List Pending) (s : State) :
    (examineAll l s).1.par = s.par ∧ (examineAll l s).1.cfg = s.cfg ∧ (examineAll l s).1.conn = s.conn ∧
    (examineAll l s).1.mode = s.mode ∧ (examineAll l s).1.pending = s.pending ∧
    (examineAll l s).1.lastTid = s.lastTid ∧ (examineAll l s).1.rxBuf = s.rxBuf ∧
    (examineAll l s).1.rxOverrun = s.rxOverrun ∧ (examineAll l s).1.now = s.now ∧
    (examineAll l s).1.connectTag = s.connectTag ∧ (examineAll l s).1.input = s.input ∧
    (examineAll l s).1.unitOut = s.unitOut := by
  induction l generalizing s with
  | nil => simp [examineAll]
  | cons p l ih => simp only [examineAll, ih, examine_frame, and_self]

/-- The table after its entries are examined: each left, retried or removed, in issue order (R380). -/
theorem examineAll_snd (l : List Pending) (s : State) : (examineAll l s).2 = l.filterMap (afterExamine s.now) := by
  induction l generalizing s with
  | nil => rfl
  | cons p l ih =>
    simp only [examineAll, ih, examine_frame, examine_snd, List.filterMap_cons]
    cases afterExamine s.now p <;> rfl

/-- The actions of examining the table: one for each entry whose deadline has come, in issue order (R381, R382). -/
theorem examineAll_out (l : List Pending) (s : State) :
    (examineAll l s).1.out = s.out ++ (l.filter (isDue s.now)).map dueAction := by
  induction l generalizing s with
  | nil => simp [examineAll]
  | cons p l ih =>
    simp only [examineAll, ih, examine_frame]
    rcases examine_cases p s with ⟨h1, h⟩ | ⟨h1, h2, h⟩ | ⟨h1, h2, h⟩ <;>
      simp [retransmit, dueAction, *]

/-- The activity time after the table is examined: the present if a frame was written (R390). -/
theorem examineAll_lastActivity (l : List Pending) (s : State) :
    (examineAll l s).1.lastActivity =
      if (l.filter (isDue s.now)).filter hasRetry = [] then s.lastActivity else s.now := by
  induction l generalizing s with
  | nil => simp [examineAll]
  | cons p l ih =>
    simp only [examineAll, ih, examine_frame]
    rcases examine_cases p s with ⟨h1, h⟩ | ⟨h1, h2, h⟩ | ⟨h1, h2, h⟩
    · simp [h, h1]
    · simp [h, h1, h2, retransmit]
    · simp [h, h1, h2]

/-- The counters after the table is examined: the bytes and frames written again, and as many retries (R390, R381). -/
theorem examineAll_ctr (l : List Pending) (s : State) :
    (examineAll l s).1.ctr = { s.ctr with
      bytesSent := s.ctr.bytesSent +
        BitVec.ofNat 64 (((l.filter (isDue s.now)).filter hasRetry).map fun p => p.originalFrame.length).sum
      framesSent := s.ctr.framesSent + BitVec.ofNat 64 ((l.filter (isDue s.now)).filter hasRetry).length
      retries := s.ctr.retries + BitVec.ofNat 64 ((l.filter (isDue s.now)).filter hasRetry).length } := by
  induction l generalizing s with
  | nil => simp [examineAll]
  | cons p l ih =>
    simp only [examineAll, ih, examine_frame]
    rcases examine_cases p s with ⟨h1, h⟩ | ⟨h1, h2, h⟩ | ⟨h1, h2, h⟩
    · simp [h, h1]
    · simp only [h, retransmit, countTransmit_fields, emit_fields, countRetry_fields, h1, h2, List.filter_cons_of_pos,
        List.map_cons, List.sum_cons, List.length_cons, Counters.mk.injEq, true_and, BitVec.ofNat_add]
      refine ⟨by rw [BitVec.add_assoc], ?_, ?_⟩ <;>
      · rw [BitVec.add_assoc]
        congr 1
        exact BitVec.add_comm _ _
    · simp [h, h1, h2]

/-- Everything the watchdog can do (R383). -/
theorem watchdog_cases (s : State) :
    (watchdogDue s = false ∧ watchdog s = s) ∨
    (watchdogDue s = true ∧ watchdog s = { s with
      conn := .disconnected, pending := [], rxBuf := [], rxOverrun := false
      out := s.out ++ s.pending.map (fun p => .requestResult p.tag .aborted) ++ [.transportClose, .linkDown .timeout] }) := by
  rw [watchdog]
  cases h : watchdogDue s with
  | false => exact .inl ⟨rfl, rfl⟩
  | true =>
    refine .inr ⟨rfl, ?_⟩
    simp [emit, dropLink, setOverrun, bufClear, setConn, failAll]

/-- The watchdog fires exactly when connected, enabled and idle for long enough (R383). -/
theorem watchdogDue_iff (s : State) :
    watchdogDue s = true ↔
      s.conn = .connected ∧ 0 < s.cfg.inactS ∧ s.lastActivity + s.cfg.inactS * s.par.tickHz ≤ s.now := by
  simp [watchdogDue, and_assoc]

end Sys2Proof.Machine
end

