-- ==== Sys2Proof/Tests/Slice0.lean ====
section
/-! SUPPORT. The model's own tests: ill-formed terms are refused, words of spec/30_encoding.md decode as written, the vectors of
spec/95_test_vectors.md come out, and every hypothesis of an obligation is met somewhere. -/

namespace Sys2Proof.Tests

open Sys2Proof.Machine

/-! ### States the tests start from -/

/-- Parameters in the ranges of R12. -/
def somePar : Params := { tickHz := 1, rxBufCap := 260, maxPending := 16 }

/-- A usable configuration (R472): unit 1, two seconds, one retry. -/
def someCfg (m : Mode) : Cfg :=
  { mode := m, endpoint := 7, unitId := some 1, timeoutS := some 2, retries := some 1, inactS := 0 }

/-- Configured, not connected. -/
def idle (m : Mode) : State := { State.reset with par := somePar, cfg := someCfg m }

/-- Waiting for the transport to open. -/
def opening (m : Mode) : State := { idle m with conn := .connecting, mode := m, connectTag := some 4 }

/-- Connected, nothing pending. -/
def linked (m : Mode) : State := { idle m with conn := .connected, mode := m }

/-- The entry of a request for two holding registers at 0 (R358's example). -/
def someEntry (m : Mode) (id : U16) : Pending :=
  { tag := 9, id := id, unitId := 1, functionCode := 0x03, timeout := 2, deadline := 2, retriesRemaining := 1
    originalFrame := wrapRequest m id 1 [0x03, 0x00, 0x00, 0x00, 0x02] }

/-- Connected over TCP with one request pending. -/
def waitingTcp : State := { linked .tcp with pending := [someEntry .tcp 1], lastTid := 1 }

/-- Connected over RTU with one request pending. -/
def waitingRtu : State := { linked .rtu with pending := [someEntry .rtu 0] }

/-- The state after an instruction. -/
def after (i : Instr) (s : State) : Option State :=
  match exec i s with
  | .next t => some t
  | .fault _ => none
  | .refused _ => none

/-- The actions in the output list after an instruction. -/
def outAfter (i : Instr) (s : State) : Option (List Action) := (after i s).map State.out

/-- What the unit presents after an instruction. -/
def unitAfter (i : Instr) : Option UnitOut := (after i (linked .tcp)).bind State.unitOut

/-! ### WellFormed refuses ill-formed terms -/

theorem test_wf_address : (Instr.encodeReadCoils 65536 1).wf = false := by decide

theorem test_wf_quantity : (Instr.encodeReadInputRegisters 0 65536).wf = false := by decide

theorem test_wf_discrete_quantity : (Instr.encodeReadDiscreteInputs 0 65536).wf = false := by decide

theorem test_wf_holding_address : (Instr.encodeReadHoldingRegisters 65536 1).wf = false := by decide

theorem test_wf_coil_address : (Instr.encodeWriteSingleCoil 65536 true).wf = false := by decide

theorem test_wf_register_value : (Instr.encodeWriteSingleRegister 0 65536).wf = false := by decide

theorem test_wf_coils_length : (Instr.encodeWriteMultipleCoils 0 (List.replicate 2041 true)).wf = false := by
  simp [Instr.wf, -List.reduceReplicate]

theorem test_wf_registers_length : (Instr.encodeWriteMultipleRegisters 0 (List.replicate 128 0)).wf = false := by
  simp [Instr.wf, -List.reduceReplicate]

theorem test_wf_registers_value : (Instr.encodeWriteMultipleRegisters 0 [1, 65536]).wf = false := by decide

theorem test_wf_unimplemented_core_code : (Instr.decodeUnimplemented [0x03]).wf = false := by decide

theorem test_wf_unimplemented_exception : (Instr.decodeUnimplemented [0x87, 0x01]).wf = false := by decide

theorem test_wf_tcp_pdu_length : (Instr.tcpWrap 0 1 (List.replicate 65535 0)).wf = false := by
  simp [Instr.wf, -List.reduceReplicate]

theorem test_wf_empty_group : (Instr.rtuTryUnwrap []).wf = false := by decide

theorem test_wf_empty_chunk : (Instr.rxChunk []).wf = false := by decide

/-! ### Decoding: words written out from R101 to R109, R114 and R46 -/

theorem test_decode_readCoils :
    decode (.requestPdu [0x01, 0x00, 0x13, 0x00, 0x25]) = .ok (.encodeReadCoils 19 37) := by decide

theorem test_decode_readDiscreteInputs :
    decode (.requestPdu [0x02, 0x00, 0xC4, 0x00, 0x16]) = .ok (.encodeReadDiscreteInputs 196 22) := by decide

theorem test_decode_readHoldingRegisters :
    decode (.requestPdu [0x03, 0x00, 0x6B, 0x00, 0x03]) = .ok (.encodeReadHoldingRegisters 107 3) := by decide

theorem test_decode_readInputRegisters :
    decode (.requestPdu [0x04, 0x00, 0x08, 0x00, 0x01]) = .ok (.encodeReadInputRegisters 8 1) := by decide

theorem test_decode_writeSingleCoil :
    decode (.requestPdu [0x05, 0x00, 0xAC, 0xFF, 0x00]) = .ok (.encodeWriteSingleCoil 172 true) ∧
    decode (.requestPdu [0x05, 0x00, 0xAC, 0x12, 0x34]) = .error .badCoilValue := by decide

theorem test_decode_writeSingleRegister :
    decode (.requestPdu [0x06, 0xFF, 0xFF, 0x00, 0x03]) = .ok (.encodeWriteSingleRegister 65535 3) := by decide

theorem test_decode_writeMultipleCoils :
    decode (.requestPdu [0x0F, 0x00, 0x00, 0x00, 0x09, 0x02, 0xFF, 0x01]) =
      .ok (.encodeWriteMultipleCoils 0 (List.replicate 9 true)) ∧
    decode (.requestPdu [0x0F, 0x00, 0x00, 0x00, 0x09, 0x02, 0xFF, 0x03]) = .error .badPadding := by decide

theorem test_decode_writeMultipleRegisters :
    decode (.requestPdu [0x10, 0x00, 0x01, 0x00, 0x02, 0x04, 0x00, 0x0A, 0x01, 0x02]) =
      .ok (.encodeWriteMultipleRegisters 1 [10, 258]) ∧
    decode (.requestPdu [0x10, 0x00, 0x01, 0x00, 0x02, 0x05, 0x00, 0x0A, 0x01, 0x02]) = .error .badByteCount := by decide

theorem test_decode_request_code : decode (.requestPdu [0x07, 0x00, 0x00, 0x00, 0x01]) = .error .badFunctionCode := by decide

theorem test_decode_bits :
    decode (.responsePdu [0x01, 0x01, 0x05]) = .ok (.decodeBitsReadCoils [0x01, 0x05]) ∧
    decode (.responsePdu [0x02, 0x01, 0x05]) = .ok (.decodeBitsReadDiscreteInputs [0x01, 0x05]) := by decide

theorem test_decode_regs :
    decode (.responsePdu [0x03, 0x02, 0x00, 0x0A]) = .ok (.decodeRegsReadHoldingRegisters [0x02, 0x00, 0x0A]) ∧
    decode (.responsePdu [0x04, 0x02, 0x00, 0x0A]) = .ok (.decodeRegsReadInputRegisters [0x02, 0x00, 0x0A]) := by decide

theorem test_decode_echoes :
    decode (.responsePdu [0x05, 0x00, 0xAC, 0xFF, 0x00]) = .ok (.decodeWriteCoilEcho [0x00, 0xAC, 0xFF, 0x00]) ∧
    decode (.responsePdu [0x06, 0x00, 0x01, 0x00, 0x03]) = .ok (.decodeWriteRegEcho [0x00, 0x01, 0x00, 0x03]) ∧
    decode (.responsePdu [0x0F, 0x00, 0x13, 0x00, 0x0A]) = .ok (.decodeWriteMultiEchoCoils [0x00, 0x13, 0x00, 0x0A]) ∧
    decode (.responsePdu [0x10, 0x00, 0x01, 0x00, 0x02]) =
      .ok (.decodeWriteMultiEchoRegisters [0x00, 0x01, 0x00, 0x02]) := by decide

theorem test_decode_exception_and_unimplemented :
    decode (.responsePdu [0xAB, 0x07]) = .ok (.decodeException 0x2B [0x07]) ∧
    decode (.responsePdu [0x11, 0x00]) = .ok (.decodeUnimplemented [0x11, 0x00]) ∧
    decode (.responsePdu []) = .ok (.decodeUnimplemented []) := by decide

theorem test_decode_tcp :
    decode (.tcpTransmit [0xFF, 0xFE, 0x00, 0x00, 0x00, 0x06, 0xFF, 0x06, 0x00, 0x01, 0x00, 0x03]) =
      .ok (.tcpWrap 0xFFFE 0xFF [0x06, 0x00, 0x01, 0x00, 0x03]) ∧
    decode (.tcpTransmit [0xFF, 0xFE, 0x00, 0x01, 0x00, 0x02, 0xFF, 0x06]) = .error .badProtocolId ∧
    decode (.tcpReceive [0x00, 0x01]) = .ok (.tcpTryUnwrap [0x00, 0x01]) := by decide

theorem test_decode_rtu :
    decode (.rtuTransmit [0x01, 0x03, 0x40, 0x21]) = .ok (.rtuWrap 0x01 [0x03]) ∧
    decode (.rtuTransmit [0x01, 0x03, 0x21, 0x40]) = .error .badCrc ∧
    decode (.rtuReceive [0x01]) = .ok (.rtuTryUnwrap [0x01]) ∧
    decode (.rtuReceive []) = .error .emptyGroup ∧
    decode (.crcInput [0x31]) = .ok (.crc16 [0x31]) := by decide +kernel

theorem test_decode_events :
    decode (.event (.cfgWrite (.unitId 5))) = .ok (.cfgWrite (.unitId 5)) ∧
    decode (.event (.connect 1)) = .ok (.connect 1) ∧
    decode (.event .transportOpened) = .ok .transportOpened ∧
    decode (.event .transportFailed) = .ok .transportFailed ∧
    decode (.event (.disconnect 2)) = .ok (.disconnect 2) ∧
    decode (.event (.request 3 (.readCoils 0 1))) = .ok (.request 3 (.readCoils 0 1)) ∧
    decode (.event (.rxChunk [0x00])) = .ok (.rxChunk [0x00]) ∧
    decode (.event (.rxChunk [])) = .error .emptyChunk ∧
    decode (.event .rxGap) = .ok .rxGap ∧
    decode (.event (.tick 8)) = .ok (.tick 8) := by decide

theorem test_table_words :
    decodeTableWord 8 0x01 = some (.encodeReadCoils 0 0) ∧
    decodeTableWord 8 0x10 = some (.encodeWriteMultipleRegisters 0 []) ∧
    decodeTableWord 8 0x83 = some (.decodeException 0x03 [0x00]) ∧
    decodeTableWord 8 0x07 = some (.decodeUnimplemented [0x07, 0x00]) := by decide

theorem test_step_runs_table_word : ∃ t, step (State.reset.withFetchWord 8 0x03) = .next t := ⟨_, rfl⟩

/-! ### PDU encode (95_test_vectors.md L2.2) -/

theorem test_encode_readCoils :
    unitAfter (.encodeReadCoils 0xFFFF 2000) = some (.encoded (.ok ⟨0x01, [0xFF, 0xFF, 0x07, 0xD0]⟩)) ∧
    unitAfter (.encodeReadCoils 0 2001) = some (.encoded (.invalidArgument (some 2001))) := by decide

theorem test_encode_readDiscreteInputs :
    unitAfter (.encodeReadDiscreteInputs 0x00C4 0x0016) = some (.encoded (.ok ⟨0x02, [0x00, 0xC4, 0x00, 0x16]⟩)) ∧
    unitAfter (.encodeReadDiscreteInputs 0 2001) = some (.encoded (.invalidArgument (some 2001))) := by decide

theorem test_encode_readHoldingRegisters :
    unitAfter (.encodeReadHoldingRegisters 0 125) = some (.encoded (.ok ⟨0x03, [0x00, 0x00, 0x00, 0x7D]⟩)) ∧
    unitAfter (.encodeReadHoldingRegisters 0 126) = some (.encoded (.invalidArgument (some 126))) := by decide

theorem test_encode_readInputRegisters :
    unitAfter (.encodeReadInputRegisters 8 1) = some (.encoded (.ok ⟨0x04, [0x00, 0x08, 0x00, 0x01]⟩)) ∧
    unitAfter (.encodeReadInputRegisters 0 0) = some (.encoded (.invalidArgument (some 0))) := by decide

theorem test_encode_writeSingleCoil :
    unitAfter (.encodeWriteSingleCoil 0x00AC true) = some (.encoded (.ok ⟨0x05, [0x00, 0xAC, 0xFF, 0x00]⟩)) ∧
    unitAfter (.encodeWriteSingleCoil 0x00AC false) = some (.encoded (.ok ⟨0x05, [0x00, 0xAC, 0x00, 0x00]⟩)) := by decide

theorem test_encode_writeSingleRegister :
    unitAfter (.encodeWriteSingleRegister 0xFFFF 0xFFFF) = some (.encoded (.ok ⟨0x06, [0xFF, 0xFF, 0xFF, 0xFF]⟩)) ∧
    unitAfter (.encodeWriteSingleRegister 0x10000 1) = some (.encoded (.invalidArgument none)) := by decide

theorem test_encode_writeMultipleCoils :
    unitAfter (.encodeWriteMultipleCoils 0x0013 [true, false, true, true, false, false, true, true, true, false]) =
      some (.encoded (.ok ⟨0x0F, [0x00, 0x13, 0x00, 0x0A, 0x02, 0xCD, 0x01]⟩)) ∧
    unitAfter (.encodeWriteMultipleCoils 0 []) = some (.encoded (.invalidArgument (some 0))) := by decide

theorem test_encode_writeMultipleRegisters :
    unitAfter (.encodeWriteMultipleRegisters 0x0001 [0x000A, 0x0102]) =
      some (.encoded (.ok ⟨0x10, [0x00, 0x01, 0x00, 0x02, 0x04, 0x00, 0x0A, 0x01, 0x02]⟩)) ∧
    unitAfter (.encodeWriteMultipleRegisters 0 (List.replicate 124 0)) =
      some (.encoded (.invalidArgument (some 124))) := by decide +kernel

/-! ### PDU decode (95_test_vectors.md L2.3) -/

theorem test_decodeBits_readCoils :
    unitAfter (.decodeBitsReadCoils [0x01, 0x05]) =
      some (.decoded (.response 0x01 (.bits [true, false, true, false, false, false, false, false]))) ∧
    unitAfter (.decodeBitsReadCoils [0x02, 0x05]) = some (.decoded .malformedPdu) := by decide

theorem test_decodeBits_readDiscreteInputs :
    unitAfter (.decodeBitsReadDiscreteInputs [0x02, 0xAC, 0x03]) =
      some (.decoded (.response 0x02 (.bits [false, false, true, true, false, true, false, true,
        true, true, false, false, false, false, false, false]))) ∧
    unitAfter (.decodeBitsReadDiscreteInputs [0x00]) = some (.decoded (.response 0x02 (.bits []))) := by decide

theorem test_decodeRegs_readHoldingRegisters :
    unitAfter (.decodeRegsReadHoldingRegisters [0x04, 0x00, 0x0A, 0x00, 0x0B]) =
      some (.decoded (.response 0x03 (.regs [10, 11]))) ∧
    unitAfter (.decodeRegsReadHoldingRegisters [0x03, 0x00, 0x0A, 0x00]) = some (.decoded .malformedPdu) := by decide

theorem test_decodeRegs_readInputRegisters :
    unitAfter (.decodeRegsReadInputRegisters [0x02, 0xFF, 0xFE]) = some (.decoded (.response 0x04 (.regs [0xFFFE]))) ∧
    unitAfter (.decodeRegsReadInputRegisters [0x04, 0x00, 0x0A, 0x00, 0x0B, 0x00]) = some (.decoded .malformedPdu) := by
  decide

theorem test_decodeWriteCoilEcho :
    unitAfter (.decodeWriteCoilEcho [0x00, 0xAC, 0xFF, 0x00]) =
      some (.decoded (.response 0x05 (.coilEcho 0x00AC true))) ∧
    unitAfter (.decodeWriteCoilEcho [0x00, 0xAC, 0x12, 0x34]) = some (.decoded .malformedPdu) := by decide

theorem test_decodeWriteRegEcho :
    unitAfter (.decodeWriteRegEcho [0x00, 0x01, 0x00, 0x03]) = some (.decoded (.response 0x06 (.regEcho 1 3))) ∧
    unitAfter (.decodeWriteRegEcho [0x00, 0x01, 0x00]) = some (.decoded .malformedPdu) := by decide

theorem test_decodeWriteMultiEcho_coils :
    unitAfter (.decodeWriteMultiEchoCoils [0x00, 0x13, 0x00, 0x0A]) =
      some (.decoded (.response 0x0F (.multiEcho 0x0013 10))) ∧
    unitAfter (.decodeWriteMultiEchoCoils [0x00, 0x13, 0x00, 0x0A, 0x02, 0xCD, 0x01]) =
      some (.decoded .malformedPdu) := by decide

theorem test_decodeWriteMultiEcho_registers :
    unitAfter (.decodeWriteMultiEchoRegisters [0x00, 0x01, 0x00, 0x02]) =
      some (.decoded (.response 0x10 (.multiEcho 1 2))) ∧
    unitAfter (.decodeWriteMultiEchoRegisters [0x00, 0x01]) = some (.decoded .malformedPdu) := by decide

theorem test_decodeException :
    unitAfter (.decodeException 0x03 [0x02]) = some (.decoded (.protocolException 0x03 0x83 0x02)) ∧
    unitAfter (.decodeException 0x03 [0x02, 0x00]) = some (.decoded .malformedPdu) := by decide

theorem test_decodeUnimplemented :
    unitAfter (.decodeUnimplemented [0x07]) = some (.decoded .malformedPdu) ∧
    unitAfter (.decodeUnimplemented []) = some (.decoded .malformedPdu) := by decide

/-! ### CRC and framer (95_test_vectors.md L2.1, L2.4, L2.5) -/

theorem test_crc16_check_value :
    unitAfter (.crc16 [0x31, 0x32, 0x33, 0x34, 0x35, 0x36, 0x37, 0x38, 0x39]) = some (.crc 0x4B37) ∧
    unitAfter (.crc16 []) = some (.crc 0xFFFF) := by decide +kernel

theorem test_crc16_table : crcTable 0x01 = 0xC0C1 ∧ crcTable 0x80 = 0xA001 ∧ crcTable 0xFF = 0x4040 := by decide +kernel

theorem test_tcpWrap :
    unitAfter (.tcpWrap 0xFFFE 0xFF [0x06, 0x00, 0x01, 0x00, 0x03]) =
      some (.frameBytes [0xFF, 0xFE, 0x00, 0x00, 0x00, 0x06, 0xFF, 0x06, 0x00, 0x01, 0x00, 0x03]) := by decide

theorem test_tcpTryUnwrap_frame :
    unitAfter (.tcpTryUnwrap [0x00, 0x01, 0x00, 0x00, 0x00, 0x07, 0x01, 0x03, 0x04, 0x00, 0x0A, 0x00, 0x0B, 0x00, 0x02]) =
      some (.unwrapped (.frame ⟨0x01, some 0x0001, [0x03, 0x04, 0x00, 0x0A, 0x00, 0x0B], 13⟩)) := by decide

theorem test_tcpTryUnwrap_bounds :
    unitAfter (.tcpTryUnwrap [0x00, 0x01, 0x00, 0x00, 0x00, 0xFE, 0x01]) = some (.unwrapped .incomplete) ∧
    unitAfter (.tcpTryUnwrap [0x00, 0x01, 0x00, 0x00, 0x00, 0xFF, 0x01]) = some (.unwrapped (.corrupt 7)) ∧
    unitAfter (.tcpTryUnwrap [0x00, 0x01, 0x00, 0x00, 0x00, 0x01, 0x01]) = some (.unwrapped (.corrupt 7)) ∧
    unitAfter (.tcpTryUnwrap [0x00, 0x01, 0x00, 0x01, 0x00, 0x06, 0x01]) = some (.unwrapped (.corrupt 7)) := by decide

theorem test_rtuWrap :
    unitAfter (.rtuWrap 0x11 [0x01, 0x00, 0x13, 0x00, 0x25]) =
      some (.frameBytes [0x11, 0x01, 0x00, 0x13, 0x00, 0x25, 0x0E, 0x84]) := by decide +kernel

theorem test_rtuTryUnwrap_frame :
    unitAfter (.rtuTryUnwrap [0x01, 0x83, 0x02, 0xC0, 0xF1]) =
      some (.unwrapped (.frame ⟨0x01, none, [0x83, 0x02], 5⟩)) := by decide +kernel

theorem test_rtuTryUnwrap_corrupt :
    unitAfter (.rtuTryUnwrap [0x01, 0x03, 0x00, 0x01, 0x00, 0x02, 0xC4, 0x0B]) = some (.unwrapped (.corrupt 8)) ∧
    unitAfter (.rtuTryUnwrap [0x01, 0x83, 0x02]) = some (.unwrapped (.corrupt 3)) := by decide +kernel

/-! ### Events (95_test_vectors.md L2.6, and the examples of 44_transaction_engine.md) -/

theorem test_cfgWrite :
    (after (.cfgWrite (.timeoutS 0)) (idle .tcp)).map (fun t => (t.cfg.timeoutS, t.cfg.retries)) =
      some (some 0, some 1) := by decide

theorem test_connect :
    outAfter (.connect 1) (idle .rtu) = some [.transportOpen 7 .rtu] ∧
    outAfter (.connect 2) (opening .tcp) = some [.connectResult 2 .invalidState] := by decide

theorem test_transportOpened :
    outAfter .transportOpened (opening .tcp) = some [.connectResult 4 (.ok none)] ∧
    outAfter .transportOpened (idle .tcp) = some [.transportClose] := by decide

theorem test_transportFailed :
    outAfter .transportFailed (opening .tcp) = some [.connectResult 4 .connectionError] ∧
    outAfter .transportFailed waitingTcp =
      some [.requestResult 9 .aborted, .transportClose, .linkDown .connectionError] := by decide

theorem test_disconnect :
    outAfter (.disconnect 6) waitingTcp = some [.requestResult 9 .aborted, .transportClose, .disconnectResult 6 (.ok none)] ∧
    outAfter (.disconnect 6) (opening .tcp) =
      some [.connectResult 4 .aborted, .transportClose, .disconnectResult 6 (.ok none)] := by decide

theorem test_request_tcp :
    outAfter (.request 5 (.readHoldingRegisters 0 1)) { linked .tcp with lastTid := 0xFFFD } =
      some [.transportWrite [0xFF, 0xFE, 0x00, 0x00, 0x00, 0x06, 0x01, 0x03, 0x00, 0x00, 0x00, 0x01]] ∧
    (after (.request 5 (.readHoldingRegisters 0 1)) { linked .tcp with lastTid := 0xFFFE }).map State.lastTid = some 0 := by
  decide

theorem test_request_refused :
    outAfter (.request 5 (.readHoldingRegisters 0 0)) (idle .tcp) = some [.requestResult 5 .invalidArgument] ∧
    outAfter (.request 5 (.readHoldingRegisters 0 1)) (idle .tcp) = some [.requestResult 5 .invalidState] ∧
    outAfter (.request 5 (.readHoldingRegisters 0 1)) waitingRtu = some [.requestResult 5 .busy] := by decide

theorem test_rxChunk_resolves :
    outAfter (.rxChunk [0x00, 0x01, 0x00, 0x00, 0x00, 0x07, 0x01, 0x03, 0x04, 0x00, 0x0A, 0x00, 0x0B]) waitingTcp =
      some [.requestResult 9 (.ok (some (.regs [10, 11])))] := by decide +kernel

theorem test_rxChunk_corrupt_header :
    (after (.rxChunk [0x00, 0x00, 0x00, 0x09, 0x00, 0x05, 0x01, 0x03, 0x02, 0x00, 0x07]) waitingTcp).map
      (fun t => (t.rxBuf, t.pending.length)) = some ([0x03, 0x02, 0x00, 0x07], 1) := by decide +kernel

theorem test_rxGap_resolves :
    outAfter .rxGap { waitingRtu with rxBuf := [0x01, 0x83, 0x02, 0xC0, 0xF1] } =
      some [.requestResult 9 (.protocolException 0x02)] := by decide +kernel

theorem test_rxGap_overrun :
    (after .rxGap { waitingRtu with rxBuf := [0x01, 0x83, 0x02, 0xC0, 0xF1], rxOverrun := true }).map
      (fun t => (t.rxBuf, t.rxOverrun, t.pending.length)) = some ([], false, 1) := by decide

theorem test_tick_retransmits :
    (after (.tick 2) waitingTcp).map (fun t => (t.out, t.pending.map Pending.deadline, t.ctr.retries)) =
      some ([.transportWrite [0x00, 0x01, 0x00, 0x00, 0x00, 0x06, 0x01, 0x03, 0x00, 0x00, 0x00, 0x02]], [4], 1) := by decide

theorem test_tick_watchdog :
    outAfter (.tick 1) { waitingTcp with cfg := { someCfg .tcp with inactS := 1 } } =
      some [.requestResult 9 .aborted, .transportClose, .linkDown .timeout] := by decide

theorem test_codes :
    outcomeCode .invalidState = 9 ∧ outcomeCode (.protocolException 1) = 4 ∧ connCode .closing = 3 ∧ modeCode .rtu = 1 ∧
    exceptionName 0x08 = some .memoryParityError ∧ exceptionName 0x07 = none := by decide

theorem test_statusPort : (statusPort waitingTcp).pendingCount = 1 ∧ (statusPort waitingTcp).conn = .connected := by decide

/-! ### The hypotheses of the obligations are met -/

theorem witness_DecodeEncodeRoundTrip :
    (Instr.encodeWriteMultipleCoils 0xFFFF (List.replicate 2040 true)).wf = true ∧
    (Instr.decodeUnimplemented [0x7F]).wf = true := by
  constructor
  · simp [Instr.wf, isU16, -List.reduceReplicate]
  · decide

theorem witness_AcceptedInputReencodes : ∃ i, decode (.requestPdu [0x01, 0xFF, 0xFF, 0xFF, 0xFF]) = .ok i :=
  ⟨.encodeReadCoils 0xFFFF 0xFFFF, by decide⟩

theorem witness_StepRunsOldestInput :
    ({ idle .tcp with input := [.event .rxGap] } : State).input = .event .rxGap :: [] ∧
    decode (.event .rxGap) = .ok .rxGap := by decide

theorem witness_StepWaitsOrNamesTheStop :
    State.reset.input = [] ∧ ({ idle .tcp with input := [.rtuReceive []] } : State).input = .rtuReceive [] :: [] ∧
    decode (.rtuReceive []) = .error .emptyGroup := by decide

theorem witness_ReadOperationsEncodeByRange :
    unitAfter (.encodeReadCoils 65535 1) = some (.encoded (.ok ⟨0x01, [0xFF, 0xFF, 0x00, 0x01]⟩)) ∧
    unitAfter (.encodeReadCoils 65535 0) = some (.encoded (.invalidArgument (some 0))) := by decide

theorem witness_SingleWritesEncode :
    unitAfter (.encodeWriteSingleCoil 65535 true) = some (.encoded (.ok ⟨0x05, [0xFF, 0xFF, 0xFF, 0x00]⟩)) ∧
    unitAfter (.encodeWriteSingleRegister 65535 65535) = some (.encoded (.ok ⟨0x06, [0xFF, 0xFF, 0xFF, 0xFF]⟩)) := by decide

theorem witness_WriteMultipleCoilsEncodes :
    (1 ≤ (List.replicate 1 true).length ∧ (List.replicate 1 true).length ≤ 1968) ∧
    (1 ≤ (List.replicate 1968 true).length ∧ (List.replicate 1968 true).length ≤ 1968) ∧
    1968 < (List.replicate 1969 true).length ∧ ([] : List Bool).length < 1 := by simp [-List.reduceReplicate]

theorem witness_WriteMultipleRegistersEncodes :
    (∀ v ∈ List.replicate 123 65535, v < 65536) ∧
    (1 ≤ (List.replicate 123 65535).length ∧ (List.replicate 123 65535).length ≤ 123) ∧
    123 < (List.replicate 124 65535).length ∧ ([] : List Nat).length < 1 := by simp [-List.reduceReplicate]

theorem witness_ArgumentsOutsideTypeAreRefused :
    65536 ≤ 65536 ∧ 65536 ∈ [1, 65536] ∧
    unitAfter (.encodeWriteMultipleRegisters 0 [1, 65536]) = some (.encoded (.invalidArgument none)) := by decide

theorem witness_DistinctRequestsGiveDistinctPdus :
    ∃ r, encodeOp (.writeMultipleCoils 5 [true, false]) = .ok r ∧ r.bytes = r.bytes :=
  ⟨⟨0x0F, [0x00, 0x05, 0x00, 0x02, 0x01, 0x01]⟩, by decide, rfl⟩

theorem witness_RequestPdusHaveBoundedShape :
    ∃ r, encodeOp (.writeMultipleRegisters 0 (List.replicate 123 0)) = .ok r ∧ r.bytes.length = 252 := by
  refine ⟨_, (encodeOp_ok_iff _ _).2 ⟨⟨by omega, by simp, by simp, by simp⟩, rfl⟩, ?_⟩
  simp [RequestPdu.bytes, opPdu, payloadWriteRegs]

theorem witness_ReadBitsResponsesDecode :
    ([0xCD, 0x01] : Bytes).length = (0x02 : Byte).toNat ∧ ([0xCD] : Bytes).length ≠ (0x02 : Byte).toNat := by decide

theorem witness_ReadRegistersResponsesDecode :
    (([0x00, 0x0A] : Bytes).length = (0x02 : Byte).toNat ∧ (0x02 : Byte).toNat % 2 = 0) ∧
    ([0x00] : Bytes).length ≠ (0x02 : Byte).toNat ∧ (0x03 : Byte).toNat % 2 ≠ 0 := by decide

theorem witness_WriteEchoesDecode :
    decodePdu [0x05, 0x00, 0x01, 0xFF, 0x00] = .response 0x05 (.coilEcho 1 true) ∧
    decodePdu [0x05, 0x00, 0x01, 0x00, 0x00] = .response 0x05 (.coilEcho 1 false) ∧
    decodePdu [0x05, 0x00, 0x01, 0xFF, 0x01] = .malformedPdu ∧ ([0x00, 0x01, 0xFF] : Bytes).length ≠ 4 := by decide

theorem witness_ExceptionResponsesDecode : ([0x02] : Bytes) = [0x02] ∧ ([] : Bytes).length ≠ 1 := by decide

theorem witness_UnimplementedCodesAreMalformed :
    (Instr.decodeUnimplemented []).wf = true ∧ (Instr.decodeUnimplemented [0x11, 0x00]).wf = true := by decide

theorem witness_RequestPdusDecodedAsResponses :
    (∃ r, encodeWriteSingleCoil 65535 true = .ok r) ∧ (∃ r, encodeWriteSingleRegister 65535 65535 = .ok r) ∧
    (∃ r, encodeWriteMultipleCoils 0 [true] = .ok r) ∧ (∃ r, encodeWriteMultipleRegisters 0 [7] = .ok r) :=
  ⟨⟨_, rfl⟩, ⟨_, rfl⟩, ⟨_, rfl⟩, ⟨_, rfl⟩⟩

theorem witness_CrcCheckEqualsZeroResidue :
    rtuCrcPasses [0x01, 0x83, 0x02, 0xC0, 0xF1] = true ∧ crcOf [0x01, 0x83, 0x02, 0xC0, 0xF1] = 0 ∧
    rtuCrcPasses [0x00, 0x00] = false ∧ 2 ≤ ([0x00, 0x00] : Bytes).length := by decide +kernel

theorem witness_SingleBitFlipIsCorrupt :
    rtuTryUnwrap [0x01, 0x83, 0x02, 0xC0, 0xF1] = .frame ⟨0x01, none, [0x83, 0x02], 5⟩ ∧
    rtuTryUnwrap (([0x01, 0x83, 0x02, 0xC0, 0xF1] : Bytes).set 4 (0xF1 ^^^ (1#8 <<< 7))) = .corrupt 5 := by decide +kernel

theorem witness_TcpWrapBuildsMbapFrame : (List.replicate 65534 (0 : Byte)).length ≤ 65534 := by simp [-List.reduceReplicate]

theorem witness_TcpTryUnwrapReadsMbapFrame :
    ([0, 1, 0, 0, 0, 2] : Bytes).length < 7 ∧
    tcpTryUnwrap [0, 1, 0, 0, 0, 2, 7] = .incomplete ∧ tcpTryUnwrap [0, 1, 0, 0, 1, 0, 7] = .corrupt 7 ∧
    tcpTryUnwrap [0x00, 0x05, 0, 0, 0, 2, 0x07, 0x83] = .frame ⟨0x07, some 5, [0x83], 8⟩ := by decide

theorem witness_RtuTryUnwrapChecksGroup :
    ([0x01, 0x83, 0x02] : Bytes).length < 4 ∧ 1 ≤ ([0x03] : Bytes).length ∧
    rtuTryUnwrap [0x01, 0x03, 0x40, 0x21] = .frame ⟨0x01, none, [0x03], 4⟩ := by decide +kernel

theorem witness_FramerRoundTrip :
    1 ≤ (List.replicate 253 (0 : Byte)).length ∧ 1 + (List.replicate 253 (0 : Byte)).length ≤ Config.tcpMaxLen ∧
    Config.rtuMinGroup ≤ 3 + (List.replicate 1 (0 : Byte)).length := by
  simp [Config.tcpMaxLen, Config.rtuMinGroup, -List.reduceReplicate]

theorem witness_ExtractTcpRunsToIncomplete : 260 ≤ (linked .tcp).par.rxBufCap := by decide

theorem witness_ChunkingDoesNotMatter :
    ([[0x00, 0x01], [0x00]] : List Bytes) ≠ [] ∧ ∀ c ∈ ([[0x00, 0x01], [0x00]] : List Bytes), c ≠ [] := by decide

theorem witness_PerByteReceiveEqualsWholeChunk :
    waitingTcp.mode = .tcp ∧ tcpTryUnwrap waitingTcp.rxBuf = .incomplete ∧
    streamClean ((waitingTcp.rxBuf ++ [0x00, 0x05, 0, 0, 0, 2, 0x07, 0x83, 0x00]).length + 1)
      (waitingTcp.rxBuf ++ [0x00, 0x05, 0, 0, 0, 2, 0x07, 0x83, 0x00]) = true := by decide

theorem witness_ReceiveIgnoredUnlessConnected : (opening .tcp).conn ≠ .connected := by decide

theorem witness_RtuChunkAccumulates :
    waitingRtu.conn = .connected ∧ waitingRtu.mode = .rtu ∧ waitingRtu.rxBuf.length ≤ waitingRtu.par.rxBufCap ∧
    ({ waitingRtu with rxBuf := List.replicate 260 0 } : State).rxBuf.length ≤ 260 := by decide +kernel

theorem witness_RtuGapDropsEmptyAndCorruptGroups :
    waitingTcp.mode = .tcp ∧ (waitingRtu.rxBuf = [] ∧ waitingRtu.rxOverrun = false) ∧
    waitingRtu.mode = .rtu ∧ waitingRtu.conn = .connected ∧
    ({ waitingRtu with rxOverrun := true } : State).rxOverrun = true ∧ rtuTryUnwrap [0x01] = .corrupt 1 := by decide

theorem witness_MatchedTcpReplyResolvesItsRequest :
    waitingTcp.conn = .connected ∧ waitingTcp.mode = .tcp ∧ waitingTcp.rxBuf = [] ∧
    (waitingTcp.pending.map Pending.id).Nodup ∧ someEntry .tcp 1 ∈ waitingTcp.pending ∧
    Answers (decodePdu [0x03, 0x02, 0x00, 0x07]) 0x03 (.ok (some (.regs [7]))) ∧
    Answers (decodePdu [0x83, 0x02]) 0x03 (.protocolException 0x02) :=
  ⟨rfl, rfl, rfl, by decide, by decide, .inl ⟨_, by decide, rfl⟩, .inr ⟨0x83, 0x02, by decide, rfl⟩⟩

theorem witness_UnmatchedTcpFrameIsDiscarded :
    (∀ p ∈ waitingTcp.pending, p.id = 0xFFFF → p.unitId = 1 → AnswersNot (decodePdu [0x03, 0x02, 0x00, 0x07]) p.functionCode) ∧
    AnswersNot (decodePdu [0x04, 0x02, 0x00, 0x07]) 0x03 ∧ AnswersNot (decodePdu [0x03, 0x02, 0x00]) 0x03 ∧
    AnswersNot (decodePdu [0x84, 0x02]) 0x03 := by
  refine ⟨?_, .inr (.inl ⟨0x04, .regs [7], by decide, by decide⟩), .inl (by decide),
    .inr (.inr ⟨0x04, 0x84, 0x02, by decide, by decide⟩)⟩
  intro p hp hid
  obtain rfl : p = someEntry .tcp 1 := by simpa [waitingTcp] using hp
  exact absurd hid (by decide)

theorem witness_CorruptTcpHeaderClearsBuffer :
    waitingTcp.rxBuf = [] ∧ ([0x00, 0x00, 0x00, 0x09, 0x00, 0x05, 0x01] : Bytes).length = 7 ∧
    tcpHeaderCorrupt [0x00, 0x00, 0x00, 0x09, 0x00, 0x05, 0x01] = true := by decide

theorem witness_RtuReplyResolvesTheSlot :
    waitingRtu.conn = .connected ∧ waitingRtu.mode = .rtu ∧ waitingRtu.rxBuf = [] ∧ waitingRtu.rxOverrun = false ∧
    waitingRtu.pending = [someEntry .rtu 0] ∧ 1 = (someEntry .rtu 0).unitId ∧
    3 + ([0x83, 0x02] : Bytes).length ≤ waitingRtu.par.rxBufCap ∧
    Answers (decodePdu [0x83, 0x02]) (someEntry .rtu 0).functionCode (.protocolException 0x02) ∧
    (∀ p ∈ waitingRtu.pending, 2 = p.unitId → AnswersNot (decodePdu [0x83, 0x02]) p.functionCode) := by
  refine ⟨rfl, rfl, rfl, rfl, rfl, rfl, by decide, .inr ⟨0x83, 0x02, by decide, rfl⟩, ?_⟩
  intro p hp hu
  obtain rfl : p = someEntry .rtu 0 := by simpa [waitingRtu] using hp
  exact absurd hu (by decide)

theorem witness_connection_events :
    (idle .tcp).conn = .disconnected ∧ (opening .tcp).conn ≠ .disconnected ∧ (opening .tcp).conn = .connecting ∧
    (opening .tcp).connectTag = some 4 ∧ waitingTcp.conn = .connected ∧
    ((opening .tcp).conn = .connecting ↔ (opening .tcp).connectTag.isSome = true) ∧
    (waitingTcp.conn = .connecting ↔ waitingTcp.connectTag.isSome = true) ∧
    ((idle .tcp).conn = .connecting ↔ (idle .tcp).connectTag.isSome = true) := by decide

/-- An instruction of each kind that moves the link, and one that does not: the premise of the transition statements. -/
theorem witness_ConnectionTransitions :
    (after (.connect 1) (idle .tcp)).map State.conn = some .connecting ∧
    (after .transportOpened (opening .tcp)).map State.conn = some .connected ∧
    (after .transportFailed waitingTcp).map State.conn = some .disconnected ∧
    (after (.tick 1) { waitingTcp with cfg := { someCfg .tcp with inactS := 1 } }).map State.conn = some .disconnected ∧
    (after .rxGap waitingRtu).map State.conn = some .connected := by decide

theorem witness_usable : (someCfg .tcp).Usable 2 1 1 := by
  refine ⟨rfl, ?_, ?_, rfl, ?_, rfl, ?_, ?_⟩ <;> decide

theorem witness_usable_at_bounds :
    ({ someCfg .tcp with timeoutS := some 120, retries := some 10, unitId := some 255 } : Cfg).Usable 120 10 255 := by
  refine ⟨rfl, ?_, ?_, rfl, ?_, rfl, ?_, ?_⟩ <;> decide

theorem witness_RequestRefusalsInRuleOrder :
    (¬ ∃ t k u, State.reset.cfg.Usable t k u) ∧ encodeOp (.readHoldingRegisters 0 0) = .invalidArgument (some 0) ∧
    (∃ r, encodeOp (.readHoldingRegisters 0 1) = .ok r) ∧ (idle .tcp).conn ≠ .connected := by
  refine ⟨?_, by decide, ⟨_, rfl⟩, by decide⟩
  rintro ⟨t, k, u, h, -⟩
  simp [State.reset, Cfg.reset] at h

theorem witness_BusyRequestsHaveNoOtherEffect :
    (∃ p ∈ ({ waitingTcp with lastTid := 0 } : State).pending, p.id = BitVec.ofNat 16 ((0 + 1) % 65535)) ∧
    ({ waitingTcp with par := { somePar with maxPending := 1 } } : State).pending.length = 1 ∧
    waitingRtu.mode = .rtu ∧ waitingRtu.pending ≠ [] :=
  ⟨⟨someEntry .tcp 1, by decide, by decide⟩, rfl, rfl, by decide⟩

theorem witness_TcpRequestTransmitsAndRegisters :
    waitingTcp.conn = .connected ∧ waitingTcp.mode = .tcp ∧ (∀ p ∈ waitingTcp.pending, p.id ≠ 2) ∧
    (2 : U16) = BitVec.ofNat 16 ((waitingTcp.lastTid.toNat + 1) % 65535) ∧
    waitingTcp.pending.length ≠ waitingTcp.par.maxPending := by decide

theorem witness_RtuRequestTransmitsAndRegisters :
    (linked .rtu).conn = .connected ∧ (linked .rtu).mode = .rtu ∧ (linked .rtu).pending = [] := by decide

theorem witness_RetriesExhaustIntoTimeout :
    ∃ s1, exec (.request 5 (.readHoldingRegisters 0 2)) (linked .tcp) = .next s1 ∧ s1.pending ≠ [] ∧
      (linked .tcp).cfg.inactS = 0 ∧ 0 < (linked .tcp).par.tickHz :=
  ⟨_, rfl, by decide, by decide, by decide⟩

/-- A state with a pending request meets the invariant, and it steps. -/
theorem witness_StepKeepsInvariant : waitingTcp.Inv ∧ waitingRtu.Inv ∧ ∃ t, step waitingTcp = .next t := by
  have entry : ∀ m id, (m = .tcp → id ≠ 0xFFFF) → (m = .rtu → id = 0) → (someEntry m id).Ok somePar m 0 := by
    intro m id h1 h2
    exact ⟨of_decide_eq_true rfl, of_decide_eq_true rfl, of_decide_eq_true rfl, of_decide_eq_true rfl,
      of_decide_eq_true rfl, of_decide_eq_true rfl, of_decide_eq_true rfl, h1, h2, ⟨_, rfl⟩⟩
  have par : somePar.wf := ⟨by decide, by decide, by decide, by decide⟩
  refine ⟨⟨par, by decide, by decide, by decide, by decide, by decide, by decide, ?_, by decide, by decide,
    by decide, by decide⟩, ⟨par, by decide, by decide, by decide, by decide, by decide, by decide, ?_, by decide,
    by decide, by decide, by decide⟩, ⟨_, rfl⟩⟩
  · intro p hp
    obtain rfl : p = someEntry .tcp 1 := by simpa [waitingTcp] using hp
    exact entry .tcp 1 (by decide) (by decide)
  · intro p hp
    obtain rfl : p = someEntry .rtu 0 := by simpa [waitingRtu] using hp
    exact entry .rtu 0 (by decide) (by decide)

theorem witness_UnitRowsArePure : isUnitRow (.crc16 []) = true ∧ isUnitRow .rxGap = false := by decide

/-- A request that is accepted: the premises of the statements about the actions of one instruction. -/
theorem witness_statements_about_actions :
    ∃ t acts, exec (.request 5 (.readHoldingRegisters 0 2)) waitingTcp = .next t ∧ t.out = waitingTcp.out ++ acts ∧
      acts = [.transportWrite [0x00, 0x02, 0x00, 0x00, 0x00, 0x06, 0x01, 0x03, 0x00, 0x00, 0x00, 0x02]] :=
  ⟨_, _, rfl, rfl, by decide⟩

/-- A Tick that resolves: the same premises for an instruction that is no request. -/
theorem witness_statements_about_actions_of_tick :
    ∃ t acts, exec (.tick 2) { waitingTcp with pending := [{ someEntry .tcp 1 with retriesRemaining := 0 }] } = .next t ∧
      t.out = waitingTcp.out ++ acts ∧ acts = [.requestResult 9 .timeout] :=
  ⟨_, [.requestResult 9 .timeout], rfl, by decide, rfl⟩

/-- A reply that is counted and discarded: the premise of the statements about what one event may write. -/
theorem witness_StateIsWrittenByItsOwnEvents :
    (after (.rxChunk [0x00, 0x09, 0x00, 0x00, 0x00, 0x03, 0x01, 0x83, 0x02]) waitingTcp).map
      (fun t => (t.ctr.framesReceived, t.pending.length, t.lastTid)) = some (1, 1, 1) := by decide +kernel

end Sys2Proof.Tests
end

section
/-! SUPPORT. What a step does with its oldest input, and what a unit row presents (spec/00_scope.md R8, R9). -/

namespace Sys2Proof.Machine

/-! ### Taking the oldest input -/

@[simp] theorem fetch_of_cons {s : State} {inp : Input} {rest : List Input} (hs : s.input = inp :: rest) :
    fetch s = some (inp, { s with input := rest }) := by
  simp only [fetch, hs]

theorem step_of_fetch_decode {s s' : State} {inp : Input} {i : Instr} (hf : fetch s = some (inp, s'))
    (hd : decode inp = .ok i) : step s = exec i s' := by
  simp only [step, hf, hd]

/-- Settles O4: fetching gives the oldest input and the state without it, and the step runs what that input decodes to. -/
theorem stepRunsOldestInput : Obligations.StepRunsOldestInput := by
  intro s inp rest i hs hd
  exact step_of_fetch_decode (fetch_of_cons hs) hd

/-! ### The unit rows -/

/-- The result of a codec, framer or CRC row, computed from its operands alone (R9); the nine events have none. -/
def unitResult : Instr → Option UnitOut
  | .encodeReadCoils a q => some (.encoded (encodeReadCoils a q))
  | .encodeReadDiscreteInputs a q => some (.encoded (encodeReadDiscreteInputs a q))
  | .encodeReadHoldingRegisters a q => some (.encoded (encodeReadHoldingRegisters a q))
  | .encodeReadInputRegisters a q => some (.encoded (encodeReadInputRegisters a q))
  | .encodeWriteSingleCoil a v => some (.encoded (encodeWriteSingleCoil a v))
  | .encodeWriteSingleRegister a v => some (.encoded (encodeWriteSingleRegister a v))
  | .encodeWriteMultipleCoils a vs => some (.encoded (encodeWriteMultipleCoils a vs))
  | .encodeWriteMultipleRegisters a vs => some (.encoded (encodeWriteMultipleRegisters a vs))
  | .decodeBitsReadCoils rest => some (.decoded (decodeBits 0x01 (0x01 :: rest)))
  | .decodeBitsReadDiscreteInputs rest => some (.decoded (decodeBits 0x02 (0x02 :: rest)))
  | .decodeRegsReadHoldingRegisters rest => some (.decoded (decodeRegs 0x03 (0x03 :: rest)))
  | .decodeRegsReadInputRegisters rest => some (.decoded (decodeRegs 0x04 (0x04 :: rest)))
  | .decodeWriteCoilEcho rest => some (.decoded (decodeWriteCoilEcho (0x05 :: rest)))
  | .decodeWriteRegEcho rest => some (.decoded (decodeWriteRegEcho (0x06 :: rest)))
  | .decodeWriteMultiEchoCoils rest => some (.decoded (decodeWriteMultiEcho 0x0F (0x0F :: rest)))
  | .decodeWriteMultiEchoRegisters rest => some (.decoded (decodeWriteMultiEcho 0x10 (0x10 :: rest)))
  | .decodeException fc rest => some (.decoded (decodeException ((0x80 ||| fc.setWidth 8) :: rest)))
  | .decodeUnimplemented pdu => some (.decoded (decodeUnimplemented pdu))
  | .tcpWrap tid u pdu => some (.frameBytes (tcpWrap tid u pdu))
  | .tcpTryUnwrap buf => some (.unwrapped (tcpTryUnwrap buf))
  | .rtuWrap u pdu => some (.frameBytes (rtuWrap u pdu))
  | .rtuTryUnwrap g => some (.unwrapped (rtuTryUnwrap g))
  | .crc16 bytes => some (.crc (crcOf bytes))
  | .cfgWrite _ | .connect _ | .transportOpened | .transportFailed | .disconnect _ | .request _ _ | .rxChunk _ | .rxGap
  | .tick _ => none

@[simp] theorem unitResult_isSome (i : Instr) : (unitResult i).isSome = isUnitRow i := by
  cases i <;> rfl

/-- A unit row presents its result from every state; the events are excluded, having no result. -/
theorem presents_of_unitResult {i : Instr} {r : UnitOut} (hr : unitResult i = some r) (s : State) : Presents i s r := by
  cases i <;> simp only [unitResult, reduceCtorEq, Option.some.injEq] at hr
  all_goals
    subst hr
    rfl

/-- Settles O54: the result of a unit row is a function of its operands, so one result serves every state. -/
theorem unitRowsArePure : Obligations.UnitRowsArePure := by
  intro i hi
  obtain ⟨r, hr⟩ : ∃ r, unitResult i = some r := by
    rwa [← Option.isSome_iff_exists, unitResult_isSome]
  exact ⟨r, presents_of_unitResult hr⟩

end Sys2Proof.Machine
end

section
/-! SUPPORT. What an instruction can do, event by event: the unit rows apart from the nine events, then the events that
Laws/ says nothing of yet (spec/44_transaction_engine.md R345 to R350, R360, R380). -/

namespace Sys2Proof.Machine

/-! ### The instructions: the unit rows, and the nine events -/

/-- To prove something of every instruction, prove it of the unit rows together and of each event. -/
theorem unit_or_event {motive : Instr → Prop} (unit : ∀ i, isUnitRow i = true → motive i)
    (cfgWrite : ∀ w, motive (.cfgWrite w)) (connect : ∀ tag, motive (.connect tag))
    (transportOpened : motive .transportOpened) (transportFailed : motive .transportFailed)
    (disconnect : ∀ tag, motive (.disconnect tag)) (request : ∀ tag op, motive (.request tag op))
    (rxChunk : ∀ bytes, motive (.rxChunk bytes)) (rxGap : motive .rxGap) (tick : ∀ n, motive (.tick n)) (i : Instr) :
    motive i := by
  cases i
  case cfgWrite w => exact cfgWrite w
  case connect tag => exact connect tag
  case transportOpened => exact transportOpened
  case transportFailed => exact transportFailed
  case disconnect tag => exact disconnect tag
  case request tag op => exact request tag op
  case rxChunk bytes => exact rxChunk bytes
  case rxGap => exact rxGap
  case tick n => exact tick n
  all_goals exact unit _ rfl

/-- A unit row presents one result and does nothing else (R9). -/
theorem exec_unitRow {i : Instr} (hi : isUnitRow i = true) (s : State) : ∃ r, exec i s = .next (present r s) := by
  obtain ⟨r, hr⟩ := unitRowsArePure i hi
  exact ⟨r, hr s⟩

/-- Everything a step can do: wait, or run what the oldest input decodes to on the state without that input. -/
theorem step_cases {s t : State} (h : step s = .next t) :
    t = s ∨ ∃ inp rest i, s.input = inp :: rest ∧ decode inp = .ok i ∧ exec i { s with input := rest } = .next t := by
  cases hs : s.input with
  | nil =>
    simp only [step, fetch, hs, Host.Outcome.next.injEq] at h
    exact .inl h.symm
  | cons inp rest =>
    cases hd : decode inp with
    | error e =>
      simp only [step, fetch_of_cons hs, hd] at h
      cases h
    | ok i => exact .inr ⟨inp, rest, i, rfl, hd, (step_of_fetch_decode (fetch_of_cons hs) hd).symm.trans h⟩

/-! ### The connection events -/

/-- Everything `Connect` can do (R345). -/
theorem execConnect_cases (tag : Tag) (s : State) :
    (s.conn ≠ .disconnected ∧ execConnect tag s = .next (emit (.connectResult tag .invalidState) s)) ∨
    (s.conn = .disconnected ∧ execConnect tag s = .next { s with
      mode := s.cfg.mode, rxBuf := [], rxOverrun := false, conn := .connecting, connectTag := some tag
      out := s.out ++ [.transportOpen s.cfg.endpoint s.cfg.mode] }) := by
  rw [execConnect]
  split_ifs with hc
  · exact .inl ⟨hc, rfl⟩
  · exact .inr ⟨not_not.1 hc, rfl⟩

/-- `answerConnect` by its two fields: the waiting tag is answered and forgotten. -/
theorem answerConnect_eq (o : CallOutcome) (s : State) :
    answerConnect o s = { s with
      connectTag := none, out := s.out ++ s.connectTag.toList.map (fun c => .connectResult c o) } :=
  State.ext_fields (answerConnect_fields o s)

/-- Everything `TransportOpened` can do (R347). -/
theorem execTransportOpened_cases (s : State) :
    (s.conn = .connecting ∧ execTransportOpened s = .next { s with
      conn := .connected, lastActivity := s.now, connectTag := none
      out := s.out ++ s.connectTag.toList.map (fun c => .connectResult c (.ok none)) }) ∨
    (s.conn ≠ .connecting ∧ execTransportOpened s = .next (emit .transportClose s)) := by
  rw [execTransportOpened]
  split_ifs with hc
  · exact .inl ⟨hc, by rw [answerConnect_eq]⟩
  · exact .inr ⟨hc, rfl⟩

/-- Everything `TransportFailed` can do (R349, log 9). -/
theorem execTransportFailed_cases (s : State) :
    (s.conn = .connecting ∧ execTransportFailed s = .next { s with
      conn := .disconnected, rxBuf := [], rxOverrun := false, connectTag := none
      out := s.out ++ s.connectTag.toList.map (fun c => .connectResult c .connectionError) }) ∨
    (s.conn = .connected ∧ execTransportFailed s = .next { s with
      conn := .disconnected, rxBuf := [], rxOverrun := false, pending := []
      out := s.out ++ s.pending.map (fun p => .requestResult p.tag .aborted)
        ++ [.transportClose, .linkDown .connectionError] }) ∨
    ((s.conn = .disconnected ∨ s.conn = .closing) ∧ execTransportFailed s = .next s) := by
  rw [execTransportFailed]
  cases s.conn with
  | connecting => exact .inl ⟨rfl, by rw [answerConnect_eq]; rfl⟩
  | connected => exact .inr (.inl ⟨rfl, by simp [emit, dropLink, setOverrun, bufClear, setConn, failAll]⟩)
  | disconnected => exact .inr (.inr ⟨.inl rfl, rfl⟩)
  | closing => exact .inr (.inr ⟨.inr rfl, rfl⟩)

/-- What `Disconnect` does (R350): the link is down, its requests are aborted, and so is a `Connect` that waits. -/
theorem execDisconnect_eq (tag : Tag) (s : State) :
    execDisconnect tag s = .next { s with
      conn := .disconnected, pending := [], rxBuf := [], rxOverrun := false
      connectTag := if s.conn = .connecting then none else s.connectTag
      out := s.out ++ s.pending.map (fun p => .requestResult p.tag .aborted)
        ++ (if s.conn = .connecting then s.connectTag.toList.map (fun c => .connectResult c .aborted) else [])
        ++ (if s.conn = .disconnected then [] else [.transportClose])
        ++ [.disconnectResult tag (.ok none)] } := by
  rw [execDisconnect]
  congr 1
  apply State.ext_fields
  cases hc : s.conn <;> simp [closeUnless, abortConnect]

/-! ### Receiving and time -/

/-- Everything `RxChunk` can do (R360). -/
theorem execRxChunk_cases (bytes : Bytes) (s : State) :
    (s.conn ≠ .connected ∧ execRxChunk bytes s = .next s) ∨
    (s.conn = .connected ∧ execRxChunk bytes s = .next (bytes.foldl rxByte (countReceive bytes s))) := by
  rw [execRxChunk]
  split_ifs with hc
  · exact .inl ⟨hc, rfl⟩
  · exact .inr ⟨not_not.1 hc, rfl⟩

/-- A frame is counted, whatever becomes of it (R366, R390). -/
@[simp] theorem engineFrame_ctr (f : Frame) (s : State) :
    (engineFrame f s).ctr = { s.ctr with framesReceived := s.ctr.framesReceived + 1 } := by
  rcases engineFrame_cases f s with ⟨h, -⟩ | ⟨p, o, -, -, h⟩ <;> simp [h]

/-- A frame removes at most one entry from the table and adds none (R364). -/
theorem engineFrame_pending_sublist (f : Frame) (s : State) : (engineFrame f s).pending.Sublist s.pending := by
  rcases engineFrame_cases f s with ⟨h, -⟩ | ⟨p, o, -, -, h⟩ <;> rw [h]
  · simp
  · exact List.eraseP_sublist

/-- The deadline step of a `Tick`, field by field (R380 to R382, R390). -/
theorem runDeadlines_eq (s : State) :
    runDeadlines s = { s with
      pending := s.pending.filterMap (afterExamine s.now)
      out := s.out ++ (s.pending.filter (isDue s.now)).map dueAction
      lastActivity := if (s.pending.filter (isDue s.now)).filter hasRetry = [] then s.lastActivity else s.now
      ctr := (examineAll s.pending s).1.ctr } := by
  apply State.ext_fields
  simp [runDeadlines, examineAll_snd, examineAll_out, examineAll_lastActivity]

end Sys2Proof.Machine
end

section
/-! SUPPORT. The invariant of the block: how a state comes to meet it, kind of change by kind of change, and that every event
keeps it (spec/10_state.md R38, R42 to R44; spec/44_transaction_engine.md R351 to R356, R380). -/

namespace Sys2Proof.Machine

/-! ### The kinds of change -/

/-- With an empty table and an empty buffer the invariant asks little, and nothing of the mode: so it stands at reset, and
when a link opens or drops. -/
theorem State.Inv.of_quiet {s : State} (hpar : s.par.wf) (htid : s.lastTid ≠ 0xFFFF) (hact : s.lastActivity ≤ s.now)
    (hconn : s.conn ≠ .closing) (htag : s.connectTag.isSome = true ↔ s.conn = .connecting) (hp : s.pending = [])
    (hbuf : s.rxBuf = []) (hover : s.rxOverrun = false) : s.Inv where
  params := hpar
  notClosing := hconn
  pendingConnected h := absurd hp h
  connectTag := htag
  bufferConnected _ := ⟨hbuf, hover⟩
  tcpTable _ := by simp [hp]
  rtuTable _ := by simp [hp]
  entries := by simp [hp]
  lastTid := htid
  bufferCap := by simp [hbuf]
  bufferTcp _ := ⟨tcpTryUnwrap_of_short (by simp [hbuf]), hover⟩
  activity := hact

/-- Receiving takes entries out of the table and leaves a buffer of its own: the invariant asks only for that buffer again. -/
theorem State.Inv.of_receive {s t : State} (h : s.Inv)
    (hframe : t.par = s.par ∧ t.conn = s.conn ∧ t.mode = s.mode ∧ t.lastTid = s.lastTid ∧ t.now = s.now ∧
      t.connectTag = s.connectTag)
    (hact : t.lastActivity ≤ t.now) (hp : t.pending.Sublist s.pending)
    (hconn : t.conn ≠ .connected → t.rxBuf = [] ∧ t.rxOverrun = false) (hcap : t.rxBuf.length ≤ t.par.rxBufCap)
    (htcp : t.mode = .tcp → tcpTryUnwrap t.rxBuf = .incomplete ∧ t.rxOverrun = false) : t.Inv := by
  obtain ⟨epar, econn, emode, etid, enow, etag⟩ := hframe
  refine ⟨?_, ?_, ?_, ?_, hconn, ?_, ?_, ?_, ?_, hcap, htcp, hact⟩
  · rw [epar]
    exact h.params
  · rw [econn]
    exact h.notClosing
  · intro hne
    rw [econn]
    exact h.pendingConnected fun he => hne (List.sublist_nil.1 (he ▸ hp))
  · rw [etag, econn]
    exact h.connectTag
  · rw [epar, emode]
    intro hm
    obtain ⟨hlen, hids⟩ := h.tcpTable hm
    exact ⟨hp.length_le.trans hlen, hids.sublist (hp.map _)⟩
  · rw [emode]
    exact fun hm => hp.length_le.trans (h.rtuTable hm)
  · rw [epar, emode, enow]
    exact fun p hm => h.entries p (hp.subset hm)
  · rw [etid]
    exact h.lastTid

/-- The invariant says nothing of the configuration, the counters, the inputs, the actions and the result port, and it
survives the loss of an entry. -/
theorem State.Inv.of_sublist {s t : State} (h : s.Inv)
    (hframe : t.par = s.par ∧ t.conn = s.conn ∧ t.mode = s.mode ∧ t.lastTid = s.lastTid ∧ t.now = s.now ∧
      t.connectTag = s.connectTag)
    (hbuf : t.rxBuf = s.rxBuf ∧ t.rxOverrun = s.rxOverrun) (hact : t.lastActivity ≤ t.now)
    (hp : t.pending.Sublist s.pending) : t.Inv := by
  have ⟨epar, econn, emode, _⟩ := hframe
  obtain ⟨ebuf, eover⟩ := hbuf
  refine h.of_receive hframe hact hp ?_ ?_ ?_
  · rw [econn, ebuf, eover]
    exact h.bufferConnected
  · rw [ebuf, epar]
    exact h.bufferCap
  · rw [emode, ebuf, eover]
    exact h.bufferTcp

/-- Emitting an action keeps the invariant. -/
theorem State.Inv.emit {s : State} (h : s.Inv) (a : Action) : (emit a s).Inv :=
  h.of_sublist (by simp) (by simp) h.activity (List.Sublist.refl _)

/-- A new entry keeps the invariant if it is as its rules leave it and the table has room for it (R42, R355, R356). -/
theorem State.Inv.pendingAdd {s : State} {p : Pending} (h : s.Inv) (hconn : s.conn = .connected)
    (hok : p.Ok s.par s.mode s.now)
    (htcp : s.mode = .tcp → s.pending.length < s.par.maxPending ∧ ∀ q ∈ s.pending, q.id ≠ p.id)
    (hrtu : s.mode = .rtu → s.pending = []) : (pendingAdd p s).Inv :=
  { h with
    pendingConnected := fun _ => hconn
    tcpTable := by
      intro hm
      obtain ⟨hroom, hfresh⟩ := htcp hm
      obtain ⟨-, hids⟩ := h.tcpTable hm
      simp only [pendingAdd_fields, List.length_append, List.length_singleton, List.map_append, List.map_singleton]
      refine ⟨hroom, List.nodup_append'.2 ⟨hids, List.nodup_singleton _, ?_⟩⟩
      simpa using hfresh
    rtuTable := by
      intro hm
      simp [hrtu hm]
    entries := by
      simp only [pendingAdd_fields, List.mem_append, List.mem_singleton]
      rintro q (hq | rfl)
      · exact h.entries q hq
      · exact hok }

/-! ### A request -/

/-- The entry a request registers is as the rules say, given the id of its mode (R352, R355 to R357). -/
theorem newPending_ok {s : State} {tag : Tag} {op : Op} {c : RequestCfg} {r : RequestPdu} {id : U16}
    (hc : requestCfg s.cfg = some c) (he : encodeOp op = .ok r) (hhz : 0 < s.par.tickHz)
    (htcp : s.mode = .tcp → id ≠ 0xFFFF) (hrtu : s.mode = .rtu → id = 0) :
    (newPending tag c id r s).Ok s.par s.mode s.now := by
  obtain ⟨-, ht1, ht2, -, hk, -, hu1, hu2⟩ := usable_of_requestCfg hc
  refine ⟨?_, functionCode_mem he, ?_, Nat.le_mul_of_pos_left _ ht1, Nat.mul_le_mul_right _ ht2,
    Nat.lt_add_of_pos_right (Nat.mul_pos ht1 hhz), le_refl _, htcp, hrtu, ⟨r.payload, rfl⟩⟩
  · show BitVec.ofNat 8 c.unitId ≠ 0
    intro h0
    have : c.unitId % 256 = 0 := by simpa using congrArg BitVec.toNat h0
    omega
  · show (BitVec.ofNat 32 c.retries).toNat ≤ 10
    rw [BitVec.toNat_ofNat]
    exact (Nat.mod_le _ _).trans hk

/-- Writing a request's frame and registering its entry keep the invariant (R357). -/
theorem State.Inv.transmitAndRegister {s : State} {tag : Tag} {c : RequestCfg} {id : U16} {r : RequestPdu} (h : s.Inv)
    (hconn : s.conn = .connected) (hok : (newPending tag c id r s).Ok s.par s.mode s.now)
    (htcp : s.mode = .tcp → s.pending.length < s.par.maxPending ∧ ∀ q ∈ s.pending, q.id ≠ id)
    (hrtu : s.mode = .rtu → s.pending = []) : (transmitAndRegister tag c id r s).Inv := by
  have hsent : ∀ frame a, (countTransmit frame (Machine.emit a s)).Inv := fun frame a =>
    h.of_sublist (by simp) (by simp) (by simp) (by simp)
  exact (hsent _ _).pendingAdd hconn hok htcp hrtu

/-- A `Request` keeps the invariant (R352 to R358). -/
theorem inv_of_execRequest {s t : State} {tag : Tag} {op : Op} (h : s.Inv) (he : execRequest tag op s = .next t) :
    t.Inv := by
  rcases execRequest_cases tag op s with ⟨o, -, hx⟩ | ⟨c, r, id, s1, hc, ho, hconn, ha, hx⟩ <;>
    obtain rfl := Host.Outcome.next.inj (hx.symm.trans he)
  · exact h.emit _
  · obtain ⟨hhz, -⟩ := h.params
    rcases allocate_eq_some ha with ⟨hm, rfl, hfresh, hne, rfl⟩ | ⟨hm, rfl, hp, rfl⟩
    · obtain ⟨hcap, -⟩ := h.tcpTable hm
      have halloc : ({ s with lastTid := candidateTid s } : State).Inv := { h with lastTid := candidateTid_ne s }
      exact halloc.transmitAndRegister hconn
        (newPending_ok hc ho hhz (fun _ => candidateTid_ne s) (fun hr => by simp [hm] at hr))
        (fun _ => ⟨lt_of_le_of_ne hcap hne, hfresh⟩) (fun hr => by simp [hm] at hr)
    · exact h.transmitAndRegister hconn (newPending_ok hc ho hhz (fun ht => by simp [hm] at ht) (fun _ => rfl))
        (fun ht => by simp [hm] at ht) (fun _ => hp)

/-! ### Receiving -/

/-- The extraction loop only removes entries (R310, R364). -/
theorem extractTcpLoop_pending_sublist (n : Nat) (s : State) : (extractTcpLoop n s).pending.Sublist s.pending :=
  extractTcpLoop_induct (P := fun t => t.pending.Sublist s.pending) (fun _ _ hp => hp)
    (fun f t hp => (engineFrame_pending_sublist f t).trans hp) n (List.Sublist.refl _)

/-- A byte received over TCP leaves a buffer that waits for more (R305, R310). -/
theorem tcpRxByte_incomplete (b : Byte) (s : State) : tcpTryUnwrap (tcpRxByte b s).rxBuf = .incomplete :=
  extractTcpLoop_incomplete (Nat.lt_succ_self _)

/-- A received byte keeps the invariant (R302, R305, R360). -/
theorem State.Inv.rxByte {s : State} (h : s.Inv) (hconn : s.conn = .connected) (b : Byte) : (rxByte s b).Inv := by
  cases hm : s.mode with
  | tcp =>
    have hx : Machine.rxByte s b = tcpRxByte b s := by rw [Machine.rxByte, hm]
    have hinc : tcpTryUnwrap (Machine.rxByte s b).rxBuf = .incomplete := hx ▸ tcpRxByte_incomplete b s
    refine h.of_receive (by simp) (by simpa using h.activity) ?_ (by simp [hconn]) ?_ fun _ => ⟨hinc, ?_⟩
    · rw [hx]
      exact extractTcpLoop_pending_sublist _ _
    · obtain ⟨-, hcap, -⟩ := h.params
      have hwaiting := length_of_incomplete hinc
      simp only [rxByte_frame]
      omega
    · obtain ⟨-, hover⟩ := h.bufferTcp hm
      simpa [hx, tcpRxByte, extractTcp] using hover
  | rtu =>
    have hx : Machine.rxByte s b = rtuRxByte b s := by rw [Machine.rxByte, hm]
    have hcap := h.bufferCap
    rw [hx, rtuRxByte]
    split_ifs with hfull
    · exact h.of_receive (by simp) h.activity (by simp) (by simp [hconn]) hcap (by simp [hm])
    · have hroom : (bufAppend b s).rxBuf.length ≤ s.par.rxBufCap := by
        simp only [bufAppend_fields, List.length_append, List.length_singleton]
        omega
      exact h.of_receive (by simp) h.activity (by simp) (by simp [hconn]) hroom (by simp [hm])

/-- An `RxChunk` keeps the invariant (R360). -/
theorem inv_of_execRxChunk {s t : State} {bytes : Bytes} (h : s.Inv) (he : execRxChunk bytes s = .next t) : t.Inv := by
  rcases execRxChunk_cases bytes s with ⟨-, hx⟩ | ⟨hconn, hx⟩ <;> obtain rfl := Host.Outcome.next.inj (hx.symm.trans he)
  · exact h
  · have hcounted : (countReceive bytes s).Inv := h.of_sublist (by simp) (by simp) (by simp) (by simp)
    have hbyte : ∀ u b, State.Inv u ∧ u.conn = .connected → (rxByte u b).Inv ∧ (rxByte u b).conn = .connected := by
      rintro u b ⟨hu, hc⟩
      exact ⟨hu.rxByte hc b, by simpa using hc⟩
    exact (foldl_rxByte_induct hbyte bytes ⟨hcounted, hconn⟩).1

/-- An `RxGap` keeps the invariant (R300). -/
theorem inv_of_execRxGap {s t : State} (h : s.Inv) (he : execRxGap s = .next t) : t.Inv := by
  have hdrop : s.conn = .connected → (dropLink s).Inv := fun hconn =>
    h.of_receive (by simp) h.activity (by simp) (by simp [hconn]) (by simp)
      (fun _ => ⟨tcpTryUnwrap_of_short (by simp), by simp⟩)
  rcases execRxGap_cases s with hx | ⟨-, hconn, hx | ⟨f, -, -, hx⟩⟩ <;>
    obtain rfl := Host.Outcome.next.inj (hx.symm.trans he)
  · exact h
  · exact hdrop hconn
  · exact (hdrop hconn).of_sublist (by simp) (by simp) (by simpa using h.activity) (engineFrame_pending_sublist f _)

/-! ### Time -/

/-- An entry that stays in the table keeps its id (R381). -/
theorem afterExamine_id {n : Nat} {p q : Pending} (h : afterExamine n p = some q) : q.id = p.id := by
  rw [afterExamine] at h
  split_ifs at h <;> cases h <;> rfl

/-- The ids left after a `Tick` are among those before, in the same order. -/
theorem map_id_filterMap_afterExamine_sublist (n : Nat) (l : List Pending) :
    ((l.filterMap (afterExamine n)).map Pending.id).Sublist (l.map Pending.id) := by
  induction l with
  | nil => simp
  | cons p l ih =>
    rw [List.filterMap_cons]
    cases hq : afterExamine n p with
    | none => exact ih.cons _
    | some q =>
      rw [List.map_cons, List.map_cons, afterExamine_id hq]
      exact ih.cons_cons _

/-- An entry examined at a later time is, if it stays, as the rules leave it at that time (R380, R381). -/
theorem Pending.Ok.afterExamine {par : Params} {mode : Mode} {now n : Nat} {p q : Pending} (h : p.Ok par mode now)
    (hhz : 0 < par.tickHz) (hn : now ≤ n) (hq : afterExamine n p = some q) : q.Ok par mode n := by
  rw [Machine.afterExamine] at hq
  split_ifs at hq with hdue hretry <;> cases hq
  · have hleft : 0 < p.retriesRemaining.toNat := of_decide_eq_true hretry
    have hmost := h.retries
    refine { h with retries := ?_, ahead := ?_, near := le_refl _ }
    · show (p.retriesRemaining - 1).toNat ≤ 10
      bv_omega
    · exact Nat.lt_add_of_pos_right (hhz.trans_le h.timeoutLow)
  · have hahead : n < p.deadline := by simpa [isDue] using hdue
    exact { h with ahead := hahead, near := h.near.trans (Nat.add_le_add_right hn _) }

/-- Moving the time forward and examining the table keep the invariant (R380). -/
theorem State.Inv.runDeadlines {s : State} (h : s.Inv) {n : Nat} (hn : s.now ≤ n) :
    (runDeadlines { s with now := n }).Inv := by
  have hshort : (s.pending.filterMap (afterExamine n)).length ≤ s.pending.length := List.length_filterMap_le _ _
  rw [runDeadlines_eq]
  exact { h with
    pendingConnected := fun hne => h.pendingConnected fun he => hne (by simp [he])
    tcpTable := by
      intro hm
      obtain ⟨hcap, hids⟩ := h.tcpTable hm
      exact ⟨hshort.trans hcap, hids.sublist (map_id_filterMap_afterExamine_sublist n _)⟩
    rtuTable := fun hm => hshort.trans (h.rtuTable hm)
    entries := by
      intro q hq
      obtain ⟨p, hp, hpq⟩ := List.mem_filterMap.1 hq
      obtain ⟨hhz, -⟩ := h.params
      exact (h.entries p hp).afterExamine hhz hn hpq
    activity := by
      have := h.activity
      dsimp only
      split_ifs <;> omega }

/-- The watchdog keeps the invariant (R383). -/
theorem State.Inv.watchdog {s : State} (h : s.Inv) : (watchdog s).Inv := by
  rcases watchdog_cases s with ⟨-, hx⟩ | ⟨hdue, hx⟩ <;> rw [hx]
  · exact h
  · obtain ⟨hconn, -⟩ := (watchdogDue_iff s).1 hdue
    have htag := h.connectTag
    exact .of_quiet h.params h.lastTid h.activity (by simp) (by simpa [hconn] using htag) rfl rfl rfl

/-! ### The connection -/

/-- With no link, the table and the buffer are empty (R351, R341). -/
theorem State.Inv.empty_of_not_connected {s : State} (h : s.Inv) (hconn : s.conn ≠ .connected) :
    s.pending = [] ∧ s.rxBuf = [] ∧ s.rxOverrun = false :=
  ⟨by_contra fun hp => hconn (h.pendingConnected hp), h.bufferConnected hconn⟩

/-- A `Connect` keeps the invariant (R345). -/
theorem inv_of_execConnect {s t : State} {tag : Tag} (h : s.Inv) (he : execConnect tag s = .next t) : t.Inv := by
  rcases execConnect_cases tag s with ⟨-, hx⟩ | ⟨hconn, hx⟩ <;> obtain rfl := Host.Outcome.next.inj (hx.symm.trans he)
  · exact h.emit _
  · obtain ⟨hp, -⟩ := h.empty_of_not_connected (by simp [hconn])
    exact .of_quiet h.params h.lastTid h.activity (by simp) (by simp) hp rfl rfl

/-- A `TransportOpened` keeps the invariant (R347). -/
theorem inv_of_execTransportOpened {s t : State} (h : s.Inv) (he : execTransportOpened s = .next t) : t.Inv := by
  rcases execTransportOpened_cases s with ⟨hconn, hx⟩ | ⟨-, hx⟩ <;>
    obtain rfl := Host.Outcome.next.inj (hx.symm.trans he)
  · obtain ⟨hp, hbuf, hover⟩ := h.empty_of_not_connected (by simp [hconn])
    exact .of_quiet h.params h.lastTid (le_refl _) (by simp) (by simp) hp hbuf hover
  · exact h.emit _

/-- A `TransportFailed` keeps the invariant (R349). -/
theorem inv_of_execTransportFailed {s t : State} (h : s.Inv) (he : execTransportFailed s = .next t) : t.Inv := by
  rcases execTransportFailed_cases s with ⟨hconn, hx⟩ | ⟨hconn, hx⟩ | ⟨-, hx⟩ <;>
    obtain rfl := Host.Outcome.next.inj (hx.symm.trans he)
  · obtain ⟨hp, -⟩ := h.empty_of_not_connected (by simp [hconn])
    exact .of_quiet h.params h.lastTid h.activity (by simp) (by simp) hp rfl rfl
  · have htag := h.connectTag
    exact .of_quiet h.params h.lastTid h.activity (by simp) (by simpa [hconn] using htag) rfl rfl rfl
  · exact h

/-- A `Disconnect` keeps the invariant (R350). -/
theorem inv_of_execDisconnect {s t : State} {tag : Tag} (h : s.Inv) (he : execDisconnect tag s = .next t) : t.Inv := by
  obtain rfl := Host.Outcome.next.inj ((execDisconnect_eq tag s).symm.trans he)
  have htag := h.connectTag
  refine .of_quiet h.params h.lastTid h.activity (by simp) ?_ rfl rfl rfl
  by_cases hconn : s.conn = .connecting
  · simp [hconn]
  · simpa [hconn] using htag

/-! ### Every instruction and every step -/

/-- Every instruction keeps the invariant. -/
theorem inv_of_exec {i : Instr} {s t : State} (h : s.Inv) (he : exec i s = .next t) : t.Inv := by
  induction i using unit_or_event with
  | unit i hi =>
    obtain ⟨r, hx⟩ := exec_unitRow hi s
    obtain rfl := Host.Outcome.next.inj (hx.symm.trans he)
    exact h.of_sublist (by simp) (by simp) h.activity (by simp)
  | cfgWrite w =>
    obtain rfl := Host.Outcome.next.inj he
    exact h.of_sublist (by simp) (by simp) h.activity (by simp)
  | connect tag => exact inv_of_execConnect h he
  | transportOpened => exact inv_of_execTransportOpened h he
  | transportFailed => exact inv_of_execTransportFailed h he
  | disconnect tag => exact inv_of_execDisconnect h he
  | request tag op => exact inv_of_execRequest h he
  | rxChunk bytes => exact inv_of_execRxChunk h he
  | rxGap => exact inv_of_execRxGap h he
  | tick n =>
    obtain rfl := Host.Outcome.next.inj he
    exact (h.runDeadlines (le_max_left _ _)).watchdog

/-- Settles O52: taking an input touches nothing the invariant speaks of, and every instruction keeps it. -/
theorem stepKeepsInvariant : Obligations.StepKeepsInvariant := by
  intro s t h hstep
  rcases step_cases hstep with rfl | ⟨inp, rest, i, -, -, he⟩
  · exact h
  · have htaken : ({ s with input := rest } : State).Inv := h.of_sublist (by simp) (by simp) h.activity (by simp)
    exact inv_of_exec htaken he

/-! ### Reset -/

/-- The parameters of the machine are in the ranges of R12, whatever the free constants are (log 7). -/
theorem Params.reset_wf : Params.reset.wf :=
  ⟨Nat.succ_pos _, Nat.le_add_right _ _, Nat.succ_pos _, Config.maxPendingPred.isLt⟩

/-- Settles O51: the reset state has an empty table and an empty buffer. -/
theorem resetSatisfiesInvariant : Obligations.ResetSatisfiesInvariant :=
  .of_quiet Params.reset_wf (by simp) (by simp) (by simp) (by simp) (by simp) (by simp) (by simp)

/-- Settles O50: by the fields of the reset state, and the registers and counters that stand in two of them. -/
theorem resetStateIsAsSpecified : Obligations.ResetStateIsAsSpecified := by
  simp [Obligations.ResetStateIsAsSpecified, Cfg.reset, Counters.zero]

end Sys2Proof.Machine
end

section
/-! SUPPORT. Which event writes which field (spec/10_state.md R30, R31, R37, R39, R43, R45, R48). -/

namespace Sys2Proof.Machine

/-- What allocating an id leaves alone: all but `lastTid` (R355, R356). -/
theorem allocate_frame {s s1 : State} {id : U16} (h : allocate s = some (id, s1)) :
    s1.par = s.par ∧ s1.cfg = s.cfg ∧ s1.mode = s.mode ∧ s1.now = s.now ∧ s1.ctr = s.ctr ∧ s1.input = s.input := by
  rcases allocate_eq_some h with ⟨-, -, -, -, rfl⟩ | ⟨-, -, -, rfl⟩ <;> simp

/-- What the deadline step leaves alone, the two receive counters among it (R380, R390). -/
@[simp] theorem runDeadlines_frame (s : State) :
    (runDeadlines s).par = s.par ∧ (runDeadlines s).cfg = s.cfg ∧ (runDeadlines s).mode = s.mode ∧
    (runDeadlines s).lastTid = s.lastTid ∧ (runDeadlines s).input = s.input ∧
    (runDeadlines s).ctr.bytesReceived = s.ctr.bytesReceived ∧
    (runDeadlines s).ctr.framesReceived = s.ctr.framesReceived := by
  simp [runDeadlines_eq, examineAll_ctr]

/-- What the watchdog leaves alone (R383). -/
@[simp] theorem watchdog_frame (s : State) :
    (watchdog s).par = s.par ∧ (watchdog s).cfg = s.cfg ∧ (watchdog s).mode = s.mode ∧
    (watchdog s).lastTid = s.lastTid ∧ (watchdog s).input = s.input ∧ (watchdog s).ctr = s.ctr := by
  rcases watchdog_cases s with ⟨-, h⟩ | ⟨-, h⟩ <;> simp [h]

/-- Settles O59: event by event, by what the event leaves alone. -/
theorem stateIsWrittenByItsOwnEvents : Obligations.StateIsWrittenByItsOwnEvents := by
  intro i s t he
  induction i using unit_or_event with
  | unit i hi =>
    obtain ⟨r, hx⟩ := exec_unitRow hi s
    obtain rfl := Host.Outcome.next.inj (hx.symm.trans he)
    simp
  | cfgWrite w =>
    obtain rfl := Host.Outcome.next.inj he
    simp
  | connect tag =>
    rcases execConnect_cases tag s with ⟨-, hx⟩ | ⟨-, hx⟩ <;>
      obtain rfl := Host.Outcome.next.inj (hx.symm.trans he) <;> simp
  | transportOpened =>
    rcases execTransportOpened_cases s with ⟨-, hx⟩ | ⟨-, hx⟩ <;>
      obtain rfl := Host.Outcome.next.inj (hx.symm.trans he) <;> simp
  | transportFailed =>
    rcases execTransportFailed_cases s with ⟨-, hx⟩ | ⟨-, hx⟩ | ⟨-, hx⟩ <;>
      obtain rfl := Host.Outcome.next.inj (hx.symm.trans he) <;> simp
  | disconnect tag =>
    obtain rfl := Host.Outcome.next.inj ((execDisconnect_eq tag s).symm.trans he)
    simp
  | request tag op =>
    rcases execRequest_cases tag op s with ⟨o, -, hx⟩ | ⟨c, r, id, s1, -, -, -, ha, hx⟩ <;>
      obtain rfl := Host.Outcome.next.inj (hx.symm.trans he)
    · simp
    · simp [transmitAndRegister, allocate_frame ha]
  | rxChunk bytes =>
    rcases execRxChunk_cases bytes s with ⟨-, hx⟩ | ⟨-, hx⟩ <;>
      obtain rfl := Host.Outcome.next.inj (hx.symm.trans he) <;> simp
  | rxGap =>
    rcases execRxGap_cases s with hx | ⟨-, -, hx | ⟨f, -, -, hx⟩⟩ <;>
      obtain rfl := Host.Outcome.next.inj (hx.symm.trans he) <;> simp
  | tick n =>
    obtain rfl := Host.Outcome.next.inj he
    simp

end Sys2Proof.Machine
end

section
/-! SUPPORT. The context of a run: the actions already emitted and the inputs still to come (spec/20_memory.md R82,
spec/10_state.md R47, log 1, log 2). Each operation does in every context what it does outside it. -/

namespace Sys2Proof.Machine

/-- The state `s` in a context: the actions `o` stand before its own, and the inputs `q` are still to come. -/
def State.within (o : List Action) (q : List Input) (s : State) : State := { s with out := o ++ s.out, input := q }

/-- The fields of a state in a context. -/
@[simp] theorem State.within_fields (o : List Action) (q : List Input) (s : State) :
    (s.within o q).par = s.par ∧ (s.within o q).cfg = s.cfg ∧ (s.within o q).conn = s.conn ∧
    (s.within o q).mode = s.mode ∧ (s.within o q).pending = s.pending ∧ (s.within o q).lastTid = s.lastTid ∧
    (s.within o q).rxBuf = s.rxBuf ∧ (s.within o q).rxOverrun = s.rxOverrun ∧ (s.within o q).now = s.now ∧
    (s.within o q).lastActivity = s.lastActivity ∧ (s.within o q).connectTag = s.connectTag ∧
    (s.within o q).ctr = s.ctr ∧ (s.within o q).input = q ∧ (s.within o q).out = o ++ s.out ∧
    (s.within o q).unitOut = s.unitOut := by
  refine ⟨?_, ?_, ?_, ?_, ?_, ?_, ?_, ?_, ?_, ?_, ?_, ?_, ?_, ?_, ?_⟩ <;> rfl

variable (o : List Action) (q : List Input) (s : State)

/-! ### The named operations -/

@[simp] theorem emit_within (a : Action) : emit a (s.within o q) = (emit a s).within o q :=
  State.ext_fields (by simp)

@[simp] theorem failAll_within (r : CallOutcome) : failAll r (s.within o q) = (failAll r s).within o q :=
  State.ext_fields (by simp)

@[simp] theorem answerConnect_within (r : CallOutcome) :
    answerConnect r (s.within o q) = (answerConnect r s).within o q :=
  State.ext_fields (by simp)

@[simp] theorem refuseRequest_within (tag : Tag) (r : CallOutcome) :
    refuseRequest tag r (s.within o q) = (refuseRequest tag r s).within o q :=
  emit_within o q s _

@[simp] theorem dropLink_within : dropLink (s.within o q) = (dropLink s).within o q := rfl

@[simp] theorem setConn_within (c : ConnState) : setConn c (s.within o q) = (setConn c s).within o q := rfl

/-! ### The connection -/

@[simp] theorem closeUnless_within (prev : ConnState) :
    closeUnless prev (s.within o q) = (closeUnless prev s).within o q := by
  simp only [closeUnless]
  split_ifs
  · exact emit_within o q s _
  · rfl

@[simp] theorem abortConnect_within (prev : ConnState) :
    abortConnect prev (s.within o q) = (abortConnect prev s).within o q := by
  simp only [abortConnect]
  split_ifs
  · exact answerConnect_within o q s _
  · rfl

/-! ### Receiving -/

@[simp] theorem engineFrame_within (f : Frame) : engineFrame f (s.within o q) = (engineFrame f s).within o q := by
  simp only [engineFrame, State.within_fields]
  cases s.pending.find? (matchesFrame s.mode f) with
  | none => rfl
  | some p =>
    simp only [resolveEntry]
    cases resolution p.functionCode (decodePdu f.pdu) with
    | none => rfl
    | some r => exact emit_within o q (pendingRemove (matchesFrame s.mode f) (countFrame s)) _

theorem extractTcpLoop_within (n : Nat) : extractTcpLoop n (s.within o q) = (extractTcpLoop n s).within o q := by
  induction n generalizing s with
  | zero => rfl
  | succ n ih =>
    simp only [extractTcpLoop, State.within_fields]
    cases tcpTryUnwrap s.rxBuf with
    | incomplete => rfl
    | corrupt k => rfl
    | frame f =>
      calc extractTcpLoop n (engineFrame f ((bufDrop f.consumed s).within o q))
          = extractTcpLoop n ((engineFrame f (bufDrop f.consumed s)).within o q) := by rw [engineFrame_within]
        _ = (extractTcpLoop n (engineFrame f (bufDrop f.consumed s))).within o q := ih _

theorem rxByte_within (b : Byte) : rxByte (s.within o q) b = (rxByte s b).within o q := by
  simp only [rxByte, State.within_fields]
  cases s.mode with
  | tcp => exact extractTcpLoop_within o q (bufAppend b s) _
  | rtu =>
    simp only [rtuRxByte, State.within_fields]
    split_ifs <;> rfl

theorem foldl_rxByte_within (bytes : Bytes) : bytes.foldl rxByte (s.within o q) = (bytes.foldl rxByte s).within o q :=
  List.foldl_hom (State.within o q) (rxByte_within o q)

/-! ### Requests and time -/

/-- An id is allocated or refused in every context alike. -/
theorem allocate_within :
    allocate (s.within o q) = (allocate s).map fun a => (a.1, a.2.within o q) := by
  simp only [allocate, State.within_fields]
  cases s.mode with
  | tcp =>
    simp only [allocateTcp, apply_ite (Option.map _)]
    rfl
  | rtu =>
    simp only [allocateRtu, apply_ite (Option.map _)]
    rfl

theorem transmitAndRegister_within (tag : Tag) (c : RequestCfg) (id : U16) (r : RequestPdu) :
    transmitAndRegister tag c id r (s.within o q) = (transmitAndRegister tag c id r s).within o q :=
  State.ext_fields (by simp [transmitAndRegister, newPending])

@[simp] theorem runDeadlines_within : runDeadlines (s.within o q) = (runDeadlines s).within o q :=
  State.ext_fields (by simp [runDeadlines_eq, examineAll_ctr])

@[simp] theorem watchdog_within : watchdog (s.within o q) = (watchdog s).within o q := by
  have hdue : watchdogDue (s.within o q) = watchdogDue s := rfl
  simp only [watchdog, hdue]
  split_ifs
  · simp
  · rfl

/-! ### Every instruction -/

theorem execConnect_within (tag : Tag) :
    ∃ t : State, ∀ o q, execConnect tag (s.within o q) = .next (t.within o q) := by
  simp only [execConnect, State.within_fields]
  split_ifs
  · exact ⟨_, fun o q => congrArg _ (emit_within o q s _)⟩
  · exact ⟨_, fun o q => congrArg _ (emit_within o q { dropLink { s with mode := s.cfg.mode } with
      conn := .connecting, connectTag := some tag } _)⟩

theorem execTransportOpened_within :
    ∃ t : State, ∀ o q, execTransportOpened (s.within o q) = .next (t.within o q) := by
  simp only [execTransportOpened, State.within_fields]
  split_ifs
  · exact ⟨_, fun o q => congrArg _ (answerConnect_within o q { s with conn := .connected, lastActivity := s.now } _)⟩
  · exact ⟨_, fun o q => congrArg _ (emit_within o q s _)⟩

theorem execTransportFailed_within :
    ∃ t : State, ∀ o q, execTransportFailed (s.within o q) = .next (t.within o q) := by
  simp only [execTransportFailed, State.within_fields, emit_within, failAll_within, answerConnect_within,
    dropLink_within, setConn_within]
  cases s.conn <;> exact ⟨_, fun _ _ => rfl⟩

theorem execDisconnect_within (tag : Tag) :
    ∃ t : State, ∀ o q, execDisconnect tag (s.within o q) = .next (t.within o q) := by
  simp only [execDisconnect, State.within_fields, emit_within, failAll_within, dropLink_within, setConn_within,
    closeUnless_within, abortConnect_within]
  exact ⟨_, fun _ _ => rfl⟩

theorem execRequest_within (tag : Tag) (op : Op) :
    ∃ t : State, ∀ o q, execRequest tag op (s.within o q) = .next (t.within o q) := by
  simp only [execRequest, State.within_fields, refuseRequest_within, allocate_within]
  cases requestCfg s.cfg with
  | none => exact ⟨_, fun _ _ => rfl⟩
  | some c =>
    cases encodeOp op with
    | invalidArgument info => exact ⟨_, fun _ _ => rfl⟩
    | ok r =>
      simp only []
      split_ifs
      · exact ⟨_, fun _ _ => rfl⟩
      · cases allocate s with
        | none => exact ⟨_, fun _ _ => rfl⟩
        | some a => exact ⟨_, fun o q => congrArg _ (transmitAndRegister_within o q a.2 tag c a.1 r)⟩

theorem execRxChunk_within (bytes : Bytes) :
    ∃ t : State, ∀ o q, execRxChunk bytes (s.within o q) = .next (t.within o q) := by
  simp only [execRxChunk, State.within_fields]
  split_ifs
  · exact ⟨s, fun _ _ => rfl⟩
  · exact ⟨_, fun o q => congrArg _ (foldl_rxByte_within o q (countReceive bytes s) bytes)⟩

theorem execRxGap_within : ∃ t : State, ∀ o q, execRxGap (s.within o q) = .next (t.within o q) := by
  simp only [execRxGap, gapResult, State.within_fields, dropLink_within, engineFrame_within]
  split_ifs
  · exact ⟨s, fun _ _ => rfl⟩
  · exact ⟨s, fun _ _ => rfl⟩
  · exact ⟨_, fun _ _ => rfl⟩
  · cases rtuTryUnwrap s.rxBuf <;> exact ⟨_, fun _ _ => rfl⟩

theorem execTick_within (n : Nat) : ∃ t : State, ∀ o q, execTick n (s.within o q) = .next (t.within o q) := by
  refine ⟨watchdog (runDeadlines { s with now := max s.now n }), fun o q => ?_⟩
  rw [← watchdog_within, ← runDeadlines_within]
  rfl

/-- An instruction run in any context goes on, to one and the same state in that context (R82, R47). -/
theorem exec_within (i : Instr) : ∃ t : State, ∀ o q, exec i (s.within o q) = .next (t.within o q) := by
  induction i using unit_or_event with
  | unit i hi =>
    obtain ⟨r, hr⟩ := unitRowsArePure i hi
    exact ⟨present r s, fun o q => hr (s.within o q)⟩
  | cfgWrite w => exact ⟨{ s with cfg := writeCfg w s.cfg }, fun _ _ => rfl⟩
  | connect tag => exact execConnect_within s tag
  | transportOpened => exact execTransportOpened_within s
  | transportFailed => exact execTransportFailed_within s
  | disconnect tag => exact execDisconnect_within s tag
  | request tag op => exact execRequest_within s tag op
  | rxChunk bytes => exact execRxChunk_within s bytes
  | rxGap => exact execRxGap_within s
  | tick n => exact execTick_within s n

end Sys2Proof.Machine
end

section
/-! ### Emitted actions and inputs to come -/

namespace Sys2Proof.Machine

/-- Settles O55: `s` with any output list and input list is `s` without actions in that context, so what an instruction
emits from there is what it appends everywhere. -/
theorem actionsAreOnlyAppended : Obligations.ActionsAreOnlyAppended := by
  intro i s
  obtain ⟨t, ht⟩ := exec_within { s with out := [] } i
  refine ⟨t, t.out, fun o q => ?_⟩
  have hs : ({ s with out := [] } : State).within o q = { s with out := o, input := q } := by simp [State.within]
  rw [← hs]
  exact ht o q

end Sys2Proof.Machine
end

section
/-! SUPPORT. The formats of spec/30_encoding.md: what `decode` reads from the fields of each format, and which instruction
it then answers (R100 to R109, R114). Each format has two lemmas, one for each direction of the round trip. -/

namespace Sys2Proof.Machine

/-! ### A field inside a sequence: reading it, and putting it back (R15, R16) -/

/-- A word written after `s` is read at the end of `s`. -/
theorem rdbe16_append_be16 (s : Bytes) (v : U16) (t : Bytes) : rdbe16 (s ++ (be16 v ++ t)) s.length = v := by
  rw [← Nat.add_zero s.length, ← rdbe16_drop, List.drop_left, rdbe16_be16]

/-- A sequence from position `i` on is its byte there and the sequence after it. -/
theorem drop_eq_byteAt_cons {s : Bytes} {i : Nat} (h : i < s.length) : s.drop i = byteAt s i :: s.drop (i + 1) := by
  rw [List.drop_eq_getElem_cons h, byteAt, List.getD_eq_getElem _ _ h]

/-- A sequence from position `i` on is its word there and the sequence after it. -/
theorem drop_eq_be16_append {s : Bytes} {i : Nat} (h : i + 1 < s.length) :
    s.drop i = be16 (rdbe16 s i) ++ s.drop (i + 2) := by
  rw [drop_eq_byteAt_cons (Nat.lt_of_succ_lt h), drop_eq_byteAt_cons h, be16_rdbe16]
  rfl

/-! ### Request PDUs: the fields, and how `decode` chooses by them (R100 to R104) -/

/-- A request PDU of at least five bytes is a function code, two big-endian words and a tail (R101 to R104). -/
theorem requestPdu_eq_fields {pdu : Bytes} (h : 5 ≤ pdu.length) :
    pdu = byteAt pdu 0 :: (payloadTwoWords (rdbe16 pdu 1) (rdbe16 pdu 3) ++ pdu.drop 5) := by
  calc pdu = byteAt pdu 0 :: pdu.drop 1 := drop_eq_byteAt_cons (i := 0) (by omega)
    _ = byteAt pdu 0 :: (be16 (rdbe16 pdu 1) ++ pdu.drop 3) := by rw [drop_eq_be16_append (i := 1) (by omega)]
    _ = byteAt pdu 0 :: (be16 (rdbe16 pdu 1) ++ (be16 (rdbe16 pdu 3) ++ pdu.drop 5)) := by
      rw [drop_eq_be16_append (i := 3) (by omega)]
    _ = _ := by rw [payloadTwoWords, List.append_assoc]

/-- The decoder of a request PDU, by its fields (R100 to R104, R111). -/
theorem decodeRequestPdu_fields (fc : Byte) (x y : U16) (tail : Bytes) :
    decodeRequestPdu (fc :: (payloadTwoWords x y ++ tail)) =
      if fc = 0x0F then decodeCoilsRequest x.toNat y.toNat tail
      else if fc = 0x10 then decodeRegsRequest x.toNat y.toNat tail
      else if tail ≠ [] then .error .badLength
      else decodeFixedRequest fc x.toNat y.toNat := by
  have hx : rdbe16 (fc :: (payloadTwoWords x y ++ tail)) 1 = x := rdbe16_append_be16 [fc] x (be16 y ++ tail)
  have hy : rdbe16 (fc :: (payloadTwoWords x y ++ tail)) 3 = y := rdbe16_append_be16 (fc :: be16 x) y tail
  have hlen : (fc :: (payloadTwoWords x y ++ tail)).length = tail.length + 5 := by
    simp [payloadTwoWords]
    omega
  have hdrop : (fc :: (payloadTwoWords x y ++ tail)).drop 5 = tail := rfl
  simp only [decodeRequestPdu, hx, hy, hlen, hdrop, byteAt_zero, Nat.add_eq_right, List.length_eq_zero_iff, ne_eq]
  rw [if_neg (by omega)]

theorem payloadWriteCoils_eq (a : U16) (vs : List Bool) :
    payloadWriteCoils a vs = payloadTwoWords a (.ofNat 16 vs.length) ++ (.ofNat 8 (ceilDiv8 vs.length) :: packBits vs) := by
  simp [payloadWriteCoils, payloadTwoWords]

theorem payloadWriteRegs_eq (a : U16) (vs : List U16) :
    payloadWriteRegs a vs = payloadTwoWords a (.ofNat 16 vs.length) ++ (.ofNat 8 (2 * vs.length) :: packRegs vs) := by
  simp [payloadWriteRegs, payloadTwoWords]

/-! ### Request PDUs: decoding what was encoded -/

/-- A five-byte request whose two fields are u16 reaches the choice by function code with both of them (R101, R102). -/
theorem decode_fixedRequest {fc : Byte} (hfc : fc ≠ 0x0F ∧ fc ≠ 0x10) {a q : Nat} (ha : a < 65536) (hq : q < 65536) :
    decode (requestWord fc (payloadTwoWords (.ofNat 16 a) (.ofNat 16 q))) = decodeFixedRequest fc a q := by
  have h := decodeRequestPdu_fields fc (.ofNat 16 a) (.ofNat 16 q) []
  rw [List.append_nil, if_neg hfc.1, if_neg hfc.2, if_neg (by simp), BitVec.toNat_ofNat, BitVec.toNat_ofNat,
    Nat.mod_eq_of_lt ha, Nat.mod_eq_of_lt hq] at h
  exact h

/-- Packed coil values under their byte count are read back (R103, R110). -/
theorem decodeCoilsRequest_packBits (a : Nat) {vs : List Bool} (h : vs.length ≤ 2040) :
    decodeCoilsRequest a vs.length (.ofNat 8 (ceilDiv8 vs.length) :: packBits vs) =
      .ok (.encodeWriteMultipleCoils a vs) := by
  have hbc : (BitVec.ofNat 8 (ceilDiv8 vs.length)).toNat = ceilDiv8 vs.length := by
    rw [BitVec.toNat_ofNat, ceilDiv8]
    omega
  have hlen : (packBits vs).length = ceilDiv8 vs.length := packBits_length vs
  simp only [decodeCoilsRequest, hbc, hlen, unpackBits_packBits, ne_eq, not_true_eq_false, if_false]

/-- Narrowing u16 values to words and widening them again changes nothing (R151). -/
theorem map_toNat_map_ofNat {vs : List Nat} (h : ∀ v ∈ vs, v < 65536) :
    (vs.map (BitVec.ofNat 16)).map BitVec.toNat = vs := by
  rw [List.map_map, List.map_congr_left (g := id), List.map_id]
  exact fun v hv => Nat.mod_eq_of_lt (h v hv)

/-- Packed register values under their byte count are read back (R104). -/
theorem decodeRegsRequest_packRegs (a : Nat) {vs : List U16} (h : vs.length ≤ 127) :
    decodeRegsRequest a vs.length (.ofNat 8 (2 * vs.length) :: packRegs vs) =
      .ok (.encodeWriteMultipleRegisters a (vs.map BitVec.toNat)) := by
  have hbc : (BitVec.ofNat 8 (2 * vs.length)).toNat = 2 * vs.length := by
    rw [BitVec.toNat_ofNat]
    omega
  have hvs : unpackRegs (packRegs vs) vs.length = vs := by simpa using unpackRegs_packRegs vs []
  simp [decodeRegsRequest, hbc, hvs]

theorem decode_coilsRequest {a : Nat} {vs : List Bool} (ha : a < 65536) (h : vs.length ≤ 2040) :
    decode (requestWord 0x0F (payloadWriteCoils (.ofNat 16 a) vs)) = .ok (.encodeWriteMultipleCoils a vs) := by
  rw [payloadWriteCoils_eq, requestWord, decode, decodeRequestPdu_fields, if_pos rfl, BitVec.toNat_ofNat,
    BitVec.toNat_ofNat, Nat.mod_eq_of_lt ha, Nat.mod_eq_of_lt (by omega), decodeCoilsRequest_packBits a h]

theorem decode_regsRequest {a : Nat} {vs : List U16} (ha : a < 65536) (h : vs.length ≤ 127) :
    decode (requestWord 0x10 (payloadWriteRegs (.ofNat 16 a) vs)) =
      .ok (.encodeWriteMultipleRegisters a (vs.map BitVec.toNat)) := by
  rw [payloadWriteRegs_eq, requestWord, decode, decodeRequestPdu_fields, if_neg (by decide), if_pos rfl,
    BitVec.toNat_ofNat, BitVec.toNat_ofNat, Nat.mod_eq_of_lt ha, Nat.mod_eq_of_lt (by omega),
    decodeRegsRequest_packRegs a h]

/-! ### Request PDUs: encoding what was decoded -/

/-- An accepted five-byte request is the encoding of a well-formed instruction (R101, R102). -/
theorem encode_of_decodeFixedRequest {fc : Byte} {x y : U16} {i : Instr}
    (h : decodeFixedRequest fc x.toNat y.toNat = .ok i) :
    i.wf = true ∧ encode i = requestWord fc (payloadTwoWords x y) := by
  have hx := x.isLt
  have hy := y.isLt
  rw [decodeFixedRequest] at h
  split_ifs at h with h1 h2 h3 h4 h5 hon hoff h6 <;> obtain rfl := Except.ok.inj h <;> subst fc
  · simp [Instr.wf, encode, hx, hy]
  · simp [Instr.wf, encode, hx, hy]
  · simp [Instr.wf, encode, hx, hy]
  · simp [Instr.wf, encode, hx, hy]
  · obtain rfl : y = 0xFF00 := BitVec.eq_of_toNat_eq hon
    simp [Instr.wf, encode, hx, coilWord]
  · obtain rfl : y = 0 := BitVec.eq_of_toNat_eq hoff
    simp [Instr.wf, encode, hx, coilWord]
  · simp [Instr.wf, encode, hx, hy]

/-- An accepted 0x0F tail is its byte count and packed values, whose padding is 0 (R103, R110). -/
theorem decodeCoilsRequest_eq_ok {a n : Nat} {tail : Bytes} {i : Instr} (h : decodeCoilsRequest a n tail = .ok i) :
    ∃ vs : List Bool, vs.length = n ∧ n ≤ 2040 ∧ i = .encodeWriteMultipleCoils a vs ∧
      tail = .ofNat 8 (ceilDiv8 n) :: packBits vs := by
  obtain _ | ⟨bc, data⟩ := tail
  · cases h
  · simp only [decodeCoilsRequest] at h
    split_ifs at h with hbc hlen hpad
    have hlt := bc.isLt
    rw [not_not] at hbc hpad
    refine ⟨unpackBits data n, unpackBits_length _ _, ?_, (Except.ok.inj h).symm, ?_⟩
    · rw [hbc, ceilDiv8] at hlt
      omega
    · rw [hpad, ← hbc, BitVec.ofNat_toNat, BitVec.setWidth_eq]

/-- An accepted 0x10 tail is its byte count and packed registers (R104). -/
theorem decodeRegsRequest_eq_ok {a n : Nat} {tail : Bytes} {i : Instr} (h : decodeRegsRequest a n tail = .ok i) :
    ∃ vs : List U16, vs.length = n ∧ n ≤ 127 ∧ i = .encodeWriteMultipleRegisters a (vs.map BitVec.toNat) ∧
      tail = .ofNat 8 (2 * n) :: packRegs vs := by
  obtain _ | ⟨bc, data⟩ := tail
  · cases h
  · simp only [decodeRegsRequest] at h
    split_ifs at h with hbc hlen
    have hlt := bc.isLt
    rw [not_not] at hbc hlen
    refine ⟨unpackRegs data n, unpackRegs_length _ _, by omega, (Except.ok.inj h).symm, ?_⟩
    rw [packRegs_unpackRegs n data (hlen.trans hbc), ← hbc, BitVec.ofNat_toNat, BitVec.setWidth_eq]

/-- An accepted request PDU is the encoding of a well-formed instruction (R100 to R104). -/
theorem encode_of_decodeRequestPdu {pdu : Bytes} {i : Instr} (h : decodeRequestPdu pdu = .ok i) :
    i.wf = true ∧ encode i = .requestPdu pdu := by
  have hlen : 5 ≤ pdu.length := by
    rw [decodeRequestPdu] at h
    split_ifs at h <;> omega
  obtain ⟨fc, x, y, tail, rfl⟩ : ∃ fc x y tail, pdu = fc :: (payloadTwoWords x y ++ tail) :=
    ⟨_, _, _, _, requestPdu_eq_fields hlen⟩
  have hx := x.isLt
  rw [decodeRequestPdu_fields] at h
  split_ifs at h with hcoils hregs htail
  · obtain ⟨vs, hn, hle, rfl, rfl⟩ := decodeCoilsRequest_eq_ok h
    simp [Instr.wf, encode, requestWord, payloadWriteCoils_eq, hx, hn, hle, hcoils]
  · obtain ⟨vs, hn, hle, rfl, rfl⟩ := decodeRegsRequest_eq_ok h
    have hvs : ∀ v : U16, v.toNat < 65536 := BitVec.isLt
    simp [Instr.wf, encode, requestWord, payloadWriteRegs_eq, Function.comp_def, hx, hn, hle, hregs, hvs]
  · obtain rfl := not_not.1 htail
    rw [List.append_nil]
    exact encode_of_decodeFixedRequest h

/-! ### Response PDUs: the row of the function code (R105 to R107, R114) -/

/-- A PDU is unimplemented when it is empty, or when byte 0 is neither an exception code nor one of the eight (R114). -/
theorem isUnimplementedPdu_cons (fc : Byte) (rest : Bytes) :
    isUnimplementedPdu (fc :: rest) = true ↔ fc.getLsbD 7 = false ∧ fc ≠ 0x01 ∧ fc ≠ 0x02 ∧ fc ≠ 0x03 ∧ fc ≠ 0x04 ∧
      fc ≠ 0x05 ∧ fc ≠ 0x06 ∧ fc ≠ 0x0F ∧ fc ≠ 0x10 := by
  simp [isUnimplementedPdu, coreFunctionCodes]

/-- An unimplemented PDU selects the row that keeps it whole (R114, R202). -/
theorem decodeResponsePdu_unimplemented {pdu : Bytes} (h : isUnimplementedPdu pdu = true) :
    decodeResponsePdu pdu = .decodeUnimplemented pdu := by
  cases pdu with
  | nil => rfl
  | cons fc rest =>
    obtain ⟨h7, h1, h2, h3, h4, h5, h6, h15, h16⟩ := (isUnimplementedPdu_cons fc rest).1 h
    simp only [decodeResponsePdu, *, Bool.false_eq_true, if_false]

/-- An exception PDU selects the exception row, with the seven-bit code below bit 7 (R107). -/
theorem decodeResponsePdu_exception (c : BitVec 7) (rest : Bytes) :
    decodeResponsePdu ((0x80 ||| c.setWidth 8) :: rest) = .decodeException c rest := by
  obtain ⟨hbit, hcode, -⟩ := exception_code c
  rw [decodeResponsePdu, if_pos hbit, hcode]

/-- Every response PDU is the encoding of the well-formed instruction it selects (R105 to R107, R114). -/
theorem encode_decodeResponsePdu (pdu : Bytes) :
    (decodeResponsePdu pdu).wf = true ∧ encode (decodeResponsePdu pdu) = .responsePdu pdu := by
  cases pdu with
  | nil => exact ⟨rfl, rfl⟩
  | cons fc rest =>
    rw [decodeResponsePdu]
    split_ifs with h7 h1 h2 h3 h4 h5 h6 h15 h16
    · exact ⟨rfl, by rw [encode, exception_byte fc h7]⟩
    case neg =>
      rw [Bool.not_eq_true] at h7
      exact ⟨(isUnimplementedPdu_cons fc rest).2 ⟨h7, h1, h2, h3, h4, h5, h6, h15, h16⟩, rfl⟩
    all_goals
      subst fc
      exact ⟨rfl, rfl⟩

/-! ### ADUs to build (R108, R109) -/

/-- The fields of an MBAP header are read back (R108). -/
theorem decodeTcpTransmit_tcpWrap (tid : U16) (u : Byte) {pdu : Bytes} (h : pdu.length ≤ 65534) :
    decodeTcpTransmit (tcpWrap tid u pdu) = .ok (.tcpWrap tid u pdu) := by
  have hid : rdbe16 (tcpWrap tid u pdu) 0 = tid := rdbe16_be16 tid _
  have hproto : rdbe16 (tcpWrap tid u pdu) 2 = 0 := rdbe16_append_be16 (be16 tid) 0 _
  have hfield : rdbe16 (tcpWrap tid u pdu) 4 = BitVec.ofNat 16 (1 + pdu.length) :=
    rdbe16_append_be16 (be16 tid ++ be16 0) _ (u :: pdu)
  have hunit : byteAt (tcpWrap tid u pdu) 6 = u := rfl
  have hpdu : (tcpWrap tid u pdu).drop 7 = pdu := rfl
  rw [decodeTcpTransmit, tcpWrap_length, if_neg (by omega), if_neg (by simp [hproto]), hfield, BitVec.toNat_ofNat,
    if_neg (by omega), hid, hunit, hpdu]

/-- An ADU with an MBAP header is its three words, its unit id and its PDU (R108). -/
theorem tcpAdu_eq_fields {adu : Bytes} (h : 7 ≤ adu.length) :
    adu = be16 (rdbe16 adu 0) ++ be16 (rdbe16 adu 2) ++ be16 (rdbe16 adu 4) ++ [byteAt adu 6] ++ adu.drop 7 := by
  calc adu = be16 (rdbe16 adu 0) ++ adu.drop 2 := drop_eq_be16_append (i := 0) (by omega)
    _ = be16 (rdbe16 adu 0) ++ (be16 (rdbe16 adu 2) ++ adu.drop 4) := by rw [drop_eq_be16_append (i := 2) (by omega)]
    _ = be16 (rdbe16 adu 0) ++ (be16 (rdbe16 adu 2) ++ (be16 (rdbe16 adu 4) ++ adu.drop 6)) := by
      rw [drop_eq_be16_append (i := 4) (by omega)]
    _ = _ := by
      rw [drop_eq_byteAt_cons (i := 6) (by omega)]
      simp

/-- An accepted TCP ADU is the frame of a well-formed `tcpWrap` (R108, R281). -/
theorem encode_of_decodeTcpTransmit {adu : Bytes} {i : Instr} (h : decodeTcpTransmit adu = .ok i) :
    i.wf = true ∧ encode i = .tcpTransmit adu := by
  rw [decodeTcpTransmit] at h
  split_ifs at h with hlen hproto hfield
  obtain rfl := Except.ok.inj h
  rw [not_not] at hproto hfield
  have hlt := (rdbe16 adu 4).isLt
  have hcount : BitVec.ofNat 16 (1 + (adu.drop 7).length) = rdbe16 adu 4 := by
    rw [List.length_drop, show 1 + (adu.length - 7) = (rdbe16 adu 4).toNat by omega, BitVec.ofNat_toNat,
      BitVec.setWidth_eq]
  have hwrap : tcpWrap (rdbe16 adu 0) (byteAt adu 6) (adu.drop 7) = adu := by
    rw [tcpWrap, hcount, ← hproto, ← tcpAdu_eq_fields (by omega)]
  exact ⟨by simp only [Instr.wf, List.length_drop, decide_eq_true_eq]; omega, congrArg Input.tcpTransmit hwrap⟩

/-- The bytes between the unit id and the trailer of a wrapped PDU are the PDU (R109). -/
theorem slice_rtuWrap (u : Byte) (pdu : Bytes) : slice (rtuWrap u pdu) 1 ((rtuWrap u pdu).length - 2) = pdu := by
  rw [rtuWrap_length, slice, rtuWrap, List.cons_append, List.drop_succ_cons, List.drop_zero,
    List.take_append_of_le_length (by omega), List.take_of_length_le (by omega)]

/-- A wrapped PDU is read back: its own CRC is the one the decoder computes again (R109). -/
theorem decodeRtuTransmit_rtuWrap (u : Byte) (pdu : Bytes) :
    decodeRtuTransmit (rtuWrap u pdu) = .ok (.rtuWrap u pdu) := by
  have hunit : byteAt (rtuWrap u pdu) 0 = u := rfl
  rw [decodeRtuTransmit, slice_rtuWrap, hunit, if_neg (by rw [rtuWrap_length]; omega), if_neg (by simp)]

/-- An accepted RTU ADU is the frame of a well-formed `rtuWrap` (R109, R290). -/
theorem encode_of_decodeRtuTransmit {adu : Bytes} {i : Instr} (h : decodeRtuTransmit adu = .ok i) :
    i.wf = true ∧ encode i = .rtuTransmit adu := by
  rw [decodeRtuTransmit] at h
  split_ifs at h with hlen hcrc
  obtain rfl := Except.ok.inj h
  exact ⟨rfl, congrArg Input.rtuTransmit (not_not.1 hcrc)⟩

/-! ### Events (R46) -/

/-- An accepted event is the encoding of its row, whose chunk is non-empty (R46). -/
theorem encode_of_decodeEvent {e : Event} {i : Instr} (h : decodeEvent e = .ok i) :
    i.wf = true ∧ encode i = .event e := by
  cases e
  case rxChunk bytes =>
    rw [decodeEvent] at h
    split_ifs at h with hne
    obtain rfl := Except.ok.inj h
    exact ⟨by simpa [Instr.wf] using hne, rfl⟩
  all_goals
    obtain rfl := Except.ok.inj h
    exact ⟨rfl, rfl⟩

end Sys2Proof.Machine
end

section
/-! The obligations of spec/30_encoding.md: the round trips, words as written, and the codes without a row of their own. -/

namespace Sys2Proof.Machine

/-- Settles O1: row by row, by what its format's decoder reads back. -/
theorem decodeEncodeRoundTrip : Obligations.DecodeEncodeRoundTrip := by
  intro i hwf
  cases i <;> simp only [Instr.wf, Bool.and_eq_true, isU16_iff, decide_eq_true_eq, List.all_eq_true, Bool.not_eq_true',
    List.isEmpty_eq_false_iff] at hwf
  case encodeReadCoils a q => exact decode_fixedRequest (by decide) hwf.1 hwf.2
  case encodeReadDiscreteInputs a q => exact decode_fixedRequest (by decide) hwf.1 hwf.2
  case encodeReadHoldingRegisters a q => exact decode_fixedRequest (by decide) hwf.1 hwf.2
  case encodeReadInputRegisters a q => exact decode_fixedRequest (by decide) hwf.1 hwf.2
  case encodeWriteSingleCoil a v =>
    cases v
    · exact decode_fixedRequest (q := 0) (by decide) hwf (by decide)
    · exact decode_fixedRequest (q := 0xFF00) (by decide) hwf (by decide)
  case encodeWriteSingleRegister a v => exact decode_fixedRequest (by decide) hwf.1 hwf.2
  case encodeWriteMultipleCoils a vs => exact decode_coilsRequest hwf.1 hwf.2
  case encodeWriteMultipleRegisters a vs =>
    obtain ⟨⟨ha, hlen⟩, hvs⟩ := hwf
    rw [encode, decode_regsRequest ha (by simpa using hlen), map_toNat_map_ofNat hvs]
  case decodeException c rest => exact congrArg Except.ok (decodeResponsePdu_exception c rest)
  case decodeUnimplemented pdu => exact congrArg Except.ok (decodeResponsePdu_unimplemented hwf)
  case tcpWrap tid u pdu => exact decodeTcpTransmit_tcpWrap tid u hwf
  case rtuWrap u pdu => exact decodeRtuTransmit_rtuWrap u pdu
  case rtuTryUnwrap g => exact if_neg hwf
  case rxChunk bytes => exact if_neg hwf
  all_goals rfl

/-- Settles O2: unit by unit, by what its decoder accepts. -/
theorem acceptedInputReencodes : Obligations.AcceptedInputReencodes := by
  intro inp i h
  cases inp with
  | requestPdu pdu => exact encode_of_decodeRequestPdu h
  | responsePdu pdu =>
    obtain rfl := Except.ok.inj h
    exact encode_decodeResponsePdu pdu
  | tcpTransmit adu => exact encode_of_decodeTcpTransmit h
  | tcpReceive buf =>
    obtain rfl := Except.ok.inj h
    exact ⟨rfl, rfl⟩
  | rtuTransmit adu => exact encode_of_decodeRtuTransmit h
  | rtuReceive group =>
    rw [decode] at h
    split_ifs at h with hne
    obtain rfl := Except.ok.inj h
    exact ⟨by simpa [Instr.wf] using hne, rfl⟩
  | crcInput bytes =>
    obtain rfl := Except.ok.inj h
    exact ⟨rfl, rfl⟩
  | event e => exact encode_of_decodeEvent h

/-- Settles O3: each word is the encoding of a well-formed instruction, so the round trip decodes it. -/
theorem specWordsDecodeAsWritten : Obligations.SpecWordsDecodeAsWritten := by
  refine ⟨?_, ?_, ?_, ?_, ?_, ?_, ?_, ?_⟩
  · exact decodeEncodeRoundTrip (.encodeReadCoils 0x0013 0x0025) (by decide)
  · exact decodeEncodeRoundTrip (.encodeWriteSingleCoil 0x00AC true) (by decide)
  · exact decodeEncodeRoundTrip
      (.encodeWriteMultipleCoils 0x0013 [true, false, true, true, false, false, true, true, true, false]) (by decide)
  · exact decodeEncodeRoundTrip (.encodeWriteMultipleRegisters 0x0001 [0x000A, 0x0102]) (by decide)
  · exact decodeEncodeRoundTrip (.decodeException 0x03 [0x02]) (by decide)
  · exact decodeEncodeRoundTrip (.decodeUnimplemented [0x07]) (by decide)
  · exact decodeEncodeRoundTrip (.tcpWrap 0x0001 0x01 [0x03, 0x00, 0x00, 0x00, 0x02]) (by decide)
  · have hframe : rtuWrap 0x01 [0x03, 0x00, 0x00, 0x00, 0x02] = [0x01, 0x03, 0x00, 0x00, 0x00, 0x02, 0xC4, 0x0B] := by
      decide +kernel
    rw [← hframe]
    exact decodeEncodeRoundTrip (.rtuWrap 0x01 [0x03, 0x00, 0x00, 0x00, 0x02]) (by decide)

/-- The decoder answers `MalformedPdu` for an unimplemented PDU (R114, R202). -/
theorem decodePdu_unimplemented {pdu : Bytes} (h : isUnimplementedPdu pdu = true) : decodePdu pdu = .malformedPdu := by
  cases pdu with
  | nil => rfl
  | cons fc rest =>
    obtain ⟨h7, h1, h2, h3, h4, h5, h6, h15, h16⟩ := (isUnimplementedPdu_cons fc rest).1 h
    simp only [decodePdu_cons, *, Bool.false_eq_true, if_false]

/-- Settles O18: a well-formed term of the row holds an unimplemented PDU, and the row presents what it holds. -/
theorem unimplementedCodesAreMalformed : Obligations.UnimplementedCodesAreMalformed :=
  fun s _ hwf => ⟨decodePdu_unimplemented hwf, presents_of_unitResult rfl s⟩

end Sys2Proof.Machine
end

section
/-! SUPPORT. The request side of the PDU codec: the row, the PDU and the refusal of an operation
(spec/40_pdu_encode.md R150 to R180). -/

namespace Sys2Proof.Machine

/-! ### The encode row of an operation -/

/-- The encode row that a request names, with its arguments (R353). -/
def opRow : Op → Instr
  | .readCoils a q => .encodeReadCoils a q
  | .readDiscreteInputs a q => .encodeReadDiscreteInputs a q
  | .readHoldingRegisters a q => .encodeReadHoldingRegisters a q
  | .readInputRegisters a q => .encodeReadInputRegisters a q
  | .writeSingleCoil a v => .encodeWriteSingleCoil a v
  | .writeSingleRegister a v => .encodeWriteSingleRegister a v
  | .writeMultipleCoils a vs => .encodeWriteMultipleCoils a vs
  | .writeMultipleRegisters a vs => .encodeWriteMultipleRegisters a vs

theorem opRow_injective : Function.Injective opRow := by
  intro op op' h
  cases op <;> cases op' <;> cases h <;> rfl

theorem unitResult_opRow (op : Op) : unitResult (opRow op) = some (.encoded (encodeOp op)) := by
  cases op <;> rfl

/-- The row of an operation presents what encoding the operation gives. -/
theorem presents_encoded {op : Op} {e : Encoded} (h : encodeOp op = e) (s : State) :
    Presents (opRow op) s (.encoded e) :=
  presents_of_unitResult (h ▸ unitResult_opRow op) s

/-- The item that stands for the row of an operation is the operation's request PDU (R100). -/
theorem encode_opRow (op : Op) : encode (opRow op) = .requestPdu (opPdu op).bytes := by
  cases op <;> rfl

/-- Legal arguments fit their fields: the legal ranges lie inside those of the formats (R101 to R104). -/
theorem opRow_wf {op : Op} (h : opLegal op) : (opRow op).wf = true := by
  cases op with
  | readCoils a q | readDiscreteInputs a q | readHoldingRegisters a q | readInputRegisters a q =>
    obtain ⟨ha, -, hq⟩ := h
    simp only [opRow, Instr.wf, Bool.and_eq_true, isU16_iff]
    omega
  | writeSingleCoil a v => exact (isU16_iff a).2 h
  | writeSingleRegister a v => simpa [opRow, Instr.wf, opLegal] using h
  | writeMultipleCoils a vs =>
    obtain ⟨ha, -, hn⟩ := h
    simp only [opRow, Instr.wf, Bool.and_eq_true, isU16_iff, decide_eq_true_eq]
    omega
  | writeMultipleRegisters a vs =>
    obtain ⟨ha, hvs, -, hn⟩ := h
    simp only [opRow, Instr.wf, Bool.and_eq_true, isU16_iff, decide_eq_true_eq, List.all_eq_true]
    exact ⟨⟨ha, by omega⟩, hvs⟩

/-! ### The bytes of a request PDU -/

theorem payloadTwoWords_ofNat {a w : Nat} (ha : a < 65536) (hw : w < 65536) :
    payloadTwoWords (.ofNat 16 a) (.ofNat 16 w) = [hiByte a, loByte a, hiByte w, loByte w] := by
  rw [payloadTwoWords, be16_ofNat ha, be16_ofNat hw]
  rfl

theorem be16_coilWord (b : Bool) : be16 (coilWord b) = [if b then 0xFF else 0x00, 0x00] := by
  cases b <;> rfl

@[simp] theorem payloadTwoWords_length (x y : U16) : (payloadTwoWords x y).length = 4 := rfl

@[simp] theorem payloadWriteCoils_length (a : U16) (vs : List Bool) :
    (payloadWriteCoils a vs).length = 5 + (vs.length + 7) / 8 := by
  simp only [payloadWriteCoils, ceilDiv8, List.length_append, be16_length, List.length_singleton, packBits_length]

@[simp] theorem payloadWriteRegs_length (a : U16) (vs : List U16) :
    (payloadWriteRegs a vs).length = 5 + 2 * vs.length := by
  simp only [payloadWriteRegs, List.length_append, be16_length, List.length_singleton, packRegs_length]

@[simp] theorem RequestPdu.bytes_length (r : RequestPdu) : r.bytes.length = r.payload.length + 1 := rfl

/-- A count below 256 has a zero high byte and is its own low byte. -/
theorem hiByte_loByte_of_lt {n : Nat} (h : n < 256) : hiByte n = 0x00 ∧ loByte n = BitVec.ofNat 8 n := by
  rw [hiByte, loByte, Nat.div_eq_of_lt h, Nat.mod_eq_of_lt h]
  exact ⟨rfl, rfl⟩

/-- Narrowed register values are packed high byte first, in order (R104). -/
theorem packRegs_map_ofNat {vs : List Nat} (h : ∀ v ∈ vs, v < 65536) :
    packRegs (vs.map (BitVec.ofNat 16)) = vs.flatMap fun v => [hiByte v, loByte v] := by
  rw [packRegs, List.flatMap_map]
  exact List.flatMap_congr fun v hv => be16_ofNat (h v hv)

/-- Bit `b` of byte `j` of packed values is value `8j + b`, or 0 beyond the last value (R74, R171). -/
theorem packBits_getLsbD (vs : List Bool) {j b : Nat} (hj : j < (packBits vs).length) (hb : b < 8) :
    ((packBits vs).getD j 0).getLsbD b = vs.getD (8 * j + b) false := by
  rw [packBits_length] at hj
  exact (congrArg (BitVec.getLsbD · b) (packBits_byteAt vs hj)).trans (packByte_getLsbD _ hb)

/-- The request PDU of write multiple coils, byte by byte before the packed values (R103). -/
theorem opPdu_writeMultipleCoils {a : Nat} {vs : List Bool} (ha : a < 65536) (hn : vs.length < 65536) :
    opPdu (.writeMultipleCoils a vs) = ⟨0x0F,
      [hiByte a, loByte a, hiByte vs.length, loByte vs.length, BitVec.ofNat 8 ((vs.length + 7) / 8)]
        ++ packBits vs⟩ := by
  rw [opPdu, payloadWriteCoils_eq, payloadTwoWords_ofNat ha hn]
  rfl

/-- The request PDU of write multiple registers, byte by byte (R104). -/
theorem opPdu_writeMultipleRegisters {a : Nat} {vs : List Nat} (ha : a < 65536) (hvs : ∀ v ∈ vs, v < 65536)
    (hn : vs.length < 256) :
    opPdu (.writeMultipleRegisters a vs) = ⟨0x10,
      [hiByte a, loByte a, 0x00, BitVec.ofNat 8 vs.length, BitVec.ofNat 8 (2 * vs.length)]
        ++ vs.flatMap fun v => [hiByte v, loByte v]⟩ := by
  obtain ⟨hhi, hlo⟩ := hiByte_loByte_of_lt hn
  rw [opPdu, payloadWriteRegs_eq, List.length_map, payloadTwoWords_ofNat ha (by omega), hhi, hlo,
    packRegs_map_ofNat hvs]
  rfl

/-! ### What an encode operation answers -/

theorem encodeOp_of_legal {op : Op} (h : opLegal op) : encodeOp op = .ok (opPdu op) :=
  (encodeOp_ok_iff op _).2 ⟨h, rfl⟩

/-- An operation with an argument that is not legal is refused (R150). -/
theorem encodeOp_of_not_legal {op : Op} (h : ¬ opLegal op) : ∃ info, encodeOp op = .invalidArgument info := by
  cases he : encodeOp op with
  | ok r => exact absurd ((encodeOp_ok_iff op r).1 he).1 h
  | invalidArgument info => exact ⟨info, rfl⟩

theorem presentsInvalidArgument_of_not_legal {op : Op} (h : ¬ opLegal op) (s : State) :
    PresentsInvalidArgument (opRow op) s := by
  obtain ⟨info, he⟩ := encodeOp_of_not_legal h
  exact ⟨info, presents_encoded he s⟩

/-- A read of a u16 address, by the range of its quantity (R152 to R155). -/
theorem encodeRead_of_u16 {fc : Byte} {m a q : Nat} (ha : a < 65536) (hm : m < 65536) :
    encodeRead fc m a q =
      if 1 ≤ q ∧ q ≤ m then .ok ⟨fc, [hiByte a, loByte a, hiByte q, loByte q]⟩ else .invalidArgument (some q) := by
  rw [encodeRead, if_neg (by simpa using ha)]
  by_cases hq : 1 ≤ q ∧ q ≤ m
  · rw [if_pos hq, if_neg (by omega), payloadTwoWords_ofNat ha (by omega)]
  · rw [if_neg hq, if_pos (by omega)]

theorem encodeWriteMultipleCoils_of_length {a : Nat} {vs : List Bool} (ha : a < 65536)
    (hn : vs.length < 1 ∨ 1968 < vs.length) : encodeWriteMultipleCoils a vs = .invalidArgument (some vs.length) := by
  rw [encodeWriteMultipleCoils, if_neg (by simpa using ha), if_pos hn]

theorem encodeWriteMultipleRegisters_of_length {a : Nat} {vs : List Nat} (ha : a < 65536) (hvs : ∀ v ∈ vs, v < 65536)
    (hn : vs.length < 1 ∨ 123 < vs.length) : encodeWriteMultipleRegisters a vs = .invalidArgument (some vs.length) := by
  have htypes : (isU16 a && vs.all isU16) = true := by simpa using ⟨ha, hvs⟩
  rw [encodeWriteMultipleRegisters, htypes, if_neg (by decide), if_pos hn]

theorem getLsbD_seven_of_mem_coreFunctionCodes {fc : Byte} (h : fc ∈ coreFunctionCodes) : fc.getLsbD 7 = false := by
  revert fc
  decide

end Sys2Proof.Machine
end

section
/-! The obligations of spec/40_pdu_encode.md: the eight encoders, their refusals, and the request PDUs as a whole. -/

namespace Sys2Proof.Machine

/-- Settles O8: the data are the packed values, whose length and bits the laws of `packBits` give. -/
theorem writeMultipleCoilsEncodes : Obligations.WriteMultipleCoilsEncodes := by
  intro s a vs ha
  refine ⟨fun ⟨hlo, hhi⟩ => ?_, fun hn => ?_⟩
  · refine ⟨packBits vs, ?_, packBits_length vs, fun _ _ hj hb => packBits_getLsbD vs hj hb⟩
    rw [← opPdu_writeMultipleCoils ha (by omega)]
    exact presents_encoded (encodeOp_of_legal (op := .writeMultipleCoils a vs) ⟨ha, hlo, hhi⟩) s
  · exact presents_encoded (op := .writeMultipleCoils a vs) (encodeWriteMultipleCoils_of_length ha hn) s

/-- Settles O9: a legal count is below 256, so its high byte is 0; the values are packed high byte first. -/
theorem writeMultipleRegistersEncodes : Obligations.WriteMultipleRegistersEncodes := by
  intro s a vs ha hvs
  refine ⟨fun ⟨hlo, hhi⟩ => ?_, fun hn => ?_⟩
  · rw [← opPdu_writeMultipleRegisters ha hvs (by omega)]
    exact presents_encoded (encodeOp_of_legal (op := .writeMultipleRegisters a vs) ⟨ha, hvs, hlo, hhi⟩) s
  · exact presents_encoded (op := .writeMultipleRegisters a vs) (encodeWriteMultipleRegisters_of_length ha hvs hn) s

/-- Settles O11: a request PDU is the encoding of its row, so `decode` reads the operation back from the bytes. -/
theorem distinctRequestsGiveDistinctPdus : Obligations.DistinctRequestsGiveDistinctPdus := by
  intro op op' r r' h h' hbytes
  obtain ⟨hop, rfl⟩ := (encodeOp_ok_iff op r).1 h
  obtain ⟨hop', rfl⟩ := (encodeOp_ok_iff op' r').1 h'
  have hrow : Except.ok (opRow op) = Except.ok (opRow op') :=
    calc Except.ok (opRow op) = decode (encode (opRow op)) := (decodeEncodeRoundTrip _ (opRow_wf hop)).symm
      _ = decode (encode (opRow op')) := by rw [encode_opRow, encode_opRow, hbytes]
      _ = Except.ok (opRow op') := decodeEncodeRoundTrip _ (opRow_wf hop')
  exact opRow_injective (Except.ok.inj hrow)

/-- Settles O12: the codes are read from the list of the eight, the lengths from the formats and the legal ranges. -/
theorem requestPdusHaveBoundedShape : Obligations.RequestPdusHaveBoundedShape := by
  intro op r h
  have hfc := functionCode_mem h
  refine ⟨hfc, getLsbD_seven_of_mem_coreFunctionCodes hfc, ?_⟩
  obtain ⟨hop, rfl⟩ := (encodeOp_ok_iff op r).1 h
  cases op with
  | writeMultipleCoils a vs =>
    obtain ⟨-, hlo, hhi⟩ := hop
    have hlen : (opPdu (.writeMultipleCoils a vs)).bytes.length = 6 + (vs.length + 7) / 8 := by
      simp [opPdu]
      omega
    refine ⟨by omega, by omega, ?_, nofun⟩
    rintro _ _ ⟨⟩
    exact hlen
  | writeMultipleRegisters a vs =>
    obtain ⟨-, -, hlo, hhi⟩ := hop
    have hlen : (opPdu (.writeMultipleRegisters a vs)).bytes.length = 6 + 2 * vs.length := by
      simp [opPdu]
      omega
    refine ⟨by omega, by omega, nofun, ?_⟩
    rintro _ _ ⟨⟩
    exact hlen
  | _ => simp [opPdu]

/-- Settles O6: the four reads share one shape, at the bounds 2000 and 125. -/
theorem readOperationsEncodeByRange : Obligations.ReadOperationsEncodeByRange := by
  intro s a q ha
  refine ⟨?_, ?_, ?_, ?_⟩
  · exact presents_encoded (op := .readCoils a q) (encodeRead_of_u16 ha (by decide)) s
  · exact presents_encoded (op := .readDiscreteInputs a q) (encodeRead_of_u16 ha (by decide)) s
  · exact presents_encoded (op := .readHoldingRegisters a q) (encodeRead_of_u16 ha (by decide)) s
  · exact presents_encoded (op := .readInputRegisters a q) (encodeRead_of_u16 ha (by decide)) s

/-- Settles O7: u16 arguments are legal, and each word of the PDU is its two bytes. -/
theorem singleWritesEncode : Obligations.SingleWritesEncode := by
  intro s a ha
  refine ⟨fun b => ?_, fun v hv => ?_⟩
  · have h := presents_encoded (encodeOp_of_legal (op := .writeSingleCoil a b) ha) s
    rwa [opPdu, payloadTwoWords, be16_ofNat ha, be16_coilWord] at h
  · have h := presents_encoded (encodeOp_of_legal (op := .writeSingleRegister a v) ⟨ha, hv⟩) s
    rwa [opPdu, payloadTwoWords_ofNat ha hv] at h

/-- Settles O10: an address or a value outside u16 is not legal, whatever the other arguments are. -/
theorem argumentsOutsideTypeAreRefused : Obligations.ArgumentsOutsideTypeAreRefused := by
  intro s a ha
  have hnot : ¬ a < 65536 := Nat.not_lt.2 ha
  have refused : ∀ op, ¬ opLegal op → PresentsInvalidArgument (opRow op) s :=
    fun op h => presentsInvalidArgument_of_not_legal h s
  refine ⟨fun q => ⟨?_, ?_, ?_, ?_⟩, fun b => ?_, fun v => ⟨?_, ?_⟩, fun vs => ?_, fun vs => ?_, fun b vs hmem => ?_⟩
  · exact refused (.readCoils a q) fun h => hnot h.1
  · exact refused (.readDiscreteInputs a q) fun h => hnot h.1
  · exact refused (.readHoldingRegisters a q) fun h => hnot h.1
  · exact refused (.readInputRegisters a q) fun h => hnot h.1
  · exact refused (.writeSingleCoil a b) hnot
  · exact refused (.writeSingleRegister a v) fun h => hnot h.1
  · exact refused (.writeSingleRegister v a) fun h => hnot h.2
  · exact refused (.writeMultipleCoils a vs) fun h => hnot h.1
  · exact refused (.writeMultipleRegisters a vs) fun h => hnot h.1
  · exact refused (.writeMultipleRegisters b vs) fun ⟨_, hvs, _⟩ => hnot (hvs a hmem)

end Sys2Proof.Machine
end

section
/-! SUPPORT. The response side of the PDU codec: what each decode rule answers, by the fields of the PDU
(spec/41_pdu_decode.md R202 to R223). -/

namespace Sys2Proof.Machine

/-! ### Two bytes and a word (R16) -/

/-- A word written high byte first is the two bytes it is made of. -/
theorem be16_append (hi lo : Byte) : be16 (hi ++ lo : BitVec 16) = [hi, lo] := by
  have hword : rdbe16 [hi, lo] 0 = (hi ++ lo : BitVec 16) := rdbe16_append_form [hi, lo] 0
  rw [← hword]
  exact be16_rdbe16 [hi, lo] 0

theorem payloadTwoWords_append (a1 a0 v1 v0 : Byte) :
    payloadTwoWords (a1 ++ a0 : BitVec 16) (v1 ++ v0 : BitVec 16) = [a1, a0, v1, v0] := by
  rw [payloadTwoWords, be16_append, be16_append]
  rfl

theorem be16_injective : Function.Injective be16 := by
  intro v w h
  rw [← rdbe16_be16 v [], h, rdbe16_be16]

/-- Two bytes make a coil word exactly when they are its two bytes (R102). -/
theorem append_eq_coilWord_iff (hi lo : Byte) (b : Bool) :
    (hi ++ lo : BitVec 16) = coilWord b ↔ hi = (if b then 0xFF else 0x00) ∧ lo = 0x00 := by
  rw [← be16_injective.eq_iff, be16_append, be16_coilWord]
  simp

/-! ### Read responses (R210 to R216) -/

/-- A read-bits response holds as many data bytes as its byte count says, or it is malformed (R210, R211). -/
theorem decodeBits_cons_cons (fc code bc : Byte) (data : Bytes) :
    decodeBits fc (code :: bc :: data) =
      if data.length = bc.toNat then .response fc (.bits (unpackBits data (8 * bc.toNat))) else .malformedPdu := by
  have hbc : byteAt (code :: bc :: data) 1 = bc := rfl
  have hlen : (code :: bc :: data).length = 2 + data.length := by
    rw [List.length_cons, List.length_cons]
    omega
  rw [decodeBits, hbc, if_neg (by omega)]
  by_cases h : data.length = bc.toNat
  · rw [if_pos h, if_neg (by omega), ← h, ← hlen, slice_to_length]
    rfl
  · rw [if_neg h, if_pos (by omega)]

/-- A read-registers response holds an even number of data bytes, as many as its byte count says, or it is malformed
(R215, R216). -/
theorem decodeRegs_cons_cons (fc code bc : Byte) (data : Bytes) :
    decodeRegs fc (code :: bc :: data) =
      if data.length = bc.toNat ∧ bc.toNat % 2 = 0 then .response fc (.regs (unpackRegs data (bc.toNat / 2)))
      else .malformedPdu := by
  have hbc : byteAt (code :: bc :: data) 1 = bc := rfl
  have hlen : (code :: bc :: data).length = 2 + data.length := by
    rw [List.length_cons, List.length_cons]
    omega
  rw [decodeRegs, hbc, if_neg (by omega)]
  by_cases h : data.length = bc.toNat
  · rw [if_neg (by omega)]
    by_cases heven : bc.toNat % 2 = 0
    · rw [if_neg (not_not.2 heven), if_pos ⟨h, heven⟩]
      rfl
    · rw [if_pos heven, if_neg fun hboth => heven hboth.2]
  · rw [if_pos (by omega), if_neg fun hboth => h hboth.1]

/-- Without a byte count a read response is malformed (R210, R215). -/
theorem decodeBits_singleton (fc code : Byte) : decodeBits fc [code] = .malformedPdu := rfl

theorem decodeRegs_singleton (fc code : Byte) : decodeRegs fc [code] = .malformedPdu := rfl

/-- Register `k` is the big-endian pair at byte `2k` (R215). -/
theorem unpackRegs_getD (bytes : Bytes) {n k : Nat} (h : k < n) :
    (unpackRegs bytes n).getD k 0 = rdbe16 bytes (2 * k) := by
  simp [unpackRegs, List.getD_eq_getElem?_getD, h]

/-! ### Write echoes (R220 to R223) -/

/-- The first word after the function code. -/
theorem rdbe16_one_payloadTwoWords (fc : Byte) (x y : U16) : rdbe16 (fc :: payloadTwoWords x y) 1 = x :=
  rdbe16_append_be16 [fc] x (be16 y)

/-- The second word after the function code. -/
theorem rdbe16_three_payloadTwoWords (fc : Byte) (x y : U16) : rdbe16 (fc :: payloadTwoWords x y) 3 = y := by
  simpa [payloadTwoWords] using rdbe16_append_be16 (fc :: be16 x) y []

theorem decodeWriteCoilEcho_payloadTwoWords (fc : Byte) (x y : U16) :
    decodeWriteCoilEcho (fc :: payloadTwoWords x y) =
      if y = 0xFF00 then .response 0x05 (.coilEcho x true)
      else if y = 0x0000 then .response 0x05 (.coilEcho x false)
      else .malformedPdu := by
  rw [decodeWriteCoilEcho, rdbe16_one_payloadTwoWords, rdbe16_three_payloadTwoWords, if_neg (by simp)]

theorem decodeWriteRegEcho_payloadTwoWords (fc : Byte) (x y : U16) :
    decodeWriteRegEcho (fc :: payloadTwoWords x y) = .response 0x06 (.regEcho x y) := by
  rw [decodeWriteRegEcho, rdbe16_one_payloadTwoWords, rdbe16_three_payloadTwoWords, if_neg (by simp)]

theorem decodeWriteMultiEcho_payloadTwoWords (fc code : Byte) (x y : U16) :
    decodeWriteMultiEcho fc (code :: payloadTwoWords x y) = .response fc (.multiEcho x y) := by
  rw [decodeWriteMultiEcho, rdbe16_one_payloadTwoWords, rdbe16_three_payloadTwoWords, if_neg (by simp)]

/-- The two coil words are those that a write of a single coil sends (R102, R220). -/
theorem decodeWriteCoilEcho_coilWord (fc : Byte) (x : U16) (b : Bool) :
    decodeWriteCoilEcho (fc :: payloadTwoWords x (coilWord b)) = .response 0x05 (.coilEcho x b) := by
  rw [decodeWriteCoilEcho_payloadTwoWords]
  cases b <;> rfl

theorem decodeWriteCoilEcho_of_length {pdu : Bytes} (h : pdu.length ≠ 5) : decodeWriteCoilEcho pdu = .malformedPdu :=
  if_pos h

theorem decodeWriteRegEcho_of_length {pdu : Bytes} (h : pdu.length ≠ 5) : decodeWriteRegEcho pdu = .malformedPdu :=
  if_pos h

theorem decodeWriteMultiEcho_of_length {fc : Byte} {pdu : Bytes} (h : pdu.length ≠ 5) :
    decodeWriteMultiEcho fc pdu = .malformedPdu :=
  if_pos h

/-! ### Exception responses (R203) -/

/-- The exception response of a seven-bit code: byte 0 is the exception function code, and the code stands below its
bit 7 (R107). -/
theorem decodeException_pair (c : BitVec 7) (ec : Byte) :
    decodeException [0x80 ||| c.setWidth 8, ec] =
      .protocolException (c.setWidth 8) (BitVec.ofNat 8 (128 + c.toNat)) ec := by
  obtain ⟨-, -, hcode, hbyte⟩ := exception_code c
  calc decodeException [0x80 ||| c.setWidth 8, ec]
      = .protocolException ((0x80 ||| c.setWidth 8) &&& 0x7F) (0x80 ||| c.setWidth 8) ec := rfl
    _ = _ := by rw [hcode, hbyte]

theorem decodeException_of_length {pdu : Bytes} (h : pdu.length ≠ 2) : decodeException pdu = .malformedPdu :=
  if_pos h

/-! ### The rule and the row that byte 0 selects (R202) -/

theorem decodePdu_writeCoilEcho (rest : Bytes) : decodePdu (0x05 :: rest) = decodeWriteCoilEcho (0x05 :: rest) := by
  rw [decodePdu_cons]
  rfl

theorem decodePdu_writeRegEcho (rest : Bytes) : decodePdu (0x06 :: rest) = decodeWriteRegEcho (0x06 :: rest) := by
  rw [decodePdu_cons]
  rfl

theorem decodePdu_writeMultiEchoCoils (rest : Bytes) :
    decodePdu (0x0F :: rest) = decodeWriteMultiEcho 0x0F (0x0F :: rest) := by
  rw [decodePdu_cons]
  rfl

theorem decodePdu_writeMultiEchoRegisters (rest : Bytes) :
    decodePdu (0x10 :: rest) = decodeWriteMultiEcho 0x10 (0x10 :: rest) := by
  rw [decodePdu_cons]
  rfl

/-- The row of a response PDU has the result of `decode`: both choose by byte 0 in the same order. -/
theorem unitResult_decodeResponsePdu (pdu : Bytes) :
    unitResult (decodeResponsePdu pdu) = some (.decoded (decodePdu pdu)) := by
  cases pdu with
  | nil => rfl
  | cons fc rest =>
    rw [decodeResponsePdu, decodePdu_cons]
    split_ifs with h7 h1 h2 h3 h4 h5 h6 h15 h16
    · rw [unitResult, exception_byte fc h7]
    case neg => rfl
    all_goals
      subst fc
      rfl

end Sys2Proof.Machine
end

section
/-! The obligations of spec/41_pdu_decode.md: the ten decode rows, the choice among them, and request PDUs taken for
responses. -/

namespace Sys2Proof.Machine

/-- A decode row presents what its rule answers. -/
theorem presents_decoded {i : Instr} {d e : Decoded} (hi : unitResult i = some (.decoded d)) (h : d = e) (s : State) :
    Presents i s (.decoded e) :=
  presents_of_unitResult (h ▸ hi) s

/-- Settles O14: the bits are the data bytes unpacked, as many as the byte count says. -/
theorem readBitsResponsesDecode : Obligations.ReadBitsResponsesDecode := by
  intro s bc data
  refine ⟨fun hlen => ?_, fun hlen => ?_, ?_, ?_⟩
  · have hdec : ∀ fc, decodeBits fc (fc :: bc :: data) = .response fc (.bits (unpackBits data (8 * bc.toNat))) :=
      fun fc => (decodeBits_cons_cons fc fc bc data).trans (if_pos hlen)
    exact ⟨_, presents_decoded rfl (hdec 0x01) s, presents_decoded rfl (hdec 0x02) s, unpackBits_length _ _,
      fun k hk => unpackBits_getD data hk⟩
  · have hdec : ∀ fc, decodeBits fc (fc :: bc :: data) = .malformedPdu :=
      fun fc => (decodeBits_cons_cons fc fc bc data).trans (if_neg hlen)
    exact ⟨presents_decoded rfl (hdec 0x01) s, presents_decoded rfl (hdec 0x02) s⟩
  · exact presents_decoded rfl (decodeBits_singleton 0x01 0x01) s
  · exact presents_decoded rfl (decodeBits_singleton 0x02 0x02) s

/-- Settles O15: the registers are the data bytes unpacked in pairs, when the byte count is exact and even. -/
theorem readRegistersResponsesDecode : Obligations.ReadRegistersResponsesDecode := by
  intro s bc data
  refine ⟨fun hlen => ?_, fun hlen => ?_, ?_, ?_⟩
  · have hdec : ∀ fc, decodeRegs fc (fc :: bc :: data) = .response fc (.regs (unpackRegs data (bc.toNat / 2))) :=
      fun fc => (decodeRegs_cons_cons fc fc bc data).trans (if_pos hlen)
    refine ⟨_, presents_decoded rfl (hdec 0x03) s, presents_decoded rfl (hdec 0x04) s, unpackRegs_length _ _,
      fun k hk => ?_⟩
    rw [unpackRegs_getD data hk]
    exact rdbe16_toNat data (2 * k)
  · have hdec : ∀ fc, decodeRegs fc (fc :: bc :: data) = .malformedPdu :=
      fun fc => (decodeRegs_cons_cons fc fc bc data).trans (if_neg (by omega))
    exact ⟨presents_decoded rfl (hdec 0x03) s, presents_decoded rfl (hdec 0x04) s⟩
  · exact presents_decoded rfl (decodeRegs_singleton 0x03 0x03) s
  · exact presents_decoded rfl (decodeRegs_singleton 0x04 0x04) s

/-- Settles O16: four bytes are two words; a PDU of another length has no echo. -/
theorem writeEchoesDecode : Obligations.WriteEchoesDecode := by
  intro s rest
  refine ⟨?_, fun hlen => ?_⟩
  · rintro a1 a0 v1 v0 rfl
    have hon : (v1 ++ v0 : BitVec 16) = 0xFF00 ↔ v1 = 0xFF ∧ v0 = 0x00 := append_eq_coilWord_iff v1 v0 true
    have hoff : (v1 ++ v0 : BitVec 16) = 0x0000 ↔ v1 = 0x00 ∧ v0 = 0x00 := append_eq_coilWord_iff v1 v0 false
    simp only [← hon, ← hoff]
    rw [← payloadTwoWords_append]
    refine ⟨?_, ?_, ?_, ?_⟩
    · exact presents_decoded rfl (decodeWriteCoilEcho_payloadTwoWords 0x05 _ _) s
    · exact presents_decoded rfl (decodeWriteRegEcho_payloadTwoWords 0x06 _ _) s
    · exact presents_decoded rfl (decodeWriteMultiEcho_payloadTwoWords 0x0F 0x0F _ _) s
    · exact presents_decoded rfl (decodeWriteMultiEcho_payloadTwoWords 0x10 0x10 _ _) s
  · have hpdu : ∀ fc : Byte, (fc :: rest).length ≠ 5 := fun fc => by simpa using hlen
    refine ⟨?_, ?_, ?_, ?_⟩
    · exact presents_decoded rfl (decodeWriteCoilEcho_of_length (hpdu 0x05)) s
    · exact presents_decoded rfl (decodeWriteRegEcho_of_length (hpdu 0x06)) s
    · exact presents_decoded rfl (decodeWriteMultiEcho_of_length (hpdu 0x0F)) s
    · exact presents_decoded rfl (decodeWriteMultiEcho_of_length (hpdu 0x10)) s

/-- Settles O19: a single write is its own echo; a multiple write is longer than the echo of its code. -/
theorem requestPdusDecodedAsResponses : Obligations.RequestPdusDecodedAsResponses := by
  refine ⟨fun a b r h => ?_, fun a v r h => ?_, fun a vs r h => ?_, fun a vs r h => ?_⟩
  · obtain ⟨-, rfl⟩ := (encodeOp_ok_iff (.writeSingleCoil a b) r).1 h
    exact (decodePdu_writeCoilEcho _).trans (decodeWriteCoilEcho_coilWord 0x05 _ b)
  · obtain ⟨-, rfl⟩ := (encodeOp_ok_iff (.writeSingleRegister a v) r).1 h
    exact (decodePdu_writeRegEcho _).trans (decodeWriteRegEcho_payloadTwoWords 0x06 _ _)
  · obtain ⟨-, rfl⟩ := (encodeOp_ok_iff (.writeMultipleCoils a vs) r).1 h
    refine (decodePdu_writeMultiEchoCoils _).trans (decodeWriteMultiEcho_of_length ?_)
    simp [opPdu]
    omega
  · obtain ⟨-, rfl⟩ := (encodeOp_ok_iff (.writeMultipleRegisters a vs) r).1 h
    refine (decodePdu_writeMultiEchoRegisters _).trans (decodeWriteMultiEcho_of_length ?_)
    simp [opPdu]
    omega

/-- Settles O13: the row that a PDU selects has the result of `decode`, and presents it. -/
theorem decodeRowsPresentDecode : Obligations.DecodeRowsPresentDecode :=
  fun s pdu => presents_of_unitResult (unitResult_decodeResponsePdu pdu) s

/-- Settles O17: byte 0 is the code with bit 7 set; one byte after it is the exception code. -/
theorem exceptionResponsesDecode : Obligations.ExceptionResponsesDecode := by
  intro s rfc rest
  refine ⟨?_, fun hlen => ?_⟩
  · rintro ec rfl
    exact presents_decoded rfl (decodeException_pair rfc ec) s
  · exact presents_decoded rfl (decodeException_of_length (by simpa using hlen)) s

end Sys2Proof.Machine
end

section
/-! SUPPORT. What feeding one byte does to the CRC register, which register a byte takes to a given value, and the CRC of a
byte group by its trailer and by its single bytes (spec/42_crc16.md R252 to R257). -/

namespace Sys2Proof.Machine

/-! ### One byte fed to the register (R252, R254) -/

/-- The inner step, with its condition on the bit shifted out (R252). -/
theorem crcBit_of_getLsbD (c : U16) : crcBit c = if c.getLsbD 0 then (c >>> 1) ^^^ 0xA001 else c >>> 1 := by
  simp only [crcBit, and_one_eq_one_iff]

/-- The CRC as one loop over the bytes, with eight inner steps for each (R252). -/
theorem crcOf_eq_foldl_iterate (s : Bytes) :
    crcOf s = s.foldl (fun c b => crcBit^[8] (c ^^^ b.setWidth 16)) 0xFFFF := rfl

/-- Eight inner steps on a byte in the high position only move it down (R254). -/
theorem crcEight_shiftLeft {h : U16} (hh : h.toNat < 256) : crcEight (h <<< 8) = h := by
  have hback : h <<< 8 >>> 8 = h := by
    apply BitVec.eq_of_toNat_eq
    simp only [BitVec.toNat_ushiftRight, BitVec.toNat_shiftLeft, Nat.shiftLeft_eq, Nat.shiftRight_eq_div_pow]
    omega
  rw [crcEight_of_low_zero (fun i hi => by simp [hi]), hback]

/-- A byte, taken as a word, stays below 256. -/
theorem byte_setWidth_toNat_lt (b : Byte) : (b.setWidth 16).toNat < 256 := by
  rw [BitVec.toNat_setWidth]
  omega

/-- The high byte of a word, moved down, stays below 256. -/
theorem ushiftRight_eight_toNat_lt (c : U16) : (c >>> 8).toNat < 256 := by
  rw [BitVec.toNat_ushiftRight, Nat.shiftRight_eq_div_pow]
  omega

/-- A byte enters the low eight bits alone (R252). -/
theorem xor_byte_ushiftRight (c : U16) (b : Byte) : (c ^^^ b.setWidth 16) >>> 8 = c >>> 8 := by
  ext i hi
  simp

/-- Two bytes side by side, as the sum without carries of the high one moved up and the low one. -/
theorem append_eq_xor (hi lo : Byte) : (hi ++ lo : BitVec 16) = hi.setWidth 16 <<< 8 ^^^ lo.setWidth 16 := by
  apply BitVec.eq_of_getLsbD_eq
  intro i hlt
  rw [show (hi ++ lo : BitVec 16).getLsbD i = _ from BitVec.getLsbD_append]
  by_cases h : i < 8
  · simp [h, show i < 16 by omega]
  · simp [h, show i < 16 by omega, BitVec.getLsbD_of_ge lo i (by omega)]

/-! ### The register before a byte, from the register after it (R256) -/

theorem crcEight_eq_zero_iff {c : U16} : crcEight c = 0 ↔ c = 0 :=
  ⟨crcEight_eq_zero, fun h => by rw [h]; rfl⟩

theorem crcEight_inj {a b : U16} : crcEight a = crcEight b ↔ a = b :=
  ⟨crcEight_injective, congrArg crcEight⟩

/-- A byte clears the register exactly when the register holds that byte. -/
theorem crcFeed_eq_zero_iff (c : U16) (b : Byte) : crcFeed c b = 0 ↔ c = b.setWidth 16 := by
  rw [crcFeed, crcEight_eq_zero_iff]
  exact BitVec.xor_eq_zero_iff

/-- A byte leaves `hi` in the register exactly when the register holds `hi` above that byte. -/
theorem crcFeed_eq_byte_iff (c : U16) (lo hi : Byte) :
    crcFeed c lo = hi.setWidth 16 ↔ c = (hi ++ lo : BitVec 16) := by
  rw [crcFeed, ← crcEight_shiftLeft (byte_setWidth_toNat_lt hi), crcEight_inj, append_eq_xor,
    ← BitVec.xor_left_inj (lo.setWidth 16), BitVec.xor_assoc, BitVec.xor_self, BitVec.xor_zero]

/-- The residue of a group is 0 exactly when its trailer is the CRC of the bytes before it (R256). -/
theorem crcOf_append_trailer_eq_zero_iff (s : Bytes) (lo hi : Byte) :
    crcOf (s ++ [lo, hi]) = 0 ↔ crcOf s = (hi ++ lo : BitVec 16) :=
  calc crcOf (s ++ [lo, hi]) = 0
      ↔ crcFeed (crcFeed (crcOf s) lo) hi = 0 := by rw [crcOf_append]; rfl
    _ ↔ crcFeed (crcOf s) lo = hi.setWidth 16 := crcFeed_eq_zero_iff _ hi
    _ ↔ crcOf s = (hi ++ lo : BitVec 16) := crcFeed_eq_byte_iff _ lo hi

/-- The check passes exactly when the residue is 0 (R256). -/
theorem rtuCrcPasses_iff {g : Bytes} (h : 2 ≤ g.length) : rtuCrcPasses g = true ↔ crcOf g = 0 := by
  obtain ⟨s, lo, hi, rfl⟩ := exists_trailer h
  rw [rtuCrcPasses_append, decide_eq_true_iff, crcOf_append_trailer_eq_zero_iff]

/-! ### A group with one byte or one bit changed (R257) -/

/-- A byte differs from itself with one bit flipped. -/
theorem xor_bit_ne_self (a : Byte) {k : Nat} (hk : k < 8) : a ^^^ (1#8 <<< k) ≠ a := by
  intro h
  have hbit := congrArg (BitVec.getLsbD · k) h
  simp [hk] at hbit

/-- Replacing one byte by another changes the CRC. -/
theorem crcOf_set_ne {g : Bytes} {i : Nat} {a : Byte} (hi : i < g.length) (ha : a ≠ g.getD i 0) :
    crcOf (g.set i a) ≠ crcOf g := by
  have hsplit (b : Byte) : g.set i b = g.take i ++ b :: g.drop (i + 1) :=
    List.set_eq_take_append_cons_drop.trans (if_pos hi)
  have hself : g.set i (g.getD i 0) = g := by
    rw [List.getD_eq_getElem _ _ hi, List.set_getElem_self]
  have hne := crcOf_ne_of_byte_ne (g.take i) (g.drop (i + 1)) ha
  rwa [← hsplit, ← hsplit, hself] at hne

/-- A frame with one byte replaced by another no longer has residue 0, so its check fails (R257). -/
theorem rtuTryUnwrap_set_corrupt {g : Bytes} {f : Frame} {i : Nat} {a : Byte} (hframe : rtuTryUnwrap g = .frame f)
    (hi : i < g.length) (ha : a ≠ g.getD i 0) : rtuTryUnwrap (g.set i a) = .corrupt g.length := by
  obtain ⟨hlen, hpass, -, -⟩ := rtuTryUnwrap_eq_frame hframe
  have hlen' : (g.set i a).length = g.length := List.length_set
  have hzero : crcOf g = 0 := (rtuCrcPasses_iff (by omega)).1 hpass
  have hne : crcOf (g.set i a) ≠ 0 := hzero ▸ crcOf_set_ne hi ha
  have hfail : rtuCrcPasses (g.set i a) = false :=
    Bool.eq_false_iff.2 fun hp => hne ((rtuCrcPasses_iff (by omega)).1 hp)
  rw [rtuTryUnwrap_corrupt (.inr hfail), hlen']

end Sys2Proof.Machine
end

section
/-! The obligations of spec/42_crc16.md: the loop and the table form, the residue, and single-bit errors. -/

namespace Sys2Proof.Machine

/-- Settles O20: each inner step is the loop's body, so feeding a byte is the body of the loop over the bytes. -/
theorem crc16RowComputesTheLoop : Obligations.Crc16RowComputesTheLoop := by
  intro s bytes
  have hbody : (fun x : U16 => if x.getLsbD 0 then (x >>> 1) ^^^ 0xA001 else x >>> 1) = crcBit :=
    (funext crcBit_of_getLsbD).symm
  rw [hbody, ← crcOf_eq_foldl_iterate]
  exact presents_of_unitResult rfl s

/-- Settles O21: the inner loop is linear over XOR, and the high byte of its argument only shifts right (R254). -/
theorem crcTableFormEqualsLoop : Obligations.CrcTableFormEqualsLoop := by
  intro c b
  symm
  calc crcFeed c b
      = crcEight (((c ^^^ b.setWidth 16).setWidth 8).setWidth 16 ^^^ (c >>> 8) <<< 8) := by
        rw [← xor_byte_ushiftRight c b, xor_low_high, crcFeed]
    _ = crcTable ((c ^^^ b.setWidth 16).setWidth 8) ^^^ (c >>> 8) := by
        rw [crcEight_xor, crcEight_shiftLeft (ushiftRight_eight_toNat_lt c), crcTable]

/-- Settles O22: the second last byte leaves the last one in the register, and the last one clears it, exactly when the two
are the CRC of the bytes before them. -/
theorem crcCheckEqualsZeroResidue : Obligations.CrcCheckEqualsZeroResidue :=
  fun _ hlen => rtuCrcPasses_iff hlen

/-- Settles O23: a flipped bit is a byte replaced by another, wherever in the group it stands. -/
theorem singleBitFlipIsCorrupt : Obligations.SingleBitFlipIsCorrupt :=
  fun _ _ _ _ hframe hi hb => rtuTryUnwrap_set_corrupt hframe hi (xor_bit_ne_self _ hb)

end Sys2Proof.Machine
end

section
/-! SUPPORT. What unwrapping answers, by the bytes of the buffer or the group (spec/43_adu_framer.md R282, R285, R292). -/

namespace Sys2Proof.Machine

/-! ### TCP: a buffer that holds a whole header -/

/-- Two bytes side by side, as a number. -/
theorem append_toNat (hi lo : Byte) : (hi ++ lo : BitVec 16).toNat = hi.toNat * 256 + lo.toNat := by
  have := rdbe16_toNat [hi, lo] 0
  rwa [rdbe16_append_form] at this

/-- The fields of the MBAP header, from its bytes (R108). -/
theorem mbapHeader_fields {t1 t0 p1 p0 l1 l0 u : Byte} {rest buf : Bytes}
    (h : buf = t1 :: t0 :: p1 :: p0 :: l1 :: l0 :: u :: rest) :
    rdbe16 buf 0 = (t1 ++ t0 : BitVec 16) ∧ rdbe16 buf 2 = (p1 ++ p0 : BitVec 16) ∧
      (rdbe16 buf 4).toNat = l1.toNat * 256 + l0.toNat ∧ byteAt buf 6 = u := by
  subst h
  exact ⟨rdbe16_append_form _ 0, rdbe16_append_form _ 2, rdbe16_toNat _ 4, rfl⟩

/-- The protocol id is not 0 exactly when one of its bytes is not. -/
theorem append_ne_zero_iff (hi lo : Byte) : (hi ++ lo : BitVec 16) ≠ 0 ↔ hi ≠ 0 ∨ lo ≠ 0 := by
  simp only [ne_eq, ← BitVec.toNat_inj, append_toNat, BitVec.ofNat_eq_ofNat, BitVec.toNat_ofNat]
  omega

/-- When the header fails, by its bytes (R285). -/
theorem tcpHeaderCorrupt_iff (t1 t0 p1 p0 l1 l0 u : Byte) (rest : Bytes) :
    tcpHeaderCorrupt (t1 :: t0 :: p1 :: p0 :: l1 :: l0 :: u :: rest) = true ↔
      p1 ≠ 0 ∨ p0 ≠ 0 ∨ l1.toNat * 256 + l0.toNat < 2 ∨ 254 < l1.toNat * 256 + l0.toNat := by
  generalize hb : t1 :: t0 :: p1 :: p0 :: l1 :: l0 :: u :: rest = buf
  obtain ⟨-, hproto, hlen, -⟩ := mbapHeader_fields hb.symm
  simp only [tcpHeaderCorrupt, hproto, hlen, Config.tcpMaxLen, Bool.or_eq_true, decide_eq_true_eq, append_ne_zero_iff,
    or_assoc]

/-- What unwrapping answers for a buffer of at least seven bytes (R282, R285). -/
theorem tcpTryUnwrap_header (t1 t0 p1 p0 l1 l0 u : Byte) (rest : Bytes) :
    tcpTryUnwrap (t1 :: t0 :: p1 :: p0 :: l1 :: l0 :: u :: rest) =
      if p1 ≠ 0 ∨ p0 ≠ 0 ∨ l1.toNat * 256 + l0.toNat < 2 ∨ 254 < l1.toNat * 256 + l0.toNat then
        .corrupt (7 + rest.length)
      else if rest.length + 1 < l1.toNat * 256 + l0.toNat then .incomplete
      else .frame { unitId := u, transactionId := some (t1 ++ t0 : BitVec 16),
                    pdu := rest.take (l1.toNat * 256 + l0.toNat - 1),
                    consumed := 6 + (l1.toNat * 256 + l0.toNat) } := by
  have hbad := tcpHeaderCorrupt_iff t1 t0 p1 p0 l1 l0 u rest
  generalize hb : t1 :: t0 :: p1 :: p0 :: l1 :: l0 :: u :: rest = buf at hbad ⊢
  obtain ⟨htid, -, hlen, hunit⟩ := mbapHeader_fields hb.symm
  have hbuf : buf.length = 7 + rest.length := by
    rw [← hb]
    simp only [List.length_cons]
    omega
  have hpdu : ∀ n, slice buf 7 (6 + n) = rest.take (n - 1) := by
    intro n
    rw [← hb, slice, show 6 + n - 7 = n - 1 by omega]
    rfl
  have hshort : ∀ n, 7 + rest.length < 6 + n ↔ rest.length + 1 < n := by
    intro n
    omega
  rw [tcpTryUnwrap, htid, hlen, hunit, hpdu, hbuf, if_neg (by omega)]
  simp only [hbad, hshort]

/-- A value below 0x10000 is its high byte and its low byte. -/
theorem hiByte_loByte_toNat {n : Nat} (h : n < 65536) : (hiByte n).toNat * 256 + (loByte n).toNat = n := by
  simp only [hiByte, loByte, BitVec.toNat_ofNat]
  omega

/-- Unwrapping a wrapped PDU gives it back, whatever comes after it (R314). -/
theorem tcpTryUnwrap_tcpWrap_append {tid : U16} {u : Byte} {pdu rest : Bytes} (h1 : 1 ≤ pdu.length)
    (h253 : pdu.length ≤ 253) : tcpTryUnwrap (tcpWrap tid u pdu ++ rest) =
      .frame { unitId := u, transactionId := some tid, pdu := pdu, consumed := 7 + pdu.length } := by
  have hpdu : (pdu ++ rest).take (1 + pdu.length - 1) = pdu := by
    rw [Nat.add_sub_cancel_left, List.take_left]
  have hgood : ¬((0 : Byte) ≠ 0 ∨ (0 : Byte) ≠ 0 ∨ 1 + pdu.length < 2 ∨ 254 < 1 + pdu.length) := by
    simp only [ne_eq, not_true_eq_false, false_or]
    omega
  rw [tcpWrap_eq tid u (by omega)]
  simp only [List.cons_append]
  rw [tcpTryUnwrap_header, hiByte_loByte_toNat (by omega), trailer_bytes, hpdu, if_neg hgood,
    if_neg (by rw [List.length_append]; omega), ← Nat.add_assoc]

/-! ### RTU: a group that holds a unit id and a trailer -/

/-- What unwrapping answers for a group with a PDU (R292). -/
theorem rtuTryUnwrap_trailer (u : Byte) {pdu : Bytes} (lo hi : Byte) (h : 1 ≤ pdu.length) :
    rtuTryUnwrap (u :: pdu ++ [lo, hi]) =
      if crcOf (u :: pdu) = (hi ++ lo : BitVec 16) then
        .frame { unitId := u, transactionId := none, pdu := pdu, consumed := 3 + pdu.length }
      else .corrupt (3 + pdu.length) := by
  have hlen : (u :: pdu ++ [lo, hi]).length = 3 + pdu.length := by
    simp only [List.length_append, List.length_cons, List.length_nil]
    omega
  have hpdu : slice (u :: pdu ++ [lo, hi]) 1 (3 + pdu.length - 2) = pdu := by
    rw [slice, show 3 + pdu.length - 2 - 1 = pdu.length by omega]
    exact List.take_left
  rw [rtuTryUnwrap, rtuCrcPasses_append, hlen, hpdu, if_neg (by simp only [Config.rtuMinGroup]; omega)]
  simp only [decide_eq_true_eq]
  rfl

/-- A CRC equals a trailer exactly when it is the trailer's little-endian value (R73, R292). -/
theorem eq_trailer_iff (c : U16) (lo hi : Byte) :
    c = (hi ++ lo : BitVec 16) ↔ c.toNat = lo.toNat + hi.toNat * 256 := by
  rw [← BitVec.toNat_inj, append_toNat, Nat.add_comm]

/-- Unwrapping a wrapped PDU gives it back (R314). -/
theorem rtuTryUnwrap_rtuWrap (u : Byte) {pdu : Bytes} (h : 1 ≤ pdu.length) :
    rtuTryUnwrap (rtuWrap u pdu) =
      .frame { unitId := u, transactionId := none, pdu := pdu, consumed := 3 + pdu.length } := by
  rw [rtuWrap_eq, rtuTryUnwrap_trailer u _ _ h, trailer_bytes, if_pos rfl]

end Sys2Proof.Machine
end

section
/-! SUPPORT. The extraction loop by its own equation, and a byte stream handed over in parts (spec/43_adu_framer.md R305, R310,
R313). -/

namespace Sys2Proof.Machine

/-! ### The loop's equation -/

theorem extractTcp_of_incomplete {s : State} (h : tcpTryUnwrap s.rxBuf = .incomplete) : extractTcp s = s := by
  rw [extractTcp, extractTcpLoop, h]

theorem extractTcp_of_corrupt {s : State} {k : Nat} (h : tcpTryUnwrap s.rxBuf = .corrupt k) :
    extractTcp s = bufDrop k s := by
  rw [extractTcp, extractTcpLoop, h]

/-- After a frame the loop goes on as from the start (R310). -/
theorem extractTcp_of_frame {s : State} {f : Frame} (h : tcpTryUnwrap s.rxBuf = .frame f) :
    extractTcp s = extractTcp (engineFrame f (bufDrop f.consumed s)) := by
  have hc := tcpTryUnwrap_consumed h
  rw [extractTcp, extractTcpLoop, h]
  apply extractTcpLoop_fuel
  · simp only [engineFrame_frame, bufDrop_fields, List.length_drop]
    omega
  · exact Nat.lt_succ_self _

/-- Extraction ends with a buffer that waits for more bytes (R310). -/
theorem extractTcp_incomplete (s : State) : tcpTryUnwrap (extractTcp s).rxBuf = .incomplete :=
  extractTcpLoop_incomplete (Nat.lt_succ_self _)

/-- Induction along the loop: every frame taken off leaves a shorter buffer (log 14). -/
theorem extractTcp_induction {motive : State → Prop}
    (incomplete : ∀ s, tcpTryUnwrap s.rxBuf = .incomplete → motive s)
    (corrupt : ∀ s k, tcpTryUnwrap s.rxBuf = .corrupt k → motive s)
    (frame : ∀ s f, tcpTryUnwrap s.rxBuf = .frame f → motive (engineFrame f (bufDrop f.consumed s)) → motive s)
    (s : State) : motive s := by
  induction hn : s.rxBuf.length using Nat.strong_induction_on generalizing s with
  | _ n ih =>
    cases h : tcpTryUnwrap s.rxBuf with
    | incomplete => exact incomplete s h
    | corrupt k => exact corrupt s k h
    | frame f =>
      have hc := tcpTryUnwrap_consumed h
      refine frame s f h (ih _ ?_ _ rfl)
      simp only [engineFrame_frame, bufDrop_fields, List.length_drop]
      omega

/-! ### Streams whose headers all pass R285 -/

/-- A bound above the stream's length makes no difference to whether its headers pass. -/
theorem streamClean_fuel {n m : Nat} {stream : Bytes} (hn : stream.length < n) (hm : stream.length < m) :
    streamClean n stream = streamClean m stream := by
  induction n generalizing m stream with
  | zero => omega
  | succ n ih =>
    obtain _ | m := m
    · omega
    rw [streamClean, streamClean]
    cases h : tcpTryUnwrap stream with
    | incomplete => rfl
    | corrupt k => rfl
    | frame f =>
      have hc := tcpTryUnwrap_consumed h
      apply ih <;> rw [List.length_drop] <;> omega

/-- Every header of the stream passes, whatever the number of its frames. -/
def HeadersPass (stream : Bytes) : Prop := streamClean (stream.length + 1) stream = true

theorem headersPass_of_incomplete {stream : Bytes} (h : tcpTryUnwrap stream = .incomplete) : HeadersPass stream := by
  rw [HeadersPass, streamClean, h]

theorem HeadersPass.not_corrupt {stream : Bytes} {k : Nat} (h : HeadersPass stream) :
    tcpTryUnwrap stream ≠ .corrupt k := by
  intro hc
  rw [HeadersPass, streamClean, hc] at h
  exact Bool.false_ne_true h

/-- What follows a frame passes too. -/
theorem HeadersPass.drop {stream : Bytes} {f : Frame} (h : HeadersPass stream) (hf : tcpTryUnwrap stream = .frame f) :
    HeadersPass (stream.drop f.consumed) := by
  have hc := tcpTryUnwrap_consumed hf
  rw [HeadersPass, streamClean, hf] at h
  rw [HeadersPass, ← h]
  apply streamClean_fuel <;> rw [List.length_drop] <;> omega

/-- A failing header consumes the buffer (R285). -/
theorem tcpTryUnwrap_of_tcpHeaderCorrupt {buf : Bytes} (hlen : 7 ≤ buf.length) (hbad : tcpHeaderCorrupt buf = true) :
    tcpTryUnwrap buf = .corrupt buf.length := by
  rw [tcpTryUnwrap, if_neg (Nat.not_lt.2 hlen), if_pos hbad]

/-- A corrupt header stays corrupt whatever bytes come after it (R285). -/
theorem tcpTryUnwrap_corrupt_append {buf : Bytes} {k : Nat} (h : tcpTryUnwrap buf = .corrupt k) (t : Bytes) :
    tcpTryUnwrap (buf ++ t) = .corrupt (buf ++ t).length := by
  obtain ⟨hlen, hbad, -⟩ := tcpTryUnwrap_eq_corrupt h
  exact tcpTryUnwrap_of_tcpHeaderCorrupt (by rw [List.length_append]; omega) ((tcpHeaderCorrupt_append hlen t).trans hbad)

/-! ### Extracting early makes no difference -/

/-- Bytes that come after a frame stay where they are while the frame is taken off and handled. -/
theorem engineFrame_bufDrop_append {s : State} {f : Frame} (h : f.consumed ≤ s.rxBuf.length) (t : Bytes) :
    engineFrame f (bufDrop f.consumed { s with rxBuf := s.rxBuf ++ t }) =
      { engineFrame f (bufDrop f.consumed s) with rxBuf := (engineFrame f (bufDrop f.consumed s)).rxBuf ++ t } := by
  have hbuf : (engineFrame f (bufDrop f.consumed s)).rxBuf = s.rxBuf.drop f.consumed := by simp
  rw [hbuf, ← List.drop_append_of_le_length h, ← engineFrame_setBuf]
  rfl

/-- Extraction takes whole frames off the front, so what it leaves, continued by `t`, passes as well. -/
theorem headersPass_extractTcp (t : Bytes) (s : State) :
    HeadersPass (s.rxBuf ++ t) → HeadersPass ((extractTcp s).rxBuf ++ t) := by
  induction s using extractTcp_induction with
  | incomplete s h => rw [extractTcp_of_incomplete h]; exact id
  | corrupt s k h => exact fun hpass => absurd (tcpTryUnwrap_corrupt_append h t) hpass.not_corrupt
  | frame s f h ih =>
    intro hpass
    obtain ⟨-, hc⟩ := tcpTryUnwrap_consumed h
    rw [extractTcp_of_frame h]
    apply ih
    simpa [List.drop_append_of_le_length hc] using hpass.drop (tcpTryUnwrap_frame_append h t)

/-- While the headers pass, extracting before the rest of the stream arrives makes no difference (R313). -/
theorem receiveWholeChunk_extractTcp (t : Bytes) (s : State) :
    HeadersPass (s.rxBuf ++ t) → receiveWholeChunk t (extractTcp s) = receiveWholeChunk t s := by
  induction s using extractTcp_induction with
  | incomplete s h => rw [extractTcp_of_incomplete h]; exact fun _ => rfl
  | corrupt s k h => exact fun hpass => absurd (tcpTryUnwrap_corrupt_append h t) hpass.not_corrupt
  | frame s f h ih =>
    intro hpass
    obtain ⟨-, hc⟩ := tcpTryUnwrap_consumed h
    have hft := tcpTryUnwrap_frame_append h t
    have hrest : HeadersPass ((engineFrame f (bufDrop f.consumed s)).rxBuf ++ t) := by
      simpa [List.drop_append_of_le_length hc] using hpass.drop hft
    calc receiveWholeChunk t (extractTcp s)
        = receiveWholeChunk t (engineFrame f (bufDrop f.consumed s)) := by rw [extractTcp_of_frame h, ih hrest]
      _ = extractTcp (engineFrame f (bufDrop f.consumed { s with rxBuf := s.rxBuf ++ t })) := by
        rw [engineFrame_bufDrop_append hc, receiveWholeChunk]
      _ = receiveWholeChunk t s := (extractTcp_of_frame (s := { s with rxBuf := s.rxBuf ++ t }) hft).symm

/-- One byte in TCP mode (R305). -/
theorem rxByte_tcp {s : State} (hmode : s.mode = .tcp) (b : Byte) : rxByte s b = extractTcp (bufAppend b s) := by
  rw [rxByte, hmode]
  rfl

/-- A byte that completes a corrupt header clears the buffer and does nothing else (R285, R310). -/
theorem rxByte_tcp_of_corrupt {s : State} {b : Byte} {k : Nat} (hmode : s.mode = .tcp)
    (h : tcpTryUnwrap (s.rxBuf ++ [b]) = .corrupt k) : rxByte s b = { s with rxBuf := [] } := by
  obtain ⟨-, -, rfl⟩ := tcpTryUnwrap_eq_corrupt h
  rw [rxByte_tcp hmode, extractTcp_of_corrupt (s := bufAppend b s) h]
  apply State.ext_fields
  simp

/-- In TCP mode, while the headers pass, receiving byte by byte is receiving the whole chunk (R313). -/
theorem foldl_rxByte_tcp {s : State} {bytes : Bytes} (hmode : s.mode = .tcp) (hwait : tcpTryUnwrap s.rxBuf = .incomplete)
    (hpass : HeadersPass (s.rxBuf ++ bytes)) : bytes.foldl rxByte s = receiveWholeChunk bytes s := by
  induction bytes generalizing s with
  | nil =>
    rw [receiveWholeChunk, List.append_nil]
    exact (extractTcp_of_incomplete hwait).symm
  | cons b bytes ih =>
    have happend : (bufAppend b s).rxBuf ++ bytes = s.rxBuf ++ b :: bytes := by simp
    have hpass' : HeadersPass ((bufAppend b s).rxBuf ++ bytes) := happend ▸ hpass
    calc (b :: bytes).foldl rxByte s = bytes.foldl rxByte (extractTcp (bufAppend b s)) := by
          rw [List.foldl_cons, rxByte_tcp hmode]
      _ = receiveWholeChunk bytes (extractTcp (bufAppend b s)) :=
        ih (by simp [extractTcp, hmode]) (extractTcp_incomplete _) (headersPass_extractTcp bytes _ hpass')
      _ = receiveWholeChunk bytes (bufAppend b s) := receiveWholeChunk_extractTcp bytes _ hpass'
      _ = receiveWholeChunk (b :: bytes) s := by
        rw [receiveWholeChunk, receiveWholeChunk, happend]
        rfl

/-- In TCP mode, bytes that complete neither a frame nor a corrupt header are only held (R305). -/
theorem foldl_rxByte_tcp_waiting {s : State} {bytes : Bytes} (hmode : s.mode = .tcp)
    (hbefore : tcpTryUnwrap s.rxBuf = .incomplete) (hafter : tcpTryUnwrap (s.rxBuf ++ bytes) = .incomplete) :
    bytes.foldl rxByte s = { s with rxBuf := s.rxBuf ++ bytes } := by
  rw [foldl_rxByte_tcp hmode hbefore (headersPass_of_incomplete hafter), receiveWholeChunk]
  exact extractTcp_of_incomplete hafter

/-- Six bytes of a corrupt header wait in the empty buffer; the seventh clears it again (R285). -/
theorem foldl_rxByte_corruptHeader {s : State} {header : Bytes} (hmode : s.mode = .tcp) (hempty : s.rxBuf = [])
    (hlen : header.length = 7) (hbad : tcpHeaderCorrupt header = true) : header.foldl rxByte s = s := by
  obtain ⟨six, b, rfl⟩ := (List.eq_nil_or_concat' header).resolve_left (by rintro rfl; cases hlen)
  have hsix : six.length = 6 := by simpa using hlen
  have hwait : six.foldl rxByte s = { s with rxBuf := s.rxBuf ++ six } :=
    foldl_rxByte_tcp_waiting hmode (tcpTryUnwrap_of_short (by simp [hempty]))
      (tcpTryUnwrap_of_short (by simp [hempty, hsix]))
  rw [hempty, List.nil_append] at hwait
  have hseventh : rxByte { s with rxBuf := six } b = { s with rxBuf := [] } :=
    rxByte_tcp_of_corrupt (s := { s with rxBuf := six }) hmode (tcpTryUnwrap_of_tcpHeaderCorrupt hlen.ge hbad)
  calc (six ++ [b]).foldl rxByte s = rxByte { s with rxBuf := six } b := by
        rw [List.foldl_append, hwait, List.foldl_cons, List.foldl_nil]
    _ = s := by rw [hseventh, ← hempty]

end Sys2Proof.Machine
end

section
/-! SUPPORT. Chunks one after another, RTU bytes up to the capacity, and the RTU gap (spec/43_adu_framer.md R300, R302, R312;
spec/44_transaction_engine.md R360). -/

namespace Sys2Proof.Machine

/-! ### Chunks one after another -/

theorem execAll_cons_of_next {i : Instr} {s t : State} (rest : List Instr) (h : exec i s = .next t) :
    execAll (i :: rest) s = execAll rest t := by
  rw [execAll, h]

theorem execAll_singleton_of_next {i : Instr} {s t : State} (h : exec i s = .next t) :
    execAll [i] s = .next t := by
  rw [execAll_cons_of_next [] h, execAll]

/-- Two receptions counted one after the other are one counted whole (R390). -/
theorem countReceive_append (a b : Bytes) (s : State) :
    countReceive (a ++ b) s = countReceive b (countReceive a s) := by
  apply State.ext_fields
  simp [BitVec.ofNat_add, BitVec.add_assoc]

theorem exec_rxChunk_of_connected {s : State} (h : s.conn = .connected) (bytes : Bytes) :
    exec (.rxChunk bytes) s = .next (countReceive bytes (bytes.foldl rxByte s)) := by
  rw [← foldl_rxByte_countReceive]
  exact if_neg (not_not.2 h)

theorem exec_rxChunk_of_not_connected {s : State} (h : s.conn ≠ .connected) (bytes : Bytes) :
    exec (.rxChunk bytes) s = .next s :=
  if_pos h

/-- A chunk after another has the effect of the two as one (R312, R360). -/
theorem exec_rxChunk_append (a b : Bytes) (s : State) :
    ∃ t, exec (.rxChunk a) s = .next t ∧ exec (.rxChunk (a ++ b)) s = exec (.rxChunk b) t := by
  by_cases hconn : s.conn = .connected
  · refine ⟨_, exec_rxChunk_of_connected hconn a, ?_⟩
    rw [exec_rxChunk_of_connected hconn, exec_rxChunk_of_connected (by simp [hconn]), List.foldl_append,
      foldl_rxByte_countReceive, countReceive_append]
  · exact ⟨s, exec_rxChunk_of_not_connected hconn a,
      (exec_rxChunk_of_not_connected hconn _).trans (exec_rxChunk_of_not_connected hconn b).symm⟩

/-- Splitting a chunk in any number of parts has the effect of the whole (R312). -/
theorem execAll_map_rxChunk (c : Bytes) (chunks : List Bytes) (s : State) :
    execAll ((c :: chunks).map .rxChunk) s = exec (.rxChunk (c :: chunks).flatten) s := by
  induction chunks generalizing c s with
  | nil =>
    obtain ⟨t, ht, -⟩ := exec_rxChunk_append c [] s
    simp only [List.map_cons, List.map_nil, List.flatten_cons, List.flatten_nil, List.append_nil, ht,
      execAll_singleton_of_next ht]
  | cons d chunks ih =>
    obtain ⟨t, ht, happend⟩ := exec_rxChunk_append c (d :: chunks).flatten s
    rw [List.map_cons, execAll_cons_of_next _ ht, ih, List.flatten_cons (l := c), happend]

/-! ### RTU bytes -/

/-- The state with bytes held up to the capacity, and the overrun bit set when there are more (R302). -/
def heldToCapacity (bytes : Bytes) (s : State) : State :=
  { s with
    rxBuf := (s.rxBuf ++ bytes).take s.par.rxBufCap
    rxOverrun := s.rxOverrun || decide (s.par.rxBufCap < s.rxBuf.length + bytes.length) }

/-- One byte in RTU mode, within the capacity or beyond it (R302). -/
theorem rtuRxByte_eq_heldToCapacity {s : State} (hcap : s.rxBuf.length ≤ s.par.rxBufCap) (b : Byte) :
    rtuRxByte b s = heldToCapacity [b] s := by
  rw [rtuRxByte]
  split_ifs with hfull
  · apply State.ext_fields
    simp [heldToCapacity, ← hfull]
  · have hroom : s.rxBuf.length + 1 ≤ s.par.rxBufCap := by omega
    apply State.ext_fields
    simp [heldToCapacity, List.take_of_length_le, hroom, Nat.not_lt.2 hroom]

/-- Holding bytes in two parts is holding them at once. -/
theorem heldToCapacity_append (s : State) (a b : Bytes) :
    heldToCapacity (a ++ b) s = heldToCapacity b (heldToCapacity a s) := by
  have hbuf : ((s.rxBuf ++ a).take s.par.rxBufCap ++ b).take s.par.rxBufCap =
      (s.rxBuf ++ (a ++ b)).take s.par.rxBufCap := by
    rw [← List.append_assoc, List.take_append, List.take_append (l₁ := s.rxBuf ++ a), List.take_take, min_self,
      List.length_take]
    congr 2
    omega
  have hover : ∀ c n k m : Nat, (decide (c < n + k) || decide (c < min c (n + k) + m)) = decide (c < n + (k + m)) := by
    intro c n k m
    rw [← Bool.decide_or, decide_eq_decide]
    omega
  apply State.ext_fields
  simp only [heldToCapacity, hbuf, Bool.or_assoc, List.length_take, List.length_append, hover, and_self]

/-- In RTU mode bytes are held up to the capacity (R302, R360). -/
theorem foldl_rxByte_rtu {s : State} (hmode : s.mode = .rtu) (hcap : s.rxBuf.length ≤ s.par.rxBufCap) (bytes : Bytes) :
    bytes.foldl rxByte s = heldToCapacity bytes s := by
  induction bytes generalizing s with
  | nil =>
    apply State.ext_fields
    simp [heldToCapacity, hcap, List.take_of_length_le]
  | cons b bytes ih =>
    have hbyte : rxByte s b = heldToCapacity [b] s := by
      rw [rxByte, hmode]
      exact rtuRxByte_eq_heldToCapacity hcap b
    have hcap' : (heldToCapacity [b] s).rxBuf.length ≤ s.par.rxBufCap := List.length_take_le _ _
    rw [List.foldl_cons, hbyte, ih (s := heldToCapacity [b] s) hmode hcap', ← heldToCapacity_append, List.singleton_append]

/-! ### The RTU gap -/

/-- A gap outside RTU mode, or with nothing held, does nothing (R300). -/
theorem execRxGap_of_idle {s : State} (h : s.mode = .tcp ∨ (s.rxBuf = [] ∧ s.rxOverrun = false)) :
    execRxGap s = .next s := by
  rw [execRxGap]
  split_ifs with hoff hidle
  · rfl
  · rfl
  · have hrtu : s.mode = .rtu := not_not.1 fun hm => hoff (.inl hm)
    exact absurd h (not_or.2 ⟨by simp [hrtu], hidle⟩)

/-- A gap that closes no frame clears the buffer and the overrun bit; a buffer that holds nothing is clear already
(R300, R295). -/
theorem execRxGap_of_no_frame {s : State} (hmode : s.mode = .rtu) (hconn : s.conn = .connected)
    (h : ∀ f, gapResult s ≠ .frame f) : execRxGap s = .next (dropLink s) := by
  by_cases hidle : s.rxBuf = [] ∧ s.rxOverrun = false
  · have hclear : dropLink s = s := by
      apply State.ext_fields
      simp [hidle]
    rw [execRxGap_of_idle (.inr hidle), hclear]
  · rw [execRxGap, if_neg (by simp [hmode, hconn]), if_neg hidle]
    cases hg : gapResult s with
    | frame f => exact absurd hg (h f)
    | incomplete => rfl
    | corrupt k => rfl

/-- An overrun group is no frame, nor is a corrupt one (R292, R302). -/
theorem gapResult_ne_frame {s : State} (h : s.rxOverrun = true ∨ ∃ k, rtuTryUnwrap s.rxBuf = .corrupt k) (f : Frame) :
    gapResult s ≠ .frame f := by
  rw [gapResult]
  split_ifs with hover
  · exact Unwrapped.noConfusion
  · obtain ⟨k, hk⟩ := h.resolve_left hover
    simp [hk]

end Sys2Proof.Machine
end

section
/-! The obligations of spec/43_adu_framer.md: wrapping and unwrapping, the extraction loop, chunks, and RTU groups. -/

namespace Sys2Proof.Machine

/-- A framer row presents what unwrapping answers. -/
theorem presents_unwrapped {i : Instr} {x y : Unwrapped} (hi : unitResult i = some (.unwrapped x)) (h : x = y)
    (s : State) : Presents i s (.unwrapped y) :=
  presents_of_unitResult (h ▸ hi) s

/-- A framer row presents what wrapping answers. -/
theorem presents_frameBytes {i : Instr} {x y : Bytes} (hi : unitResult i = some (.frameBytes x)) (h : x = y)
    (s : State) : Presents i s (.frameBytes y) :=
  presents_of_unitResult (h ▸ hi) s

/-- Settles O26: a buffer is shorter than a header, or its first seven bytes are the header. -/
theorem tcpTryUnwrapReadsMbapFrame : Obligations.TcpTryUnwrapReadsMbapFrame :=
  ⟨fun s _ hlen => presents_unwrapped rfl (tcpTryUnwrap_of_short hlen) s,
    fun s t1 t0 p1 p0 l1 l0 u rest => presents_unwrapped rfl (tcpTryUnwrap_header t1 t0 p1 p0 l1 l0 u rest) s⟩

/-- Settles O27: a group is too short, or the last two of its bytes are compared with the CRC of the others. -/
theorem rtuTryUnwrapChecksGroup : Obligations.RtuTryUnwrapChecksGroup := by
  refine ⟨fun s g hlen => ?_, fun s u pdu lo hi hpdu => ?_⟩
  · exact presents_unwrapped rfl (rtuTryUnwrap_corrupt (.inl hlen)) s
  · simp only [← eq_trailer_iff]
    exact presents_unwrapped rfl (rtuTryUnwrap_trailer u lo hi hpdu) s

/-- Settles O28: the header that wrapping writes passes R285 and announces the PDU, and the trailer is the CRC. -/
theorem framerRoundTrip : Obligations.FramerRoundTrip := by
  refine ⟨fun tid u pdu rest hpos hmax => ?_, fun u pdu hmin => ?_⟩
  · simp only [Config.tcpMaxLen] at hmax
    exact tcpTryUnwrap_tcpWrap_append hpos (by omega)
  · simp only [Config.rtuMinGroup] at hmin
    exact rtuTryUnwrap_rtuWrap u (by omega)

/-- Settles O29: the loop's equation by what the buffer holds; a buffer that waits has at most 259 bytes. -/
theorem extractTcpRunsToIncomplete : Obligations.ExtractTcpRunsToIncomplete := by
  intro s
  have hwait := extractTcp_incomplete s
  have hlen := length_of_incomplete hwait
  refine ⟨?_, hwait, hlen, fun hcap b => ?_⟩
  · cases h : tcpTryUnwrap s.rxBuf with
    | incomplete => exact extractTcp_of_incomplete h
    | corrupt k => exact extractTcp_of_corrupt h
    | frame f => exact extractTcp_of_frame h
  · have hpar : (extractTcp s).par = s.par := by simp [extractTcp]
    simp only [bufAppend_fields, List.length_append, List.length_singleton, hpar]
    omega

/-- Settles O30: two chunks are one chunk, and so by induction is any number of them. -/
theorem chunkingDoesNotMatter : Obligations.ChunkingDoesNotMatter := by
  intro s chunks hne _
  obtain ⟨c, chunks, rfl⟩ := List.exists_cons_of_ne_nil hne
  exact execAll_map_rxChunk c chunks s

/-- Settles O31: extracting after each byte makes no difference while every header passes. -/
theorem perByteReceiveEqualsWholeChunk : Obligations.PerByteReceiveEqualsWholeChunk :=
  fun _ _ hmode hwait hpass => foldl_rxByte_tcp hmode hwait hpass

/-- Settles O33: each byte is held or sets the overrun bit, and the chunk is counted. -/
theorem rtuChunkAccumulates : Obligations.RtuChunkAccumulates := by
  intro s bytes hconn hmode hcap
  rw [exec_rxChunk_of_connected hconn, foldl_rxByte_rtu hmode hcap]
  rfl

/-- Settles O37: receiving the header leaves the state as it was, so the chunk is counted and nothing else happens. -/
theorem corruptTcpHeaderClearsBuffer : Obligations.CorruptTcpHeaderClearsBuffer := by
  intro s header hconn hmode hempty hlen hbad
  rw [exec_rxChunk_of_connected hconn, foldl_rxByte_corruptHeader hmode hempty hlen hbad, countReceive, hlen]
  rfl

/-- Settles O24: wrapping, by the bytes it writes. -/
theorem tcpWrapBuildsMbapFrame : Obligations.TcpWrapBuildsMbapFrame :=
  fun s tid u _ hlen => presents_frameBytes rfl (tcpWrap_eq tid u hlen) s

/-- Settles O25: wrapping, by the bytes it writes. -/
theorem rtuWrapAppendsCrcLowByteFirst : Obligations.RtuWrapAppendsCrcLowByteFirst :=
  fun s u pdu => presents_frameBytes rfl (rtuWrap_eq u pdu) s

/-- Settles O34: a gap does nothing, or it closes a group that is no frame. -/
theorem rtuGapDropsEmptyAndCorruptGroups : Obligations.RtuGapDropsEmptyAndCorruptGroups :=
  fun _ => ⟨execRxGap_of_idle, fun hmode hconn hdrop => execRxGap_of_no_frame hmode hconn (gapResult_ne_frame hdrop)⟩

end Sys2Proof.Machine
end

section
/-! SUPPORT. A request by the step of R358 at which it ends: its equation for each refusal, and for the one way through
(spec/44_transaction_engine.md R352 to R357). -/

namespace Sys2Proof.Machine

variable {s : State} {tag : Tag} {op : Op} {t k u : Nat} {r : RequestPdu}

/-! ### Refusals -/

theorem requestCfg_of_not_usable {c : Cfg} (h : ¬∃ t k u, c.Usable t k u) : requestCfg c = none :=
  Option.eq_none_iff_forall_not_mem.2 fun _ hr => h ⟨_, _, _, usable_of_requestCfg hr⟩

/-- Step 1 ends a request whose registers are unset or out of range (R352). -/
theorem exec_request_of_not_usable (h : ¬∃ t k u, s.cfg.Usable t k u) :
    exec (.request tag op) s = .next (refuseRequest tag .invalidArgument s) := by
  rw [exec, execRequest, requestCfg_of_not_usable h]

/-- Step 2a ends a request whose arguments the encoder refuses (R353). -/
theorem exec_request_of_invalidArgument {info : Option Nat} (hcfg : s.cfg.Usable t k u)
    (hop : encodeOp op = .invalidArgument info) :
    exec (.request tag op) s = .next (refuseRequest tag .invalidArgument s) := by
  rw [exec, execRequest, requestCfg_eq_some hcfg, hop]

/-- Step 2b ends a request while not connected (R354). -/
theorem exec_request_of_not_connected (hcfg : s.cfg.Usable t k u) (hop : encodeOp op = .ok r)
    (hconn : s.conn ≠ .connected) : exec (.request tag op) s = .next (refuseRequest tag .invalidState s) := by
  rw [exec, execRequest, requestCfg_eq_some hcfg, hop]
  exact if_pos hconn

/-- Step 2c ends a request that gets no id (R355, R356). -/
theorem exec_request_of_busy (hcfg : s.cfg.Usable t k u) (hop : encodeOp op = .ok r) (hconn : s.conn = .connected)
    (hbusy : allocate s = none) : exec (.request tag op) s = .next (refuseRequest tag .busy s) := by
  rw [exec, execRequest, requestCfg_eq_some hcfg, hop, hbusy]
  exact if_neg (not_not.2 hconn)

/-! ### Acceptance -/

/-- A request that gets an id is transmitted and registered (R357). -/
theorem exec_request_of_allocate {id : U16} {s1 : State} (hcfg : s.cfg.Usable t k u) (hop : encodeOp op = .ok r)
    (hconn : s.conn = .connected) (hid : allocate s = some (id, s1)) :
    exec (.request tag op) s =
      .next (transmitAndRegister tag { timeoutS := t, retries := k, unitId := u } id r s1) := by
  rw [exec, execRequest, requestCfg_eq_some hcfg, hop, hid]
  exact if_neg (not_not.2 hconn)

/-! ### Ids -/

/-- Allocation changes the id counter at most (R355, R356). -/
theorem exists_eq_of_allocate {id : U16} {s1 : State} (h : allocate s = some (id, s1)) :
    ∃ tid, s1 = { s with lastTid := tid } := by
  rcases allocate_eq_some h with ⟨-, -, -, -, rfl⟩ | ⟨-, -, -, rfl⟩
  · exact ⟨id, rfl⟩
  · exact ⟨s1.lastTid, rfl⟩

theorem allocate_of_tcp (hmode : s.mode = .tcp) : allocate s = allocateTcp s := by
  rw [allocate, hmode]

theorem allocate_of_rtu (hmode : s.mode = .rtu) : allocate s = allocateRtu s := by
  rw [allocate, hmode]

/-- A TCP request gets no id when the candidate is pending or the table is full (R355). -/
theorem allocate_tcp_of_busy (hmode : s.mode = .tcp)
    (hbusy : (∃ p ∈ s.pending, p.id = candidateTid s) ∨ s.pending.length = s.par.maxPending) : allocate s = none := by
  rw [allocate_of_tcp hmode, allocateTcp]
  split_ifs with hpending hfull
  · rfl
  · rfl
  · refine absurd hbusy (not_or.2 ⟨?_, hfull⟩)
    rintro ⟨p, hp, hid⟩
    exact hpending (List.any_eq_true.2 ⟨p, hp, decide_eq_true hid⟩)

/-- Otherwise it gets the candidate (R355). -/
theorem allocate_tcp_of_free (hmode : s.mode = .tcp) (hfree : ∀ p ∈ s.pending, p.id ≠ candidateTid s)
    (hroom : s.pending.length ≠ s.par.maxPending) :
    allocate s = some (candidateTid s, { s with lastTid := candidateTid s }) := by
  rw [allocate_of_tcp hmode, allocateTcp, if_neg (by simpa using hfree), if_neg hroom]

/-- An RTU request gets no id when the slot is occupied (R356). -/
theorem allocate_rtu_of_busy (hmode : s.mode = .rtu) (hbusy : s.pending ≠ []) : allocate s = none := by
  rw [allocate_of_rtu hmode, allocateRtu, if_pos hbusy]

/-- Otherwise it gets the id 0 (R356). -/
theorem allocate_rtu_of_free (hmode : s.mode = .rtu) (hfree : s.pending = []) : allocate s = some (0, s) := by
  rw [allocate_of_rtu hmode, allocateRtu, if_neg (not_not.2 hfree)]

end Sys2Proof.Machine
end

section
/-! The obligations of spec/44_transaction_engine.md on configuration, connection and requests: R342 to R357. -/

namespace Sys2Proof.Machine

/-- Settles O39: the write is of the register its setting names. -/
theorem cfgWriteStoresOneRegister : Obligations.CfgWriteStoresOneRegister :=
  fun _ => ⟨fun _ => rfl, fun _ => rfl, fun _ => rfl, fun _ => rfl, fun _ => rfl, fun _ => rfl⟩

/-- Settles O40: the two cases of `Connect`. -/
theorem connectOpensTransportOrIsRefused : Obligations.ConnectOpensTransportOrIsRefused := by
  intro s tag
  rcases execConnect_cases tag s with ⟨hconn, hx⟩ | ⟨hconn, hx⟩
  · exact ⟨fun h => absurd h hconn, fun _ => hx⟩
  · exact ⟨fun _ => hx, fun h => absurd hconn h⟩

/-- Settles O41: the two cases of `TransportOpened`. -/
theorem transportOpenedCompletesConnect : Obligations.TransportOpenedCompletesConnect := by
  intro s
  rcases execTransportOpened_cases s with ⟨hconn, hx⟩ | ⟨hconn, hx⟩
  · refine ⟨fun tag _ htag => ?_, fun h => absurd hconn h⟩
    rw [htag] at hx
    exact hx
  · exact ⟨fun _ h => absurd h hconn, fun _ => hx⟩

/-- Settles O42: the cases of `TransportFailed`; no clause speaks of `Closing`, its last. -/
theorem transportFailedDropsTheLink : Obligations.TransportFailedDropsTheLink := by
  intro s
  rcases execTransportFailed_cases s with ⟨hconn, hx⟩ | ⟨hconn, hx⟩ | ⟨hconn, hx⟩
  · refine ⟨fun tag _ htag => ?_, fun h => by simp [h] at hconn, fun h => by simp [h] at hconn⟩
    rw [htag] at hx
    exact hx
  · exact ⟨fun _ h => by simp [h] at hconn, fun _ => hx, fun h => by simp [h] at hconn⟩
  · exact ⟨fun _ h => by simp [h] at hconn, fun h => by simp [h] at hconn, fun _ => hx⟩

/-- Settles O43: the effect of `Disconnect`, where the connection state says whether a tag waits. -/
theorem disconnectAbortsEverything : Obligations.DisconnectAbortsEverything := by
  intro s tag hwaits
  have hx := execDisconnect_eq tag s
  by_cases hconn : s.conn = .connecting
  · rw [if_pos hconn, if_pos hconn] at hx
    exact hx
  · have htag : s.connectTag = none := by simpa using mt hwaits.2 hconn
    rw [if_neg hconn, if_neg hconn] at hx
    rw [htag] at hx ⊢
    exact hx

/-- Settles O44: the step at which the request ends. -/
theorem requestRefusalsInRuleOrder : Obligations.RequestRefusalsInRuleOrder :=
  fun _ _ _ => ⟨exec_request_of_not_usable, fun _ _ _ _ => exec_request_of_invalidArgument,
    fun _ _ _ _ => exec_request_of_not_connected⟩

/-- Settles O45: in neither mode is an id allocated. -/
theorem busyRequestsHaveNoOtherEffect : Obligations.BusyRequestsHaveNoOtherEffect := by
  intro s tag op t k u r hcfg hop hconn hbusy
  rcases hbusy with ⟨hmode, hbusy⟩ | ⟨hmode, hbusy⟩
  · exact exec_request_of_busy hcfg hop hconn (allocate_tcp_of_busy hmode hbusy)
  · exact exec_request_of_busy hcfg hop hconn (allocate_rtu_of_busy hmode hbusy)

/-- Settles O46: the candidate id is allocated, and the entry wraps its frame for TCP. -/
theorem tcpRequestTransmitsAndRegisters : Obligations.TcpRequestTransmitsAndRegisters := by
  rintro s tag op t k u r _ hcfg hop hconn hmode rfl hfree hroom
  rw [exec_request_of_allocate hcfg hop hconn (allocate_tcp_of_free hmode hfree hroom)]
  congr 1
  apply State.ext_fields
  simp [transmitAndRegister, newPending, wrapRequest, hmode, candidateTid]

/-- Settles O47: the slot is free, and the entry wraps its frame for RTU. -/
theorem rtuRequestTransmitsAndRegisters : Obligations.RtuRequestTransmitsAndRegisters := by
  intro s tag op t k u r hcfg hop hconn hmode hfree
  rw [exec_request_of_allocate hcfg hop hconn (allocate_rtu_of_free hmode hfree)]
  congr 1
  apply State.ext_fields
  simp [transmitAndRegister, newPending, wrapRequest, hmode, hfree]

end Sys2Proof.Machine
end

section
/-! SUPPORT. A frame that answers an entry, and one that answers none, as an event delivers it
(spec/44_transaction_engine.md R360 to R366; spec/43_adu_framer.md R300). -/

namespace Sys2Proof.Machine

/-! ### What a decoded PDU resolves an entry with -/

/-- A PDU that answers a function code resolves its entry (R364). -/
theorem resolution_of_answers {d : Decoded} {functionCode : Byte} {o : CallOutcome} (h : Answers d functionCode o) :
    resolution functionCode d = some o := by
  rcases h with ⟨data, rfl, rfl⟩ | ⟨efc, ec, rfl, rfl⟩ <;> exact if_pos rfl

/-- A PDU that answers no request with the function code resolves nothing (R364). -/
theorem resolution_of_answersNot {d : Decoded} {functionCode : Byte} (h : AnswersNot d functionCode) :
    resolution functionCode d = none := by
  rcases h with rfl | ⟨fc, data, rfl, hne⟩ | ⟨rfc, efc, ec, rfl, hne⟩
  · rfl
  · exact if_neg hne
  · exact if_neg hne

/-! ### One frame -/

/-- A frame that answers the entry it matches resolves it (R362 to R364). -/
theorem engineFrame_of_answers {f : Frame} {s : State} {p : Pending} {o : CallOutcome}
    (hfind : s.pending.find? (matchesFrame s.mode f) = some p) (h : Answers (decodePdu f.pdu) p.functionCode o) :
    engineFrame f s = { s with
      pending := s.pending.eraseP (matchesFrame s.mode f)
      out := s.out ++ [.requestResult p.tag o]
      ctr := { s.ctr with framesReceived := s.ctr.framesReceived + 1 } } := by
  rcases engineFrame_cases f s with ⟨-, hnone⟩ | ⟨q, r, hq, hr, hframe⟩
  · exact absurd (hnone p hfind) (by simp [resolution_of_answers h])
  · obtain rfl := Option.some.inj (hq.symm.trans hfind)
    obtain rfl := Option.some.inj (hr.symm.trans (resolution_of_answers h))
    exact hframe

/-- A frame that answers no entry it matches is counted and nothing else (R364, R366). -/
theorem engineFrame_of_answersNot {f : Frame} {s : State}
    (h : ∀ p ∈ s.pending, matchesFrame s.mode f p = true → AnswersNot (decodePdu f.pdu) p.functionCode) :
    engineFrame f s = countFrame s := by
  rcases engineFrame_cases f s with ⟨hframe, -⟩ | ⟨p, o, hfind, hr, -⟩
  · exact hframe
  · have hnone := resolution_of_answersNot (h p (List.mem_of_find?_eq_some hfind) (List.find?_some hfind))
    simp [hnone] at hr

/-- With distinct ids, searching and removing by the id and unit id of an entry is searching and removing that entry
(R42, R362). -/
theorem find?_eraseP_of_nodup_ids {l : List Pending} {p : Pending} {test : Pending → Bool}
    (hids : (l.map Pending.id).Nodup) (hp : p ∈ l) (htest : ∀ q, test q = true ↔ q.id = p.id ∧ q.unitId = p.unitId) :
    l.find? test = some p ∧ l.eraseP test = l.filter fun q => decide (q.id ≠ p.id) := by
  induction l with
  | nil => cases hp
  | cons q l ih =>
    obtain ⟨hfresh, hids⟩ := List.nodup_cons.1 hids
    rcases List.mem_cons.1 hp with rfl | hp
    · have hself : test p = true := (htest p).2 ⟨rfl, rfl⟩
      have hrest : ∀ q ∈ l, q.id ≠ p.id := fun q hq he => hfresh (List.mem_map.2 ⟨q, hq, he⟩)
      rw [List.find?_cons_of_pos hself, List.eraseP_cons_of_pos hself, List.filter_cons_of_neg (by simp),
        List.filter_eq_self.2 fun q hq => decide_eq_true (hrest q hq)]
      exact ⟨rfl, rfl⟩
    · have hne : q.id ≠ p.id := fun he => hfresh (he ▸ List.mem_map_of_mem hp)
      have hother : ¬test q = true := fun hq => hne ((htest q).1 hq).1
      obtain ⟨hfind, herase⟩ := ih hids hp
      rw [List.find?_cons_of_neg hother, List.eraseP_cons_of_neg hother, List.filter_cons_of_pos (by simpa using hne),
        hfind, herase]
      exact ⟨rfl, rfl⟩

/-! ### A wrapped PDU delivered to an empty buffer -/

/-- A stream passes when it begins with a frame and what follows passes (R285). -/
theorem headersPass_of_frame {stream : Bytes} {f : Frame} (hf : tcpTryUnwrap stream = .frame f)
    (h : HeadersPass (stream.drop f.consumed)) : HeadersPass stream := by
  have hc := tcpTryUnwrap_consumed hf
  rw [HeadersPass] at h
  rw [HeadersPass, streamClean, hf, ← h]
  apply streamClean_fuel <;> rw [List.length_drop] <;> omega

/-- In TCP mode bytes that are one whole frame hand it to the engine and leave the buffer empty (R305, R310). -/
theorem foldl_rxByte_tcp_frame {s : State} {bytes : Bytes} {f : Frame} (hmode : s.mode = .tcp) (hempty : s.rxBuf = [])
    (hf : tcpTryUnwrap bytes = .frame f) (hwhole : bytes.length = f.consumed) :
    bytes.foldl rxByte s = engineFrame f s := by
  have hnil : tcpTryUnwrap [] = .incomplete := tcpTryUnwrap_of_short (by simp)
  have hdrop : bytes.drop f.consumed = [] := List.drop_of_length_le hwhole.le
  have hpass : HeadersPass bytes := headersPass_of_frame hf (hdrop ▸ headersPass_of_incomplete hnil)
  have htaken : bufDrop f.consumed { s with rxBuf := bytes } = s := by
    apply State.ext_fields
    simp [hdrop, hempty]
  calc bytes.foldl rxByte s = receiveWholeChunk bytes s :=
        foldl_rxByte_tcp hmode (hempty ▸ hnil) (by rwa [hempty, List.nil_append])
    _ = extractTcp { s with rxBuf := bytes } := by rw [receiveWholeChunk, hempty, List.nil_append]
    _ = extractTcp (engineFrame f s) := by rw [extractTcp_of_frame (s := { s with rxBuf := bytes }) hf, htaken]
    _ = engineFrame f s := extractTcp_of_incomplete (by simp [hempty, hnil])

/-- In TCP mode a chunk that wraps a PDU hands the frame to the engine (R314, R360). -/
theorem exec_rxChunk_tcpWrap {s : State} (tid : U16) (u : Byte) {pdu : Bytes} (hconn : s.conn = .connected)
    (hmode : s.mode = .tcp) (hempty : s.rxBuf = []) (h1 : 1 ≤ pdu.length) (h253 : pdu.length ≤ 253) :
    exec (.rxChunk (tcpWrap tid u pdu)) s = .next (countReceive (tcpWrap tid u pdu) (engineFrame
      { unitId := u, transactionId := some tid, pdu := pdu, consumed := 7 + pdu.length } s)) := by
  have hf := tcpTryUnwrap_tcpWrap_append (tid := tid) (u := u) (rest := []) h1 h253
  rw [List.append_nil] at hf
  rw [exec_rxChunk_of_connected hconn, foldl_rxByte_tcp_frame hmode hempty hf (tcpWrap_length ..)]

/-- A gap that closes a frame hands it to the engine, the buffer being clear again (R300). -/
theorem execRxGap_of_frame {s : State} {f : Frame} (hmode : s.mode = .rtu) (hconn : s.conn = .connected)
    (hover : s.rxOverrun = false) (hf : rtuTryUnwrap s.rxBuf = .frame f) :
    execRxGap s = .next (engineFrame f (dropLink s)) := by
  obtain ⟨hlen, -⟩ := rtuTryUnwrap_eq_frame hf
  have hheld : ¬(s.rxBuf = [] ∧ s.rxOverrun = false) := fun h => by simp [h.1] at hlen
  rw [execRxGap, if_neg (by simp [hmode, hconn]), if_neg hheld, gapResult, hover, if_neg Bool.false_ne_true, hf]

/-- In RTU mode a chunk that wraps a PDU, closed by its gap, hands the frame to the engine (R300, R302, R360). -/
theorem execAll_rxChunk_rtuWrap_rxGap {s : State} (u : Byte) {pdu : Bytes} (hconn : s.conn = .connected)
    (hmode : s.mode = .rtu) (hempty : s.rxBuf = []) (hover : s.rxOverrun = false) (h1 : 1 ≤ pdu.length)
    (hcap : 3 + pdu.length ≤ s.par.rxBufCap) :
    execAll [.rxChunk (rtuWrap u pdu), .rxGap] s = .next (countReceive (rtuWrap u pdu) (engineFrame
      { unitId := u, transactionId := none, pdu := pdu, consumed := 3 + pdu.length } s)) := by
  have hheld : (rtuWrap u pdu).foldl rxByte s = { s with rxBuf := rtuWrap u pdu } := by
    rw [foldl_rxByte_rtu hmode (by simp [hempty])]
    apply State.ext_fields
    simp [heldToCapacity, hempty, hover, List.take_of_length_le, hcap]
  have hclear : dropLink (countReceive (rtuWrap u pdu) { s with rxBuf := rtuWrap u pdu }) =
      countReceive (rtuWrap u pdu) s := by
    apply State.ext_fields
    simp [hempty, hover]
  rw [execAll_cons_of_next _ (exec_rxChunk_of_connected hconn _), hheld, ← engineFrame_countReceive, ← hclear]
  exact execAll_singleton_of_next (execRxGap_of_frame hmode hconn hover (rtuTryUnwrap_rtuWrap u h1))

/-! ### Not connected -/

theorem exec_rxGap_of_not_connected {s : State} (h : s.conn ≠ .connected) : exec .rxGap s = .next s :=
  if_pos (.inr h)

/-- Bytes and the gap after them change nothing while not connected (R360, R300). -/
theorem execAll_receive_of_not_connected {s : State} (h : s.conn ≠ .connected) (bytes : Bytes) :
    execAll [.rxChunk bytes, .rxGap] s = .next s := by
  rw [execAll_cons_of_next _ (exec_rxChunk_of_not_connected h bytes)]
  exact execAll_singleton_of_next (exec_rxGap_of_not_connected h)

end Sys2Proof.Machine
end

section
/-! The obligations of spec/44_transaction_engine.md on reception: R360, R362 to R366. -/

namespace Sys2Proof.Machine

/-- Settles O35: the frame that the chunk completes matches the entry alone, the ids being distinct. -/
theorem matchedTcpReplyResolvesItsRequest : Obligations.MatchedTcpReplyResolvesItsRequest := by
  intro s p pdu o hconn hmode hempty hids hp h1 h253 hanswers
  have hmatches : ∀ q, matchesFrame s.mode
      { unitId := p.unitId, transactionId := some p.id, pdu := pdu, consumed := 7 + pdu.length } q = true ↔
        q.id = p.id ∧ q.unitId = p.unitId := by
    intro q
    simp [hmode, matchesFrame]
  obtain ⟨hfind, herase⟩ := find?_eraseP_of_nodup_ids hids hp hmatches
  rw [exec_rxChunk_tcpWrap p.id p.unitId hconn hmode hempty h1 h253, engineFrame_of_answers hfind hanswers, herase,
    countReceive, tcpWrap_length]

/-- Settles O36: the frame that the chunk completes answers no entry it matches. -/
theorem unmatchedTcpFrameIsDiscarded : Obligations.UnmatchedTcpFrameIsDiscarded := by
  intro s tid u pdu hconn hmode hempty h1 h253 hnot
  rw [exec_rxChunk_tcpWrap tid u hconn hmode hempty h1 h253, engineFrame_of_answersNot ?_, countReceive, tcpWrap_length]
  · rfl
  · intro p hp hmatch
    simp only [hmode, matchesFrame, Bool.and_eq_true, decide_eq_true_eq, Option.some.injEq] at hmatch
    exact hnot p hp hmatch.1 hmatch.2

/-- Settles O38: the gap closes the frame, which answers the one entry there is, or none. -/
theorem rtuReplyResolvesTheSlot : Obligations.RtuReplyResolvesTheSlot := by
  intro s u pdu hconn hmode hempty hover h1 hcap
  rw [execAll_rxChunk_rtuWrap_rxGap u hconn hmode hempty hover h1 hcap]
  refine ⟨fun p o hslot hu hanswers => ?_, fun hnot => ?_⟩
  · have hmatch : matchesFrame s.mode
        { unitId := u, transactionId := none, pdu := pdu, consumed := 3 + pdu.length } p = true := by
      simp [hmode, matchesFrame, hu]
    have hfind := List.find?_cons_of_pos (l := []) hmatch
    rw [← hslot] at hfind
    rw [engineFrame_of_answers hfind hanswers, hslot, List.eraseP_cons_of_pos hmatch, countReceive, rtuWrap_length]
  · rw [engineFrame_of_answersNot ?_, countReceive, rtuWrap_length]
    · rfl
    · intro p hp hmatch
      simp only [hmode, matchesFrame, decide_eq_true_eq] at hmatch
      exact hnot p hp hmatch.symm

/-- Settles O32: neither event does anything while not connected, which is how a `Disconnect` ends. -/
theorem receiveIgnoredUnlessConnected : Obligations.ReceiveIgnoredUnlessConnected := by
  intro s bytes
  exact ⟨fun h => ⟨exec_rxChunk_of_not_connected h bytes, exec_rxGap_of_not_connected h⟩,
    fun tag => ⟨_, execDisconnect_eq tag s, rfl, execAll_receive_of_not_connected (by simp) bytes⟩⟩

end Sys2Proof.Machine
end

section
/-! A `Tick`, field by field (spec/44_transaction_engine.md R380 to R383). -/

namespace Sys2Proof.Machine

/-- What becomes of an examined entry, by its own fields (R380 to R382). -/
theorem afterExamine_eq (n : Nat) (p : Pending) :
    afterExamine n p =
      if p.deadline ≤ n then
        if 0 < p.retriesRemaining.toNat then
          some { p with retriesRemaining := p.retriesRemaining - 1, deadline := n + p.timeout }
        else none
      else some p := by
  simp only [afterExamine, isDue, hasRetry, decide_eq_true_eq, retried]

/-- What an entry whose deadline has come gives rise to, by its own fields (R381, R382). -/
theorem dueAction_eq (p : Pending) :
    dueAction p =
      if 0 < p.retriesRemaining.toNat then .transportWrite p.originalFrame else .requestResult p.tag .timeout := by
  simp only [dueAction, hasRetry, decide_eq_true_eq]

/-- Settles O48: the deadline step by its fields, then the watchdog by its condition. -/
theorem tickExaminesEachEntryOnceThenWatchdog : Obligations.TickExaminesEachEntryOnceThenWatchdog := by
  intro s t n due again s1
  have hdeadlines : runDeadlines { s with now := n } = s1 := by
    rw [runDeadlines_eq, examineAll_ctr]
    simp only [funext (afterExamine_eq n), funext dueAction_eq]
    rfl
  have htick : exec (.tick t) s = .next (watchdog s1) := by
    rw [← hdeadlines]
    rfl
  rw [htick]
  rcases watchdog_cases s1 with ⟨hdue, hx⟩ | ⟨hdue, hx⟩
  · rw [hx, if_neg fun h => Bool.false_ne_true (hdue.symm.trans ((watchdogDue_iff s1).2 h))]
  · rw [hx, if_pos ((watchdogDue_iff s1).1 hdue)]

end Sys2Proof.Machine
end

section
/-! SUPPORT. A request that is never answered, from one deadline to the next (spec/44_transaction_engine.md R381, R382,
R385). -/

namespace Sys2Proof.Machine

/-- A machine with one entry, no watchdog, and a deadline not yet passed: what stands between two `Tick`s that come each
at the deadline. -/
structure State.WaitsFor (s : State) (p : Pending) : Prop where
  pending : s.pending = [p]
  watchdogOff : s.cfg.inactS = 0
  now : s.now ≤ p.deadline

theorem watchdog_of_off {s : State} (h : s.cfg.inactS = 0) : watchdog s = s := by
  rcases watchdog_cases s with ⟨-, hx⟩ | ⟨hdue, -⟩
  · exact hx
  · obtain ⟨-, hon, -⟩ := (watchdogDue_iff s).1 hdue
    omega

variable {s : State} {p : Pending}

/-- A `Tick` at the deadline of the only entry examines that entry and does nothing else. -/
theorem State.WaitsFor.exec_tick (h : s.WaitsFor p) :
    exec (.tick p.deadline) s = .next { (examine p { s with now := p.deadline }).1 with
      pending := (examine p { s with now := p.deadline }).2.toList } := by
  have hquiet : (runDeadlines { s with now := p.deadline }).cfg.inactS = 0 := by simpa using h.watchdogOff
  calc exec (.tick p.deadline) s = .next (watchdog (runDeadlines { s with now := max s.now p.deadline })) := rfl
    _ = .next (runDeadlines { s with now := p.deadline }) := by rw [max_eq_right h.now, watchdog_of_off hquiet]
    _ = _ := by simp only [runDeadlines, h.pending, examineAll, List.append_nil]

/-- A `Tick` at the deadline of an entry with retries left writes its frame again (R381). -/
theorem State.WaitsFor.exec_tick_retry (h : s.WaitsFor p) (hleft : 0 < p.retriesRemaining.toNat) :
    exec (.tick p.deadline) s = .next { retransmit p { s with now := p.deadline } with
      pending := [retried p.deadline p] } := by
  rw [h.exec_tick, examine, if_pos (le_refl p.deadline), if_pos hleft]
  rfl

/-- A `Tick` at the deadline of an entry with no retry left answers it with `Timeout` (R382). -/
theorem State.WaitsFor.exec_tick_expire (h : s.WaitsFor p) (hnone : p.retriesRemaining.toNat = 0) :
    exec (.tick p.deadline) s = .next { emit (.requestResult p.tag .timeout) { s with now := p.deadline } with
      pending := [] } := by
  rw [h.exec_tick, examine, if_pos (le_refl p.deadline), if_neg (by omega)]
  rfl

/-- The events of an unanswered entry with `k` retries left: a `Tick` at each of its deadlines. -/
def ticksAtDeadlines (p : Pending) (k : Nat) : List Instr :=
  (List.range (k + 1)).map fun j => .tick (p.deadline + j * p.timeout)

theorem ticksAtDeadlines_zero (p : Pending) : ticksAtDeadlines p 0 = [.tick p.deadline] := by
  simp [ticksAtDeadlines]

/-- After the first deadline the others are those of the entry sent again (R381). -/
theorem ticksAtDeadlines_succ (p : Pending) (k : Nat) :
    ticksAtDeadlines p (k + 1) = .tick p.deadline :: ticksAtDeadlines (retried p.deadline p) k := by
  rw [ticksAtDeadlines, List.range_succ_eq_map, List.map_cons, List.map_map, Nat.zero_mul, Nat.add_zero]
  congr 2
  funext j
  simp only [Function.comp_apply, retried, Nat.succ_mul]
  congr 1
  omega

/-- A counter that has counted one and then `k` has counted `k + 1` (R48). -/
theorem add_one_add_ofNat (c : Counter) (k : Nat) : c + 1 + BitVec.ofNat 64 k = c + BitVec.ofNat 64 (k + 1) := by
  rw [BitVec.add_assoc, Nat.add_comm k 1, BitVec.ofNat_add]
  rfl

/-- An entry with `k` retries left is written `k` times more, then answered with `Timeout` (R385). -/
theorem State.WaitsFor.timesOut {k : Nat} (h : s.WaitsFor p) (hk : p.retriesRemaining.toNat = k) :
    ∃ t, execAll (ticksAtDeadlines p k) s = .next t ∧ t.pending = [] ∧
      t.out = s.out ++ List.replicate k (.transportWrite p.originalFrame) ++ [.requestResult p.tag .timeout] ∧
      t.ctr.retries = s.ctr.retries + BitVec.ofNat 64 k ∧ t.ctr.framesSent = s.ctr.framesSent + BitVec.ofNat 64 k ∧
      t.now = p.deadline + k * p.timeout := by
  induction k generalizing s p with
  | zero =>
    rw [ticksAtDeadlines_zero]
    exact ⟨_, execAll_singleton_of_next (h.exec_tick_expire hk), by simp⟩
  | succ k ih =>
    have hwaits : State.WaitsFor { retransmit p { s with now := p.deadline } with pending := [retried p.deadline p] }
        (retried p.deadline p) := ⟨rfl, h.watchdogOff, Nat.le_add_right _ _⟩
    have hleft : (retried p.deadline p).retriesRemaining.toNat = k := by
      show (p.retriesRemaining - 1).toNat = k
      bv_omega
    obtain ⟨t, hrun, hpending, hout, hretries, hframes, hnow⟩ := ih hwaits hleft
    refine ⟨t, ?_, hpending, ?_, ?_, ?_, ?_⟩
    · rw [ticksAtDeadlines_succ, execAll_cons_of_next _ (h.exec_tick_retry (by omega)), hrun]
    · rw [hout, List.replicate_succ]
      simp [retried]
    · rw [hretries, ← add_one_add_ofNat]
      rfl
    · rw [hframes, ← add_one_add_ofNat]
      rfl
    · rw [hnow, Nat.succ_mul]
      simp only [retried]
      omega

end Sys2Proof.Machine
end

section
/-! A request that is never answered (spec/44_transaction_engine.md R385). -/

namespace Sys2Proof.Machine

/-- With no entry before it and no watchdog, a request leaves its own entry to wait for (R357). -/
theorem waitsFor_transmitAndRegister {s : State} (tag : Tag) (c : RequestCfg) (id : U16) (r : RequestPdu)
    (hempty : s.pending = []) (hoff : s.cfg.inactS = 0) :
    (transmitAndRegister tag c id r s).WaitsFor (newPending tag c id r s) where
  pending := by simp [transmitAndRegister, hempty]
  watchdogOff := hoff
  now := Nat.le_add_right _ _

/-- The deadlines of a new entry, counted from its issue (R357, R385). -/
theorem ticksAtDeadlines_newPending (tag : Tag) (c : RequestCfg) (id : U16) (r : RequestPdu) (s : State) (k : Nat) :
    ticksAtDeadlines (newPending tag c id r s) k =
      (List.range (k + 1)).map fun j => .tick (s.now + (j + 1) * (c.timeoutS * s.par.tickHz)) := by
  simp only [ticksAtDeadlines, newPending, Nat.succ_mul, Nat.add_assoc, Nat.add_comm]

/-- Settles O49: the request leaves one entry, which has `k` retries and is written once already. -/
theorem retriesExhaustIntoTimeout : Obligations.RetriesExhaustIntoTimeout := by
  intro s s1 tag op t k u hcfg _ hempty hoff _ he hne
  rcases execRequest_cases tag op s with ⟨o, -, hx⟩ | ⟨c, r, id, s0, hc, -, -, ha, hx⟩ <;>
    obtain rfl := Host.Outcome.next.inj (hx.symm.trans he)
  · exact absurd hempty hne
  · obtain rfl := Option.some.inj (hc.symm.trans (requestCfg_eq_some hcfg))
    obtain ⟨tid, rfl⟩ := exists_eq_of_allocate ha
    obtain ⟨-, -, -, -, hk, -⟩ := hcfg
    have hretries : (BitVec.ofNat 32 k).toNat = k := Nat.mod_eq_of_lt (by omega)
    obtain ⟨s2, hrun, hpending, hout, hagain, hframes, hnow⟩ :=
      (waitsFor_transmitAndRegister (s := { s with lastTid := tid }) tag ⟨t, k, u⟩ id r hempty hoff).timesOut hretries
    rw [ticksAtDeadlines_newPending] at hrun
    refine ⟨wrapRequest s.mode id (BitVec.ofNat 8 u) r.bytes, s2, hrun, hpending, ?_, hagain, ?_, ?_⟩
    · rw [hout, List.replicate_succ]
      simp [transmitAndRegister, newPending]
    · rw [hframes, ← add_one_add_ofNat]
      rfl
    · rw [hnow]
      simp only [newPending, Nat.succ_mul]
      omega

end Sys2Proof.Machine
end

section
/-! SUPPORT. Results and pending entries of one tag (spec/44_transaction_engine.md R341, R364, R381, R382, R392): every
operation turns an entry into a result or leaves it, so their number together changes only when a request is made. -/

namespace Sys2Proof.Machine

open List (countP_append)

/-- The entry is the request with this tag. -/
def hasTag (tag : Tag) (p : Pending) : Bool := decide (p.tag = tag)

/-- The results emitted for a tag and its entries that are still to be answered. -/
def resultsAndEntries (tag : Tag) (s : State) : Nat :=
  s.out.countP (isResultOf tag) + s.pending.countP (hasTag tag)

variable (tag : Tag)

/-! ### Actions and entries -/

@[simp] theorem isResultOf_transportWrite (frame : Bytes) : isResultOf tag (.transportWrite frame) = false := rfl

@[simp] theorem isResultOf_transportOpen (e : Endpoint) (m : Mode) : isResultOf tag (.transportOpen e m) = false := rfl

@[simp] theorem isResultOf_transportClose : isResultOf tag .transportClose = false := rfl

@[simp] theorem isResultOf_connectResult (u : Tag) (o : CallOutcome) :
    isResultOf tag (.connectResult u o) = false := rfl

@[simp] theorem isResultOf_disconnectResult (u : Tag) (o : CallOutcome) :
    isResultOf tag (.disconnectResult u o) = false := rfl

@[simp] theorem isResultOf_linkDown (o : CallOutcome) : isResultOf tag (.linkDown o) = false := rfl

/-- The result that an entry gets counts for a tag as the entry does. -/
theorem countP_isResultOf_entry (p : Pending) (o : CallOutcome) :
    [Action.requestResult p.tag o].countP (isResultOf tag) = [p].countP (hasTag tag) := rfl

/-- A `Request` with the tag is the one that gets a result, or an entry, with the tag. -/
theorem countP_isResultOf_request (u : Tag) (op : Op) (o : CallOutcome) :
    [Action.requestResult u o].countP (isResultOf tag) = if isRequestOf tag (.request u op) = true then 1 else 0 :=
  List.countP_singleton

theorem countP_hasTag_newPending (u : Tag) (op : Op) (c : RequestCfg) (id : U16) (r : RequestPdu) (s : State) :
    [newPending u c id r s].countP (hasTag tag) = if isRequestOf tag (.request u op) = true then 1 else 0 :=
  List.countP_singleton

/-- A result for each entry: as many for a tag as it has entries (R341). -/
@[simp] theorem isResultOf_comp_requestResult (o : CallOutcome) :
    (isResultOf tag ∘ fun p : Pending => Action.requestResult p.tag o) = hasTag tag := rfl

/-- The answer to a `Connect` is no result of a request. -/
@[simp] theorem isResultOf_comp_connectResult (o : CallOutcome) :
    (isResultOf tag ∘ fun u : Tag => Action.connectResult u o) = fun _ => false := rfl

/-- The entry that a search finds stands in front of the list that loses it, up to order. -/
theorem perm_cons_eraseP_of_find? {α : Type} {test : α → Bool} {a : α} {l : List α} (h : l.find? test = some a) :
    l.Perm (a :: l.eraseP test) := by
  obtain ⟨ha, before, after, rfl, hbefore⟩ := List.find?_eq_some_iff_append.1 h
  rw [List.eraseP_append_right _ (by simpa using hbefore), List.eraseP_cons_of_pos ha]
  exact List.perm_middle

/-! ### The named operations -/

/-- A frame answers the entry it removes, or removes none (R364, R366). -/
@[simp] theorem resultsAndEntries_engineFrame (f : Frame) (s : State) :
    resultsAndEntries tag (engineFrame f s) = resultsAndEntries tag s := by
  rcases engineFrame_cases f s with ⟨h, -⟩ | ⟨p, o, hfind, -, h⟩ <;> rw [h]
  · simp [resultsAndEntries]
  · have hcount := (perm_cons_eraseP_of_find? hfind).countP_eq (hasTag tag)
    rw [← List.singleton_append, countP_append] at hcount
    simp only [resultsAndEntries, countP_append, countP_isResultOf_entry]
    omega

/-- One examined entry stays, or is answered with `Timeout` (R380 to R382). -/
theorem countP_afterExamine_singleton (n : Nat) (p : Pending) :
    (([p].filter (isDue n)).map dueAction).countP (isResultOf tag) +
        ([p].filterMap (afterExamine n)).countP (hasTag tag) =
      [p].countP (hasTag tag) := by
  cases hdue : isDue n p with
  | false => simp [afterExamine, hdue]
  | true =>
    cases hretry : hasRetry p with
    | false => simpa [afterExamine, dueAction, hdue, hretry] using countP_isResultOf_entry tag p .timeout
    | true =>
      have hkeep : [retried n p].countP (hasTag tag) = [p].countP (hasTag tag) := rfl
      simp [afterExamine, dueAction, hdue, hretry, hkeep]

/-- Every examined entry stays, or is answered with `Timeout` (R380 to R382). -/
theorem countP_afterExamine (n : Nat) (l : List Pending) :
    ((l.filter (isDue n)).map dueAction).countP (isResultOf tag) + (l.filterMap (afterExamine n)).countP (hasTag tag) =
      l.countP (hasTag tag) := by
  induction l with
  | nil => rfl
  | cons p l ih =>
    have hp := countP_afterExamine_singleton tag n p
    rw [← List.singleton_append]
    simp only [List.filter_append, List.map_append, List.filterMap_append, countP_append]
    omega

@[simp] theorem resultsAndEntries_runDeadlines (s : State) :
    resultsAndEntries tag (runDeadlines s) = resultsAndEntries tag s := by
  rw [runDeadlines_eq]
  simp only [resultsAndEntries, countP_append, Nat.add_assoc, countP_afterExamine]

@[simp] theorem resultsAndEntries_watchdog (s : State) :
    resultsAndEntries tag (watchdog s) = resultsAndEntries tag s := by
  rcases watchdog_cases s with ⟨-, h⟩ | ⟨-, h⟩ <;> simp [h, resultsAndEntries]

/-! ### Every instruction -/

theorem isRequestOf_unitRow {i : Instr} (hi : isUnitRow i = true) : isRequestOf tag i = false := by
  cases i
  case request u op => cases hi
  all_goals rfl

/-- Every instruction keeps the number of a tag's results and entries together; a `Request` with the tag adds one. -/
theorem resultsAndEntries_exec {i : Instr} {s t : State} (he : exec i s = .next t) :
    resultsAndEntries tag t = resultsAndEntries tag s + (if isRequestOf tag i = true then 1 else 0) := by
  induction i using unit_or_event with
  | unit i hi =>
    obtain ⟨r, hx⟩ := exec_unitRow hi s
    obtain rfl := Host.Outcome.next.inj (hx.symm.trans he)
    simp [resultsAndEntries, isRequestOf_unitRow tag hi]
  | cfgWrite w =>
    obtain rfl := Host.Outcome.next.inj he
    rfl
  | connect u =>
    rcases execConnect_cases u s with ⟨-, hx⟩ | ⟨-, hx⟩ <;>
      obtain rfl := Host.Outcome.next.inj (hx.symm.trans he) <;> simp [resultsAndEntries, isRequestOf]
  | transportOpened =>
    rcases execTransportOpened_cases s with ⟨-, hx⟩ | ⟨-, hx⟩ <;>
      obtain rfl := Host.Outcome.next.inj (hx.symm.trans he) <;> simp [resultsAndEntries, isRequestOf]
  | transportFailed =>
    rcases execTransportFailed_cases s with ⟨-, hx⟩ | ⟨-, hx⟩ | ⟨-, hx⟩ <;>
      obtain rfl := Host.Outcome.next.inj (hx.symm.trans he) <;> simp [resultsAndEntries, isRequestOf]
  | disconnect u =>
    obtain rfl := Host.Outcome.next.inj ((execDisconnect_eq u s).symm.trans he)
    simp only [resultsAndEntries, isRequestOf, countP_append, Bool.false_eq_true, if_false]
    split_ifs <;> simp
  | request u op =>
    rcases execRequest_cases u op s with ⟨o, -, hx⟩ | ⟨c, r, id, s1, -, -, -, ha, hx⟩ <;>
      obtain rfl := Host.Outcome.next.inj (hx.symm.trans he)
    · simp only [resultsAndEntries, emit_fields, countP_append, countP_isResultOf_request tag u op]
      omega
    · obtain ⟨tid, rfl⟩ := exists_eq_of_allocate ha
      simp only [resultsAndEntries, transmitAndRegister, pendingAdd_fields, countTransmit_fields, emit_fields,
        countP_append, countP_hasTag_newPending tag u op, List.countP_singleton, isResultOf_transportWrite]
      exact (Nat.add_assoc ..).symm
  | rxChunk bytes =>
    rcases execRxChunk_cases bytes s with ⟨-, hx⟩ | ⟨-, hx⟩ <;>
      obtain rfl := Host.Outcome.next.inj (hx.symm.trans he)
    · rfl
    · exact foldl_rxByte_induct (P := fun x => resultsAndEntries tag x = resultsAndEntries tag s)
        (rxByte_induct (fun _ _ h => h) (fun _ _ h => h) (fun f x h => (resultsAndEntries_engineFrame tag f x).trans h)
          (fun _ h => h)) bytes rfl
  | rxGap =>
    rcases execRxGap_cases s with hx | ⟨-, -, hx | ⟨f, -, -, hx⟩⟩ <;>
      obtain rfl := Host.Outcome.next.inj (hx.symm.trans he)
    · rfl
    · simp [resultsAndEntries, isRequestOf]
    · rw [resultsAndEntries_engineFrame]
      simp [resultsAndEntries, isRequestOf]
  | tick n =>
    obtain rfl := Host.Outcome.next.inj he
    rw [resultsAndEntries_watchdog, resultsAndEntries_runDeadlines]
    rfl

end Sys2Proof.Machine
end

section
/-! The results of each request (spec/44_transaction_engine.md R392). -/

namespace Sys2Proof.Machine

/-- Settles O56: a tag's results and entries together are kept, or grow by one, and the results emitted before stay. -/
theorem requestsAreAnsweredExactlyOnce : Obligations.RequestsAreAnsweredExactlyOnce := by
  intro i s t acts tag he hout
  have hkept := resultsAndEntries_exec tag he
  rw [resultsAndEntries, resultsAndEntries, hout, List.countP_append] at hkept
  change acts.countP (isResultOf tag) + t.pending.countP (hasTag tag) = s.pending.countP (hasTag tag) + _
  omega

end Sys2Proof.Machine
end

section
/-! SUPPORT. Frames written and frames counted (spec/10_state.md R48, spec/44_transaction_engine.md R390): what an event
writes, and what it adds to the three counters of sending. -/

namespace Sys2Proof.Machine

/-- From `s` to `t` these frames are written and counted, and this many of them as retries. -/
structure Sends (frames : List Bytes) (retries : Nat) (s t : State) : Prop where
  written : t.out.filterMap writtenFrame = s.out.filterMap writtenFrame ++ frames
  framesSent : t.ctr.framesSent = s.ctr.framesSent + BitVec.ofNat 64 frames.length
  bytesSent : t.ctr.bytesSent = s.ctr.bytesSent + BitVec.ofNat 64 (frames.map List.length).sum
  retries : t.ctr.retries = s.ctr.retries + BitVec.ofNat 64 retries

variable {s t : State}

/-- The frames written are those of the actions appended. -/
theorem Sends.frames_eq {frames : List Bytes} {retries : Nat} {acts : List Action} (h : Sends frames retries s t)
    (hout : t.out = s.out ++ acts) : acts.filterMap writtenFrame = frames := by
  have hwritten := h.written
  rw [hout, List.filterMap_append] at hwritten
  exact List.append_cancel_left hwritten

/-! ### Actions -/

@[simp] theorem writtenFrame_transportWrite (frame : Bytes) : writtenFrame (.transportWrite frame) = some frame := rfl

@[simp] theorem writtenFrame_transportOpen (e : Endpoint) (m : Mode) : writtenFrame (.transportOpen e m) = none := rfl

@[simp] theorem writtenFrame_transportClose : writtenFrame .transportClose = none := rfl

@[simp] theorem writtenFrame_connectResult (u : Tag) (o : CallOutcome) : writtenFrame (.connectResult u o) = none := rfl

@[simp] theorem writtenFrame_disconnectResult (u : Tag) (o : CallOutcome) :
    writtenFrame (.disconnectResult u o) = none := rfl

@[simp] theorem writtenFrame_requestResult (u : Tag) (o : CallOutcome) : writtenFrame (.requestResult u o) = none := rfl

@[simp] theorem writtenFrame_linkDown (o : CallOutcome) : writtenFrame (.linkDown o) = none := rfl

/-- The frames written for examined entries are those of the entries with a retry left (R381). -/
theorem filterMap_writtenFrame_dueAction (l : List Pending) :
    (l.map dueAction).filterMap writtenFrame = (l.filter hasRetry).map Pending.originalFrame := by
  induction l with
  | nil => rfl
  | cons p l ih =>
    cases hretry : hasRetry p <;> simp [dueAction, hretry, ih, List.filterMap_cons]

/-! ### Events that write nothing -/

/-- A change that appends no write and leaves the counters of sending alone sends nothing. -/
theorem Sends.nothing (hwritten : t.out.filterMap writtenFrame = s.out.filterMap writtenFrame)
    (hctr : t.ctr = s.ctr) : Sends [] 0 s t := by
  constructor <;> simp [hwritten, hctr]

theorem Sends.refl (s : State) : Sends [] 0 s s := .nothing rfl rfl

/-- Handling a frame sends nothing (R362 to R366). -/
theorem Sends.engineFrame {frames : List Bytes} {retries : Nat} (h : Sends frames retries s t) (f : Frame) :
    Sends frames retries s (engineFrame f t) := by
  rcases engineFrame_cases f t with ⟨hx, -⟩ | ⟨p, o, -, -, hx⟩ <;> rw [hx]
  · exact { h with }
  · exact { h with written := by simp [h.written] }

/-- Receiving bytes sends nothing (R360). -/
theorem sends_foldl_rxByte (bytes : Bytes) (h : Sends [] 0 s t) : Sends [] 0 s (bytes.foldl rxByte t) :=
  foldl_rxByte_induct (rxByte_induct (fun _ _ h => { h with }) (fun _ _ h => { h with }) (fun f _ h => h.engineFrame f)
    (fun _ h => { h with })) bytes h

/-! ### Events that write -/

/-- An accepted request sends its frame (R357). -/
theorem sends_transmitAndRegister (tag : Tag) (c : RequestCfg) (id : U16) (r : RequestPdu) (s : State) :
    Sends [(newPending tag c id r s).originalFrame] 0 s (transmitAndRegister tag c id r s) := by
  constructor <;> simp [transmitAndRegister]

/-- The deadlines of a `Tick` send the frames of the entries with a retry left, each as a retry (R381). -/
theorem sends_runDeadlines (s : State) :
    Sends (((s.pending.filter (isDue s.now)).filter hasRetry).map Pending.originalFrame)
      ((s.pending.filter (isDue s.now)).filter hasRetry).length s (runDeadlines s) where
  written := by simp only [runDeadlines_eq, List.filterMap_append, filterMap_writtenFrame_dueAction]
  framesSent := by simp only [runDeadlines_eq, examineAll_ctr, List.length_map]
  bytesSent := by
    simp only [runDeadlines_eq, examineAll_ctr, List.map_map]
    rfl
  retries := by simp only [runDeadlines_eq, examineAll_ctr]

/-- The watchdog sends nothing (R383). -/
theorem Sends.watchdog {frames : List Bytes} {retries : Nat} (h : Sends frames retries s t) :
    Sends frames retries s (watchdog t) := by
  rcases watchdog_cases t with ⟨-, hx⟩ | ⟨-, hx⟩ <;> rw [hx]
  · exact h
  · exact { h with written := by simp [h.written] }

/-! ### Every instruction -/

/-- A request sends its frame or nothing, and retries nothing. -/
theorem exists_sends_of_request {tag : Tag} {op : Op} (he : exec (.request tag op) s = .next t) :
    ∃ frames, Sends frames 0 s t := by
  rcases execRequest_cases tag op s with ⟨o, -, hx⟩ | ⟨c, r, id, s1, -, -, -, ha, hx⟩ <;>
    obtain rfl := Host.Outcome.next.inj (hx.symm.trans he)
  · exact ⟨[], .nothing (by simp) rfl⟩
  · obtain ⟨tid, rfl⟩ := exists_eq_of_allocate ha
    exact ⟨_, { sends_transmitAndRegister tag c id r { s with lastTid := tid } with }⟩

/-- Whatever another instruction sends, it sends again. -/
theorem exists_sends_of_not_request {i : Instr} (hi : ∀ tag op, i ≠ .request tag op) (he : exec i s = .next t) :
    ∃ frames, Sends frames frames.length s t := by
  induction i using unit_or_event with
  | unit i hunit =>
    obtain ⟨r, hx⟩ := exec_unitRow hunit s
    obtain rfl := Host.Outcome.next.inj (hx.symm.trans he)
    exact ⟨[], .nothing rfl rfl⟩
  | cfgWrite w =>
    obtain rfl := Host.Outcome.next.inj he
    exact ⟨[], .nothing rfl rfl⟩
  | connect tag =>
    rcases execConnect_cases tag s with ⟨-, hx⟩ | ⟨-, hx⟩ <;>
      obtain rfl := Host.Outcome.next.inj (hx.symm.trans he) <;> exact ⟨[], .nothing (by simp) rfl⟩
  | transportOpened =>
    rcases execTransportOpened_cases s with ⟨-, hx⟩ | ⟨-, hx⟩ <;>
      obtain rfl := Host.Outcome.next.inj (hx.symm.trans he) <;> exact ⟨[], .nothing (by simp) rfl⟩
  | transportFailed =>
    rcases execTransportFailed_cases s with ⟨-, hx⟩ | ⟨-, hx⟩ | ⟨-, hx⟩ <;>
      obtain rfl := Host.Outcome.next.inj (hx.symm.trans he) <;> exact ⟨[], .nothing (by simp) rfl⟩
  | disconnect tag =>
    obtain rfl := Host.Outcome.next.inj ((execDisconnect_eq tag s).symm.trans he)
    refine ⟨[], .nothing ?_ rfl⟩
    dsimp only
    split_ifs <;> simp
  | request tag op => exact absurd rfl (hi tag op)
  | rxChunk bytes =>
    rcases execRxChunk_cases bytes s with ⟨-, hx⟩ | ⟨-, hx⟩ <;>
      obtain rfl := Host.Outcome.next.inj (hx.symm.trans he)
    · exact ⟨[], .refl s⟩
    · exact ⟨[], sends_foldl_rxByte bytes { Sends.refl s with }⟩
  | rxGap =>
    rcases execRxGap_cases s with hx | ⟨-, -, hx | ⟨f, -, -, hx⟩⟩ <;>
      obtain rfl := Host.Outcome.next.inj (hx.symm.trans he)
    · exact ⟨[], .refl s⟩
    · exact ⟨[], .nothing rfl rfl⟩
    · have hdropped : Sends [] 0 s (dropLink s) := .nothing rfl rfl
      exact ⟨[], hdropped.engineFrame f⟩
  | tick n =>
    obtain rfl := Host.Outcome.next.inj he
    have hsends := (sends_runDeadlines { s with now := max s.now n }).watchdog
    exact ⟨_, { hsends with retries := by rw [List.length_map]; exact hsends.retries }⟩

end Sys2Proof.Machine
end

section
/-! The counters of sending (spec/10_state.md R48, spec/44_transaction_engine.md R390). -/

namespace Sys2Proof.Machine

/-- Settles O57: what an instruction sends is counted, and is a retry unless a `Request` sends it. -/
theorem countersMatchFramesWritten : Obligations.CountersMatchFramesWritten := by
  intro i s t acts he hout
  by_cases hi : ∃ tag op, i = .request tag op
  · obtain ⟨tag, op, rfl⟩ := hi
    obtain ⟨frames, hsends⟩ := exists_sends_of_request he
    obtain rfl := hsends.frames_eq hout
    have hnone : t.ctr.retries = s.ctr.retries := by simpa using hsends.retries
    exact ⟨hsends.framesSent, hsends.bytesSent, fun _ _ _ => hnone, fun h => absurd rfl (h tag op)⟩
  · have hnot : ∀ tag op, i ≠ .request tag op := fun tag op h => hi ⟨tag, op, h⟩
    obtain ⟨frames, hsends⟩ := exists_sends_of_not_request hnot he
    obtain rfl := hsends.frames_eq hout
    exact ⟨hsends.framesSent, hsends.bytesSent, fun tag op h => absurd h (hnot tag op), fun _ => hsends.retries⟩

end Sys2Proof.Machine
end

section
/-! The moves of the connection state (spec/44_transaction_engine.md R345 to R350, R383). -/

namespace Sys2Proof.Machine

/-- Settles O60: event by event, by where each of its cases starts and ends. -/
theorem connectionTransitionsAreTheRules : Obligations.ConnectionTransitionsAreTheRules := by
  intro i s t he
  induction i using unit_or_event with
  | unit i hi =>
    obtain ⟨r, hx⟩ := exec_unitRow hi s
    obtain rfl := Host.Outcome.next.inj (hx.symm.trans he)
    exact .inl rfl
  | cfgWrite w =>
    obtain rfl := Host.Outcome.next.inj he
    exact .inl rfl
  | connect tag =>
    rcases execConnect_cases tag s with ⟨-, hx⟩ | ⟨hconn, hx⟩ <;>
      obtain rfl := Host.Outcome.next.inj (hx.symm.trans he)
    · exact .inl rfl
    · exact .inr (.inl ⟨hconn, rfl, tag, rfl⟩)
  | transportOpened =>
    rcases execTransportOpened_cases s with ⟨hconn, hx⟩ | ⟨-, hx⟩ <;>
      obtain rfl := Host.Outcome.next.inj (hx.symm.trans he)
    · exact .inr (.inr (.inl ⟨hconn, rfl, rfl⟩))
    · exact .inl rfl
  | transportFailed =>
    rcases execTransportFailed_cases s with ⟨-, hx⟩ | ⟨-, hx⟩ | ⟨-, hx⟩ <;>
      obtain rfl := Host.Outcome.next.inj (hx.symm.trans he)
    · exact .inr (.inr (.inr ⟨rfl, .inl rfl⟩))
    · exact .inr (.inr (.inr ⟨rfl, .inl rfl⟩))
    · exact .inl rfl
  | disconnect tag =>
    obtain rfl := Host.Outcome.next.inj ((execDisconnect_eq tag s).symm.trans he)
    exact .inr (.inr (.inr ⟨rfl, .inr (.inl ⟨tag, rfl⟩)⟩))
  | request tag op =>
    rcases execRequest_cases tag op s with ⟨o, -, hx⟩ | ⟨c, r, id, s1, -, -, -, ha, hx⟩ <;>
      obtain rfl := Host.Outcome.next.inj (hx.symm.trans he)
    · exact .inl rfl
    · obtain ⟨tid, rfl⟩ := exists_eq_of_allocate ha
      exact .inl rfl
  | rxChunk bytes =>
    rcases execRxChunk_cases bytes s with ⟨-, hx⟩ | ⟨-, hx⟩ <;>
      obtain rfl := Host.Outcome.next.inj (hx.symm.trans he)
    · exact .inl rfl
    · exact .inl (by simp)
  | rxGap =>
    rcases execRxGap_cases s with hx | ⟨-, -, hx | ⟨f, -, -, hx⟩⟩ <;>
      obtain rfl := Host.Outcome.next.inj (hx.symm.trans he)
    · exact .inl rfl
    · exact .inl rfl
    · exact .inl (by simp)
  | tick n =>
    obtain rfl := Host.Outcome.next.inj he
    have hexamined : (runDeadlines { s with now := max s.now n }).conn = s.conn := by simp [runDeadlines_eq]
    rcases watchdog_cases (runDeadlines { s with now := max s.now n }) with ⟨-, hx⟩ | ⟨hdue, hx⟩ <;> rw [hx]
    · exact .inl hexamined
    · obtain ⟨hconn, -⟩ := (watchdogDue_iff _).1 hdue
      exact .inr (.inr (.inr ⟨rfl, .inr (.inr ⟨hexamined.symm.trans hconn, n, rfl⟩)⟩))

end Sys2Proof.Machine
end

section
/-! SUPPORT. What the actions report (spec/60_exceptions.md R420, R421): a failure to parse stays inside the block, since a
frame resolves its entry only with `Ok` or `ProtocolException` (spec/44_transaction_engine.md R364). -/

namespace Sys2Proof.Machine

/-- The action reports neither `MalformedPdu` nor `Corrupt` (R420, R421). -/
def NoParseFailure (a : Action) : Prop :=
  reportedOutcome a ≠ some .malformedPdu ∧ reportedOutcome a ≠ some .corrupt

/-! ### Actions -/

@[simp] theorem noParseFailure_transportOpen (e : Endpoint) (m : Mode) : NoParseFailure (.transportOpen e m) := by
  simp [NoParseFailure, reportedOutcome]

@[simp] theorem noParseFailure_transportClose : NoParseFailure .transportClose := by
  simp [NoParseFailure, reportedOutcome]

@[simp] theorem noParseFailure_transportWrite (frame : Bytes) : NoParseFailure (.transportWrite frame) := by
  simp [NoParseFailure, reportedOutcome]

@[simp] theorem noParseFailure_connectResult (tag : Tag) (o : CallOutcome) :
    NoParseFailure (.connectResult tag o) ↔ o ≠ .malformedPdu ∧ o ≠ .corrupt := by
  simp [NoParseFailure, reportedOutcome]

@[simp] theorem noParseFailure_disconnectResult (tag : Tag) (o : CallOutcome) :
    NoParseFailure (.disconnectResult tag o) ↔ o ≠ .malformedPdu ∧ o ≠ .corrupt := by
  simp [NoParseFailure, reportedOutcome]

@[simp] theorem noParseFailure_requestResult (tag : Tag) (o : CallOutcome) :
    NoParseFailure (.requestResult tag o) ↔ o ≠ .malformedPdu ∧ o ≠ .corrupt := by
  simp [NoParseFailure, reportedOutcome]

@[simp] theorem noParseFailure_linkDown (o : CallOutcome) :
    NoParseFailure (.linkDown o) ↔ o ≠ .malformedPdu ∧ o ≠ .corrupt := by
  simp [NoParseFailure, reportedOutcome]

/-- An entry whose deadline has come is written again or answered with `Timeout` (R381, R382). -/
@[simp] theorem noParseFailure_dueAction (p : Pending) : NoParseFailure (dueAction p) := by
  rw [dueAction]
  split_ifs <;> simp

/-- What a frame resolves an entry with is no failure to parse: a malformed PDU resolves nothing (R364). -/
theorem resolution_ne_parseFailure {functionCode : Byte} {d : Decoded} {o : CallOutcome}
    (h : resolution functionCode d = some o) : o ≠ .malformedPdu ∧ o ≠ .corrupt := by
  cases d with
  | malformedPdu => cases h
  | response fc data =>
    obtain ⟨-, ⟨⟩⟩ := Option.ite_none_right_eq_some.1 h
    simp
  | protocolException rfc efc ec =>
    obtain ⟨-, ⟨⟩⟩ := Option.ite_none_right_eq_some.1 h
    simp

/-! ### The actions emitted so far -/

/-- No action emitted so far reports a failure to parse. -/
def State.NoParseFailures (s : State) : Prop := ∀ a ∈ s.out, NoParseFailure a

variable {s : State}

/-- Emitting actions that report no failure to parse keeps it so. -/
theorem State.NoParseFailures.append {t : State} {acts : List Action} (h : s.NoParseFailures) (hout : t.out = s.out ++ acts)
    (hacts : ∀ a ∈ acts, NoParseFailure a) : t.NoParseFailures := by
  rw [State.NoParseFailures, hout, List.forall_mem_append]
  exact ⟨h, hacts⟩

theorem State.NoParseFailures.engineFrame (h : s.NoParseFailures) (f : Frame) : (engineFrame f s).NoParseFailures := by
  rcases engineFrame_cases f s with ⟨hx, -⟩ | ⟨p, o, -, hresolved, hx⟩ <;> rw [hx]
  · exact h
  · exact h.append rfl (by simpa using resolution_ne_parseFailure hresolved)

theorem State.NoParseFailures.runDeadlines (h : s.NoParseFailures) : (runDeadlines s).NoParseFailures := by
  rw [runDeadlines_eq]
  exact h.append rfl (List.forall_mem_map.2 fun p _ => noParseFailure_dueAction p)

theorem State.NoParseFailures.watchdog (h : s.NoParseFailures) : (watchdog s).NoParseFailures := by
  rcases watchdog_cases s with ⟨-, hx⟩ | ⟨-, hx⟩ <;> rw [hx]
  · exact h
  · exact h.append (List.append_assoc ..) (by simp [or_imp, forall_and])

/-- No instruction emits the report of a failure to parse. -/
theorem State.NoParseFailures.exec {i : Instr} {t : State} (h : s.NoParseFailures) (he : exec i s = .next t) :
    t.NoParseFailures := by
  induction i using unit_or_event with
  | unit i hi =>
    obtain ⟨r, hx⟩ := exec_unitRow hi s
    obtain rfl := Host.Outcome.next.inj (hx.symm.trans he)
    exact h
  | cfgWrite w =>
    obtain rfl := Host.Outcome.next.inj he
    exact h
  | connect tag =>
    rcases execConnect_cases tag s with ⟨-, hx⟩ | ⟨-, hx⟩ <;>
      obtain rfl := Host.Outcome.next.inj (hx.symm.trans he) <;> exact h.append rfl (by simp)
  | transportOpened =>
    rcases execTransportOpened_cases s with ⟨-, hx⟩ | ⟨-, hx⟩ <;>
      obtain rfl := Host.Outcome.next.inj (hx.symm.trans he) <;> exact h.append rfl (by simp)
  | transportFailed =>
    rcases execTransportFailed_cases s with ⟨-, hx⟩ | ⟨-, hx⟩ | ⟨-, hx⟩ <;>
      obtain rfl := Host.Outcome.next.inj (hx.symm.trans he)
    · exact h.append rfl (by simp)
    · exact h.append (List.append_assoc ..) (by simp [or_imp, forall_and])
    · exact h
  | disconnect tag =>
    obtain rfl := Host.Outcome.next.inj ((execDisconnect_eq tag s).symm.trans he)
    refine h.append (by simp only [List.append_assoc]; rfl) ?_
    simp only [List.forall_mem_append]
    split_ifs <;> simp
  | request tag op =>
    rcases execRequest_cases tag op s with ⟨o, ho, hx⟩ | ⟨c, r, id, s1, -, -, -, ha, hx⟩ <;>
      obtain rfl := Host.Outcome.next.inj (hx.symm.trans he)
    · exact h.append rfl (by rcases ho with rfl | rfl | rfl <;> simp)
    · obtain ⟨tid, rfl⟩ := exists_eq_of_allocate ha
      exact h.append rfl (by simp)
  | rxChunk bytes =>
    rcases execRxChunk_cases bytes s with ⟨-, hx⟩ | ⟨-, hx⟩ <;>
      obtain rfl := Host.Outcome.next.inj (hx.symm.trans he)
    · exact h
    · exact foldl_rxByte_induct
        (rxByte_induct (fun _ _ h => h) (fun _ _ h => h) (fun f _ h => h.engineFrame f) (fun _ h => h)) bytes h
  | rxGap =>
    rcases execRxGap_cases s with hx | ⟨-, -, hx | ⟨f, -, -, hx⟩⟩ <;>
      obtain rfl := Host.Outcome.next.inj (hx.symm.trans he)
    · exact h
    · exact h
    · have hdropped : (dropLink s).NoParseFailures := h
      exact hdropped.engineFrame f
  | tick n =>
    obtain rfl := Host.Outcome.next.inj he
    have hmoved : ({ s with now := max s.now n } : State).NoParseFailures := h
    exact hmoved.runDeadlines.watchdog

end Sys2Proof.Machine
end

section
/-! Stops and reports (spec/60_exceptions.md R420, R421, R426, R433; spec/70_reset_and_hazards.md R471). -/

namespace Sys2Proof.Machine

/-- Settles O58: an instruction appends the same actions from an empty output list, where no report stands before them. -/
theorem parseFailuresAreNeverReported : Obligations.ParseFailuresAreNeverReported := by
  intro i s t acts he hout
  obtain ⟨u, emitted, hexec⟩ := actionsAreOnlyAppended i s
  obtain rfl := Host.Outcome.next.inj ((hexec s.out s.input).symm.trans he)
  obtain rfl := List.append_cancel_left hout
  have hempty : ({ s with out := [] } : State).NoParseFailures := List.forall_mem_nil _
  exact hempty.exec (hexec [] s.input)

/-- Settles O53: what an instruction appends to every output list, it appends to the one it finds, and goes on. -/
theorem everyInstructionCompletes : Obligations.EveryInstructionCompletes := by
  intro i s
  obtain ⟨t, acts, hexec⟩ := actionsAreOnlyAppended i s
  exact ⟨_, hexec s.out s.input⟩

theorem step_of_no_input {s : State} (hs : s.input = []) : step s = .next s := by
  simp only [step, fetch, hs]

theorem step_of_fetch_decode_error {s s' : State} {inp : Input} {e : DecodeError} (hf : fetch s = some (inp, s'))
    (hd : decode inp = .error e) : step s = .fault (.notAnInstruction e) := by
  simp only [step, hf, hd]

/-- Settles O5: with no input nothing is fetched; an item fetched that does not decode is the named stop. -/
theorem stepWaitsOrNamesTheStop : Obligations.StepWaitsOrNamesTheStop :=
  ⟨fun _ => step_of_no_input, fun _ _ _ _ hs => step_of_fetch_decode_error (fetch_of_cons hs)⟩

end Sys2Proof.Machine
end
